-- ==== Sys2Proof/Word.lean ====
section
/-! DEFINITION. The word types of the MPIU (spec/00_scope.md R7, R9): 32-bit words (limbs, scalar
registers, command words) and bytes of the buffer memory. -/

namespace Sys2Proof

/-- A 32-bit word: a scalar register, a command word (R34, R80). -/
abbrev Word := BitVec 32

/-- A limb: one unsigned word of a magnitude, with `W = 32` (R7, R15). -/
abbrev Limb := BitVec 32

/-- A byte of BMEM (R49). -/
abbrev Byte := BitVec 8

/-- The number of an integer register `M0` .. `M15`: a 4-bit field, all 16 values valid (R20, R80). -/
abbrev RegNo := Fin 16

end Sys2Proof
end

