-- ==== Sys2Proof/Config.lean ====
section
/-! DEFINITION. What is fixed for one unit and not by the spec (spec/00_scope.md R7, spec/92_eei_decisions.md
"Open parameters"), and the free values: constants without a body, so that no proof can see a value of them. -/

namespace Sys2Proof

/-- The limb width `W` in bits, fixed at 32 (R7, D2). -/
abbrev Config.limbBits : Nat := 32

/-- The limb base `B = 2^W` (R10). -/
abbrev Config.base : Nat := 4294967296

/-- The open parameters of a unit (R7): the ceiling `MAX_LIMBS` and the buffer size `BUF_BYTES`.
They are constant for the life of the unit (R38, R40, R52). -/
structure Config.Params where
  maxLimbs : Nat
  bufBytes : Nat
  deriving DecidableEq, Repr

/-- The constraints of R7 on the open parameters. -/
abbrev Config.Params.Valid (p : Config.Params) : Prop :=
  4 ≤ p.maxLimbs ∧ Config.limbBits * p.maxLimbs < 2 ^ 32 ∧ 1 ≤ p.bufBytes ∧ p.bufBytes < 2 ^ 32

/-- The part of `MAX_LIMBS` above 4 that a unit's build chose: any value R7 allows (log entry 1). -/
opaque Config.limbsAboveFour : Fin 134217724

/-- The part of `BUF_BYTES` above 1 that a unit's build chose: any value R7 allows (log entry 1). -/
opaque Config.bytesAboveOne : Fin 4294967295

/-- The parameters of the unit that `State.reset` is a reset of: free, within the constraints of R7. -/
def Config.params : Config.Params where
  maxLimbs := Config.limbsAboveFour.val + 4
  bufBytes := Config.bytesAboveOne.val + 1

/-- The sample configuration CFG_REF of R7. -/
def Config.cfgRef : Config.Params := ⟨256, 4096⟩

/-- The sample configuration CFG_TINY of R7. -/
def Config.cfgTiny : Config.Params := ⟨4, 64⟩

/-- FREE VALUE. What the byte of BMEM at an address holds when nothing has written it since the reset with
this number (R51, R75, 93_implementation_defined.md U7): fixed once drawn, drawn anew at each reset. -/
opaque Config.freeByte : (resetNo addr : Nat) → Byte

/-- FREE VALUE. The integer the engine leaves when EXPMOD is given a constant that is not `RR` (R173, U1), one
for each such command. -/
opaque Config.freeInt : (drawNo : Nat) → Int

end Sys2Proof
end

