-- ==== Sys2Proof/Syntax.lean ====
section
/-! DEFINITION. The commands of the MPIU: one constructor per row of spec/opcode_table.json
(spec/30_encoding.md R83). A constructor holds every field its command's mask leaves open, the fields that a
flag makes unused (R85, R86) among them, because fault entry records the whole command word (R195). -/

namespace Sys2Proof

/-- `RRMODE`, the field `fl[1:0]` of EXPMOD (R86). `reserved` is the value 3, which no legal word holds. -/
inductive RRMode
  /-- 0: no `RR` operand, computed internally and discarded. -/
  | absent
  /-- 1: `M[re]` is the caller's constant. -/
  | supplied
  /-- 2: computed internally and committed to `M[re]`. -/
  | stored
  /-- 3: reserved; the command faults with BAD_INPUT. -/
  | reserved
  deriving DecidableEq, Repr

/-- A command (R3, R83). Operands stand in the order of the word's fields `rd re ra rb rc` (R80), after the flags
where the command has any. `importBuf` and `exportBuf` are IMPORT and EXPORT, whose plain names are words of Lean. -/
inductive Instr
  | init (rd : RegNo)
  | free (rd : RegNo)
  | grow (rd : RegNo)
  | sets (rd : RegNo)
  | copy (rd ra : RegNo)
  | importBuf (rd : RegNo)
  | exportBuf (ra : RegNo)
  | bitlen (ra : RegNo)
  | size (ra : RegNo)
  | shl (rd : RegNo)
  | shr (rd : RegNo)
  | cmpabs (ra rb : RegNo)
  | cmp (ra rb : RegNo)
  | cmps (ra : RegNo)
  | addabs (rd ra rb : RegNo)
  | subabs (rd ra rb : RegNo)
  | add (rd ra rb : RegNo)
  | sub (rd ra rb : RegNo)
  | mul (rd ra rb : RegNo)
  | muls (rd ra : RegNo)
  | div (qen ren : Bool) (rd re ra rb : RegNo)
  | divs (qen ren : Bool) (rd re ra : RegNo)
  | mod (rd ra rb : RegNo)
  | mods (ra : RegNo)
  | expmod (mode : RRMode) (rd re ra rb rc : RegNo)
  deriving DecidableEq, Repr

end Sys2Proof
end

