-- ==== Sys2Proof/WellFormed.lean ====
section
/-! DEFINITION. Which commands are legal (spec/30_encoding.md R87). The types of Syntax already keep every register
number below 16 and every must-be-zero field out of the term; what is left to check is EXPMOD's reserved mode. -/

namespace Sys2Proof

/-- No command but EXPMOD has an illegal term; EXPMOD has one for `fl[1:0] = 3` (R86, R87 (c)). Two enabled outputs
of DIV that name one register are a LEGAL word, whose rule faults (R153). -/
def Instr.wellFormed : Instr → Bool
  | .expmod mode _ _ _ _ _ => mode != .reserved
  | _ => true

/-- `Instr.wellFormed` as a proposition. -/
abbrev Instr.WellFormed (i : Instr) : Prop := i.wellFormed = true

end Sys2Proof
end

