-- ==== Sys2Proof/Decode.lean ====
section
/-! DEFINITION. Decoding and encoding of command words (spec/30_encoding.md R80 to R88): a total decoder on 32-bit
words that rejects by name, and after it the encoder, both from the table of R83. -/

namespace Sys2Proof

/-- The opcodes of R83, one per row of spec/opcode_table.json. -/
inductive Op
  | init | free | grow | sets | copy | importBuf | exportBuf
  | bitlen | size | shl | shr | cmpabs | cmp | cmps
  | addabs | subabs | add | sub | mul | muls | div | divs | mod | mods
  | expmod
  deriving DecidableEq, Repr

/-- Why a word is illegal (R87 (a), (b), (c)). -/
inductive Illegal
  /-- (a) the opcode is none of the 25. -/
  | undefinedOpcode
  /-- (b) a field that must be zero for the opcode is not zero. -/
  | fieldNotZero
  /-- (c) EXPMOD with `fl[1:0] = 3`. -/
  | reservedRRMode
  deriving DecidableEq, Repr

/-- What a word decodes to (R88). -/
inductive Decoded
  | command (i : Instr)
  | illegal (why : Illegal)
  deriving DecidableEq, Repr

/-- The fields of a command word besides the opcode (R80). -/
structure Fields where
  rd : RegNo
  re : RegNo
  ra : RegNo
  rb : RegNo
  rc : RegNo
  fl : BitVec 4
  deriving DecidableEq, Repr

/-- A 4-bit field read as a register number (R80). -/
def regOfField (f : BitVec 4) : RegNo := ⟨f.toNat, f.isLt⟩

/-- A register number as its 4-bit field. -/
def fieldOfReg (r : RegNo) : BitVec 4 := BitVec.ofNat 4 r.val

/-- The opcode field `word[31:24]` (R80). -/
def opField (w : Word) : BitVec 8 := w.extractLsb' 24 8

/-- The other fields of a word, at the places of R80. -/
def fieldsOf (w : Word) : Fields where
  rd := regOfField (w.extractLsb' 20 4)
  re := regOfField (w.extractLsb' 16 4)
  ra := regOfField (w.extractLsb' 12 4)
  rb := regOfField (w.extractLsb' 8 4)
  rc := regOfField (w.extractLsb' 4 4)
  fl := w.extractLsb' 0 4

/-- The opcode numbers of R83. -/
def Op.code : Op → BitVec 8
  | .init => 0x01 | .free => 0x02 | .grow => 0x03 | .sets => 0x04 | .copy => 0x05
  | .importBuf => 0x06 | .exportBuf => 0x07
  | .bitlen => 0x10 | .size => 0x11 | .shl => 0x12 | .shr => 0x13
  | .cmpabs => 0x14 | .cmp => 0x15 | .cmps => 0x16
  | .addabs => 0x20 | .subabs => 0x21 | .add => 0x22 | .sub => 0x23 | .mul => 0x24 | .muls => 0x25
  | .div => 0x26 | .divs => 0x27 | .mod => 0x28 | .mods => 0x29
  | .expmod => 0x30

/-- The opcode a number names, if any (R83, R87 (a)). -/
def Op.ofCode (c : BitVec 8) : Option Op :=
  match c.toNat with
  | 0x01 => some .init | 0x02 => some .free | 0x03 => some .grow | 0x04 => some .sets | 0x05 => some .copy
  | 0x06 => some .importBuf | 0x07 => some .exportBuf
  | 0x10 => some .bitlen | 0x11 => some .size | 0x12 => some .shl | 0x13 => some .shr
  | 0x14 => some .cmpabs | 0x15 => some .cmp | 0x16 => some .cmps
  | 0x20 => some .addabs | 0x21 => some .subabs | 0x22 => some .add | 0x23 => some .sub | 0x24 => some .mul
  | 0x25 => some .muls | 0x26 => some .div | 0x27 => some .divs | 0x28 => some .mod | 0x29 => some .mods
  | 0x30 => some .expmod
  | _ => none

/-- The column *mask* of R83. -/
def Op.mask : Op → Word
  | .init => 0xFF0FFFFF | .free => 0xFF0FFFFF | .grow => 0xFF0FFFFF | .sets => 0xFF0FFFFF
  | .copy => 0xFF0F0FFF | .importBuf => 0xFF0FFFFF | .exportBuf => 0xFFFF0FFF
  | .bitlen => 0xFFFF0FFF | .size => 0xFFFF0FFF | .shl => 0xFF0FFFFF | .shr => 0xFF0FFFFF
  | .cmpabs => 0xFFFF00FF | .cmp => 0xFFFF00FF | .cmps => 0xFFFF0FFF
  | .addabs => 0xFF0F00FF | .subabs => 0xFF0F00FF | .add => 0xFF0F00FF | .sub => 0xFF0F00FF
  | .mul => 0xFF0F00FF | .muls => 0xFF0F0FFF
  | .div => 0xFF0000FC | .divs => 0xFF000FFC | .mod => 0xFF0F00FF | .mods => 0xFFFF0FFF
  | .expmod => 0xFF00000C

/-- The column *match* of R83: the opcode number, every must-be-zero field zero. -/
def Op.pattern : Op → Word
  | .init => 0x01000000 | .free => 0x02000000 | .grow => 0x03000000 | .sets => 0x04000000
  | .copy => 0x05000000 | .importBuf => 0x06000000 | .exportBuf => 0x07000000
  | .bitlen => 0x10000000 | .size => 0x11000000 | .shl => 0x12000000 | .shr => 0x13000000
  | .cmpabs => 0x14000000 | .cmp => 0x15000000 | .cmps => 0x16000000
  | .addabs => 0x20000000 | .subabs => 0x21000000 | .add => 0x22000000 | .sub => 0x23000000
  | .mul => 0x24000000 | .muls => 0x25000000
  | .div => 0x26000000 | .divs => 0x27000000 | .mod => 0x28000000 | .mods => 0x29000000
  | .expmod => 0x30000000

/-- `RRMODE` from `fl[1:0]` (R86). -/
def rrModeOfField (fl : BitVec 4) : RRMode :=
  match fl.toNat % 4 with
  | 0 => .absent
  | 1 => .supplied
  | 2 => .stored
  | _ => .reserved

/-- The command an opcode and its fields stand for (R83, R84, R85, R86). -/
def Op.build (f : Fields) : Op → Instr
  | .init => .init f.rd
  | .free => .free f.rd
  | .grow => .grow f.rd
  | .sets => .sets f.rd
  | .copy => .copy f.rd f.ra
  | .importBuf => .importBuf f.rd
  | .exportBuf => .exportBuf f.ra
  | .bitlen => .bitlen f.ra
  | .size => .size f.ra
  | .shl => .shl f.rd
  | .shr => .shr f.rd
  | .cmpabs => .cmpabs f.ra f.rb
  | .cmp => .cmp f.ra f.rb
  | .cmps => .cmps f.ra
  | .addabs => .addabs f.rd f.ra f.rb
  | .subabs => .subabs f.rd f.ra f.rb
  | .add => .add f.rd f.ra f.rb
  | .sub => .sub f.rd f.ra f.rb
  | .mul => .mul f.rd f.ra f.rb
  | .muls => .muls f.rd f.ra
  | .div => .div (f.fl.getLsbD 0) (f.fl.getLsbD 1) f.rd f.re f.ra f.rb
  | .divs => .divs (f.fl.getLsbD 0) (f.fl.getLsbD 1) f.rd f.re f.ra
  | .mod => .mod f.rd f.ra f.rb
  | .mods => .mods f.ra
  | .expmod => .expmod (rrModeOfField f.fl) f.rd f.re f.ra f.rb f.rc

/-- The decoder of R88: opcode lookup, the mask test, EXPMOD's extra test, in that order. -/
def decode (w : Word) : Decoded :=
  match Op.ofCode (opField w) with
  | none => .illegal .undefinedOpcode
  | some o =>
    if w &&& o.mask ≠ o.pattern then .illegal .fieldNotZero
    else if o = .expmod ∧ rrModeOfField (fieldsOf w).fl = .reserved then .illegal .reservedRRMode
    else .command (o.build (fieldsOf w))

/-- The command of a decoded word, if it is one. -/
def Decoded.instr? : Decoded → Option Instr
  | .command i => some i
  | .illegal _ => none

/-- The instruction the decoder reads from an opcode-table row's word of `nbits` bits with number `w`. A command is
one 32-bit number handed to CMD (R81, R64), so the number is the word and the bits above `nbits` are zero. -/
def decodeTableWord (nbits w : Nat) : Option Instr :=
  (decode (BitVec.ofNat 32 (w % 2 ^ nbits))).instr?

/-- A command word from its opcode and fields, at the places of R80. -/
def assemble (op : BitVec 8) (rd re ra rb rc : RegNo) (fl : BitVec 4) : Word :=
  op ++ fieldOfReg rd ++ fieldOfReg re ++ fieldOfReg ra ++ fieldOfReg rb ++ fieldOfReg rc ++ fl

/-- `fl` of DIV and DIVS: bit 0 is QEN, bit 1 is REN, bits 3:2 zero (R85). -/
def divFlags (qen ren : Bool) : BitVec 4 := 0#2 ++ BitVec.ofBool ren ++ BitVec.ofBool qen

/-- `fl` of EXPMOD: bits 1:0 are RRMODE, bits 3:2 zero (R86). -/
def rrModeField : RRMode → BitVec 4
  | .absent => 0
  | .supplied => 1
  | .stored => 2
  | .reserved => 3

/-- The word of a command: its opcode, its fields at the places of R80, zero in every field the command does not
have (R83, R84). -/
def encode : Instr → Word
  | .init rd => assemble 0x01 rd 0 0 0 0 0
  | .free rd => assemble 0x02 rd 0 0 0 0 0
  | .grow rd => assemble 0x03 rd 0 0 0 0 0
  | .sets rd => assemble 0x04 rd 0 0 0 0 0
  | .copy rd ra => assemble 0x05 rd 0 ra 0 0 0
  | .importBuf rd => assemble 0x06 rd 0 0 0 0 0
  | .exportBuf ra => assemble 0x07 0 0 ra 0 0 0
  | .bitlen ra => assemble 0x10 0 0 ra 0 0 0
  | .size ra => assemble 0x11 0 0 ra 0 0 0
  | .shl rd => assemble 0x12 rd 0 0 0 0 0
  | .shr rd => assemble 0x13 rd 0 0 0 0 0
  | .cmpabs ra rb => assemble 0x14 0 0 ra rb 0 0
  | .cmp ra rb => assemble 0x15 0 0 ra rb 0 0
  | .cmps ra => assemble 0x16 0 0 ra 0 0 0
  | .addabs rd ra rb => assemble 0x20 rd 0 ra rb 0 0
  | .subabs rd ra rb => assemble 0x21 rd 0 ra rb 0 0
  | .add rd ra rb => assemble 0x22 rd 0 ra rb 0 0
  | .sub rd ra rb => assemble 0x23 rd 0 ra rb 0 0
  | .mul rd ra rb => assemble 0x24 rd 0 ra rb 0 0
  | .muls rd ra => assemble 0x25 rd 0 ra 0 0 0
  | .div qen ren rd re ra rb => assemble 0x26 rd re ra rb 0 (divFlags qen ren)
  | .divs qen ren rd re ra => assemble 0x27 rd re ra 0 0 (divFlags qen ren)
  | .mod rd ra rb => assemble 0x28 rd 0 ra rb 0 0
  | .mods ra => assemble 0x29 0 0 ra 0 0 0
  | .expmod mode rd re ra rb rc => assemble 0x30 rd re ra rb rc (rrModeField mode)

end Sys2Proof
end

