-- ==== Sys2Proof/Machine/State.lean ====
section
/-! DEFINITION. The state of the MPIU as plain data (spec/10_state.md), the reasons a step can stop, and the state
after reset (R51, R220). -/

namespace Sys2Proof.Machine

/-- The sign attribute of an integer register (R21): `+1` or `-1`. -/
inductive Sign
  | plus
  | minus
  deriving DecidableEq, Repr

/-- An integer register (R21): its sign and its limbs `limb[0 .. cap-1]`, least significant first. The capacity is
the number of limbs held (log entry 12). -/
structure MReg where
  sign : Sign
  limbs : List Limb
  deriving DecidableEq, Repr

/-- A register as reset, INIT and FREE leave it: capacity 0, sign `+1` (R51, R100, R101). -/
def MReg.empty : MReg := ⟨.plus, []⟩

/-- The fields of STATUS (R35). Bits 31:8 read as zero and have no storage. -/
structure Status where
  busy : Bool
  fault : Bool
  cmp : BitVec 2
  err : BitVec 4
  deriving DecidableEq, Repr

/-- The result codes of R190, in its order. -/
inductive ErrCode
  | ok
  | alloc
  | badInput
  | invalidChar
  | bufferTooSmall
  | negativeValue
  | divByZero
  | notAcceptable
  deriving DecidableEq, Repr

/-- BMEM as the bytes written since reset (R49): pairs of address and byte, addresses strictly rising. An unlisted
address holds NO written value; what it reads as is `State.byteAt`'s free value (log entry 2). -/
abbrev Memory := List Host.Cell

/-- What the outside world can do to the unit: the host's accesses to the window of R34 (R47, R91) and the
platform's reset (R220). Offsets are byte offsets from the unit's base address. -/
inductive Action
  /-- A 32-bit write: CMD and CTRL have effects, RW registers take the value, RO registers ignore it. -/
  | write32 (offset : Nat) (value : Word)
  /-- A 32-bit read of a scalar register. -/
  | read32 (offset : Nat)
  /-- A byte write, for BMEM. -/
  | write8 (offset : Nat) (value : Byte)
  /-- A byte read, for BMEM. -/
  | read8 (offset : Nat)
  /-- The platform asserts `rst` and releases it. -/
  | reset
  deriving DecidableEq, Repr

/-- A value the unit has answered to a host read. -/
inductive Reply
  | word (value : Word)
  | byte (value : Byte)
  deriving DecidableEq, Repr

/-- Why a step stops with a fault. No COMMAND does: a command's fault is a next state (R195). -/
inductive Fault
  /-- Raised by the host port (`State.perform`) on a host access to an offset the map of R34 does not define:
  `0x034 .. 0xFFF` or at and above `0x1000 + BUF_BYTES` (R47, U8: "the host has no such move"). Safe: the model
  stops where the spec defines nothing. -/
  | noSuchOffset
  deriving DecidableEq, Repr

/-- Why a step is refused. -/
inductive Refusal
  /-- Raised by `exec` for an instruction without a meaning, by mnemonic. No arm of this model raises it. Safe. -/
  | notModelled (mnemonic : String)
  /-- Raised by the host port (`State.perform`) on an access width R47 does not define: a register access that is
  not an aligned 32-bit word, a BMEM access wider than one byte (U9: "refuse"). Safe. -/
  | undefinedWidth
  /-- Raised by the host port (`State.perform`) on a host access other than a read of STATUS while BUSY = 1 (R225,
  U5: "refuse"). No reachable state has BUSY = 1. Safe. -/
  | accessWhileBusy
  deriving DecidableEq, Repr

/-- The state of one MPIU and of what its host still has to do. The first eleven fields are the spec's state (R20, R31,
R34, R49, R38, R40); the last four are the model's own (log entries 4, 5, 6). -/
structure State where
  /-- `M0` .. `M15` (R20). -/
  m : Vector MReg 16
  /-- STATUS (R35). -/
  status : Status
  /-- ECMD, the command word of the most recent fault (R37). -/
  ecmd : Word
  /-- IMM, the small operand (R41). -/
  imm : Word
  /-- CNT, the count operand (R42). -/
  cnt : Word
  /-- BADDR, the buffer address (R43). -/
  baddr : Word
  /-- BLEN, the buffer length (R44). -/
  blen : Word
  /-- RESN, the count result (R45). -/
  resn : Word
  /-- RESW, the limb result (R46). -/
  resw : Word
  /-- BMEM (R49): the bytes written since reset. -/
  bmem : Memory
  /-- MAX_LIMBS and BUF_BYTES, what MAXLIMBS and BUFSZ read (R38, R40). Constant. -/
  params : Config.Params
  /-- The model's own: host and platform actions not yet performed, oldest first (R92). -/
  pending : List Action
  /-- The model's own: the values answered to host reads, latest first (R91). -/
  replies : List Reply
  /-- The model's own: how often reset has been applied, the argument of `Config.freeByte`. -/
  resetNo : Nat
  /-- The model's own: how many free integers have been drawn, the argument of `Config.freeInt`. -/
  draws : Nat
  deriving DecidableEq, Repr

/-- STATUS after reset: idle, no fault, OK, CMP equal (R32, R33, R51). -/
def Status.reset : Status := ⟨false, false, 0, 0⟩

/-- The unit right after reset (R51, R220), with nothing for the host to do. -/
def State.reset : State where
  m := Vector.replicate 16 MReg.empty
  status := Status.reset
  ecmd := 0
  imm := 0
  cnt := 0
  baddr := 0
  blen := 0
  resn := 0
  resw := 0
  bmem := []
  params := Config.params
  pending := []
  replies := []
  resetNo := 0
  draws := 0

end Sys2Proof.Machine
end

