-- ==== Sys2Proof/Machine/Numbers.lean ====
section
/-! DEFINITION. The functions on integers, limb sequences and byte sequences that every rule uses
(spec/00_scope.md R10, R12; spec/10_state.md R22; spec/20_memory.md R62, R63). -/

namespace Sys2Proof.Machine

/-- `bitlen(m)`: 0 for 0, else the `n` with `2^(n-1) <= m < 2^n` (R10). -/
def bitlen (m : Nat) : Nat := if m = 0 then 0 else Nat.log2 m + 1

/-- `limbs(m) = ceil(bitlen(m) / W)` (R10). -/
def limbCount (m : Nat) : Nat := (bitlen m + 31) / Config.limbBits

/-- `bytes(m) = ceil(bitlen(m) / 8)` (R10, R105). -/
def byteCount (m : Nat) : Nat := (bitlen m + 7) / 8

/-- `tdiv(a, b)`: the quotient rounded toward zero (R10). -/
def tdiv (a b : Int) : Int := Int.tdiv a b

/-- `tmod(a, b) = a - b * tdiv(a, b)`: the remainder with the sign of `a`, or zero (R10). -/
def tmod (a b : Int) : Int := a - b * tdiv a b

/-- `fmod(a, b) = a - b * floor(a / b)`: the floor remainder (R10). -/
def fmod (a b : Int) : Int := a - b * Int.fdiv a b

/-- `cmp3(x, y)`: -1, 0 or +1 (R10). -/
def cmp3 (x y : Int) : Int := if x < y then -1 else if x = y then 0 else 1

/-- `sext_W(v)`: a word as the signed value of its two's complement (R9). -/
def sextW (v : Word) : Int := v.toInt

/-- The number a sequence of limbs spells, least significant limb first (R22). -/
def natOfLimbs : List Limb → Nat
  | [] => 0
  | l :: ls => l.toNat + Config.base * natOfLimbs ls

/-- The low `n` limbs of `m`: limb `j` is `floor(m / B^j) mod B` (R24). -/
def limbsOfNat : (n m : Nat) → List Limb
  | 0, _ => []
  | n + 1, m => BitVec.ofNat 32 m :: limbsOfNat n (m / Config.base)

/-- The number a byte sequence spells when its first byte is the least significant. -/
def leNat : List Byte → Nat
  | [] => 0
  | b :: bs => b.toNat + 256 * leNat bs

/-- The low `n` bytes of `m`, least significant first. -/
def leBytes : (n m : Nat) → List Byte
  | 0, _ => []
  | n + 1, m => BitVec.ofNat 8 m :: leBytes n (m / 256)

/-- `be_nat(s)`: the number a byte sequence spells big-endian (R12, R62). -/
def beNat (s : List Byte) : Nat := leNat s.reverse

/-- `nat_be(m, n)`: the `n` bytes that spell `m` big-endian, leading bytes zero (R12, R107). -/
def natBe (m n : Nat) : List Byte := (leBytes n m).reverse

/-- `a^e mod n` by squaring, over at most `fuel` bits of `e`. -/
def powModFuel (n : Nat) : (fuel a e : Nat) → Nat
  | 0, _, _ => 1 % n
  | fuel + 1, a, e =>
    let half := powModFuel n fuel (a * a % n) (e / 2)
    if e % 2 = 1 then a * half % n else half

/-- `fmod(a^e, n)` for naturals, computed by squaring (R170). That it is `a^e % n` is `powMod_eq` of Laws. -/
def powMod (a e n : Nat) : Nat := powModFuel n (bitlen e) (a % n) e

/-- `fmod(a^e, n)` for an integer base, reduced first as R170 says: `fmod(fmod(a, n)^e, n)`. -/
def expMod (a : Int) (e n : Nat) : Int := powMod (fmod a n).toNat e n

/-- The reduction constant `RR = fmod(B^(2*limbs(N)), N)` (R173). -/
def rrConst (n : Nat) : Nat := Config.base ^ (2 * limbCount n) % n

end Sys2Proof.Machine
end

