-- ==== Sys2Proof/Machine/Flags.lean ====
section
/-! DEFINITION. STATUS as a word, the result codes and the comparison result (spec/10_state.md R31 to R35;
spec/60_exceptions.md R190). There are no arithmetic flags (R31, R140). -/

namespace Sys2Proof.Machine

/-- The numbers of R190. -/
def ErrCode.code : ErrCode → BitVec 4
  | .ok => 0
  | .alloc => 1
  | .badInput => 2
  | .invalidChar => 3
  | .bufferTooSmall => 4
  | .negativeValue => 5
  | .divByZero => 6
  | .notAcceptable => 7

/-- `r[1:0]` of a three-way result: `0b11`, `0b00` or `0b01` (R32). -/
def cmpBits (r : Int) : BitVec 2 := BitVec.ofInt 2 r

/-- STATUS as the host reads it (R35): BUSY in bit 0, FAULT in bit 1, CMP in 3:2, ERR in 7:4, the rest zero. -/
def Status.word (s : Status) : Word :=
  0#24 ++ s.err ++ s.cmp ++ BitVec.ofBool s.fault ++ BitVec.ofBool s.busy

/-- The sign of a value as it is stored: `-1` for a negative value, `+1` otherwise, zero included (R24). -/
def Sign.ofInt (v : Int) : Sign := if v < 0 then .minus else .plus

/-- A sign as a factor (R22). -/
def Sign.toInt : Sign → Int
  | .plus => 1
  | .minus => -1

end Sys2Proof.Machine
end

