-- ==== Sys2Proof/Machine/Operands.lean ====
section
/-! DEFINITION. The operand forms of the commands (spec/30_encoding.md R82, R84; spec/10_state.md R22, R41 to R44):
integer registers by number, the small operand, the count, the buffer. -/

namespace Sys2Proof.Machine

/-- `cap`, the number of limbs allocated (R21). -/
def MReg.cap (r : MReg) : Nat := r.limbs.length

/-- `mag(M[i])` (R22). -/
def MReg.mag (r : MReg) : Nat := natOfLimbs r.limbs

/-- `val(M[i]) = sign * mag` (R22). -/
def MReg.val (r : MReg) : Int := r.sign.toInt * r.mag

/-- Integer register `M[i]` (R11). -/
def State.reg (s : State) (i : RegNo) : MReg := s.m[i]

/-- `val(M[i])` (R11). -/
def State.val (s : State) (i : RegNo) : Int := (s.reg i).val

/-- `mag(M[i])` (R11). -/
def State.mag (s : State) (i : RegNo) : Nat := (s.reg i).mag

/-- The small signed operand `z = sext_W(IMM)` (R14, R41). -/
def State.small (s : State) : Int := sextW s.imm

/-- The count operand, `zext_32(CNT)` (R42, R82). -/
def State.count (s : State) : Nat := s.cnt.toNat

/-- The buffer's start address, `zext_32(BADDR)` (R43, R82). -/
def State.bufAddr (s : State) : Nat := s.baddr.toNat

/-- The buffer's length in bytes, `zext_32(BLEN)` (R44, R82). -/
def State.bufLen (s : State) : Nat := s.blen.toNat

/-- The buffer is in range: `BADDR + BLEN <= BUF_BYTES`, the sum without wrap-around (R60). -/
abbrev State.BufInRange (s : State) : Prop := s.bufAddr + s.bufLen ≤ s.params.bufBytes

/-- `require_fit(v)` holds: `limbs(|v|) <= MAX_LIMBS` (R24, R140). -/
abbrev State.Fits (s : State) (v : Int) : Prop := limbCount v.natAbs ≤ s.params.maxLimbs

end Sys2Proof.Machine
end

