-- ==== Sys2Proof/Machine/Ops.lean ====
section
/-! DEFINITION. The shared operations: BMEM (spec/20_memory.md), the commit primitive (spec/10_state.md R24),
completion, FAULT ENTRY and the acknowledge (spec/60_exceptions.md R194, R195, R197). -/

namespace Sys2Proof.Machine

/-- The byte written at an address, if any has been since reset. -/
def Memory.read : Memory → Nat → Option Byte
  | [], _ => none
  | (a, b) :: rest, x => if x = a then some b else Memory.read rest x

/-- Write one byte, keeping the addresses strictly rising. -/
def Memory.write : Memory → Nat → Byte → Memory
  | [], x, v => [(x, v)]
  | (a, b) :: rest, x, v =>
    if x < a then (x, v) :: (a, b) :: rest
    else if x = a then (x, v) :: rest
    else (a, b) :: Memory.write rest x v

/-- Write a sequence of bytes from an address upward (R12). -/
def Memory.writeBytes : Memory → Nat → List Byte → Memory
  | mem, _, [] => mem
  | mem, x, b :: bs => Memory.writeBytes (Memory.write mem x b) (x + 1) bs

/-- The canonical form of a memory: addresses strictly rising. -/
abbrev Memory.wf (mem : Memory) : Prop := mem.Pairwise (fun c d => c.1 < d.1)

/-- The byte BMEM holds at an address: the one written last, or, where nothing has been written since reset, the
free value of that reset and address (R75, U7). -/
def State.byteAt (s : State) (a : Nat) : Byte :=
  match s.bmem.read a with
  | some b => b
  | none => Config.freeByte s.resetNo a

/-- `MemRead(addr, n)` (R12). -/
def State.memRead (s : State) (addr n : Nat) : List Byte :=
  (List.range n).map fun i => s.byteAt (addr + i)

/-- `MemWrite(addr, n, s)` with `n` the length of the sequence (R12). -/
def State.memWrite (s : State) (addr : Nat) (bytes : List Byte) : State :=
  { s with bmem := s.bmem.writeBytes addr bytes }

/-- Put an integer register. -/
def State.setReg (s : State) (i : RegNo) (r : MReg) : State := { s with m := s.m.set i r }

/-- The register a commit of `v` leaves: capacity grown to what `v` needs and never shrunk, every limb written, zero
with sign `+1` (R24). -/
def MReg.commit (r : MReg) (v : Int) : MReg where
  sign := Sign.ofInt v
  limbs := limbsOfNat (max r.cap (limbCount v.natAbs)) v.natAbs

/-- The register with at least `n` limbs, the new ones zero; value and sign as before (R102). -/
def MReg.grow (r : MReg) (n : Nat) : MReg :=
  { r with limbs := r.limbs ++ List.replicate (n - r.cap) 0 }

/-- The commit primitive `M[i] <- v` (R24). -/
def State.commit (s : State) (i : RegNo) (v : Int) : State := s.setReg i ((s.reg i).commit v)

/-- STATUS after a successful command: ERR 0, BUSY 0 (R194). -/
def Status.completed (st : Status) : Status := { st with err := ErrCode.ok.code, busy := false }

/-- `done`: successful completion (R194). FAULT and ECMD are unchanged. -/
def State.done (s : State) : Host.Outcome State Fault Refusal :=
  .next { s with status := s.status.completed }

/-- STATUS after a fault: ERR the code, FAULT 1, BUSY 0; CMP unchanged (R195). -/
def Status.faulted (st : Status) (e : ErrCode) : Status :=
  { st with err := e.code, fault := true, busy := false }

/-- FAULT ENTRY, `raise E` for the command word `c` (R195): the code into ERR, FAULT set, the word into ECMD, nothing
else. It is applied to the state the command was issued in, so nothing the command computed is committed. -/
def State.raise (s : State) (c : Word) (e : ErrCode) : Host.Outcome State Fault Refusal :=
  .next { s with status := s.status.faulted e, ecmd := c }

/-- ACKNOWLEDGE, the return from a fault (R197): FAULT cleared, ERR and ECMD kept. -/
def State.ack (s : State) : State := { s with status := { s.status with fault := false } }

/-- The end of a command whose one result is `v` for `M[rd]`: `require_fit(v)`, then the commit, then `done`
(R24, R140). `c` is the command's word. -/
def State.finish (s : State) (c : Word) (rd : RegNo) (v : Int) : Host.Outcome State Fault Refusal :=
  if s.Fits v then (s.commit rd v).done else s.raise c .alloc

/-- Commit only if the output is enabled (R85, R86). -/
def State.commitIf (s : State) (enabled : Bool) (i : RegNo) (v : Int) : State :=
  if enabled then s.commit i v else s

/-- Commit a three-way result to STATUS.CMP (R32). -/
def State.setCmp (s : State) (r : Int) : State := { s with status := { s.status with cmp := cmpBits r } }

/-- A free integer that fits the ceiling (R173, U1): any integer `x` with `limbs(|x|) <= MAX_LIMBS` is possible. -/
def State.drawInt (s : State) : Int :=
  Int.tmod (Config.freeInt s.draws) (Config.base ^ s.params.maxLimbs)

end Sys2Proof.Machine
end

