-- ==== Sys2Proof/Machine/Arith.lean ====
section
/-! DEFINITION. The arithmetic commands ADDABS, SUBABS, ADD, SUB, MUL, MULS, DIV, DIVS, MOD, MODS
(spec/42_arithmetic.md). All arithmetic is exact; a result over the ceiling is an ALLOC fault (R140). -/

namespace Sys2Proof.Machine

/-- ADDABS (R141, conflict C2): `M[rd] <- |a| + |b|`, sign `+1`. -/
def execAddabs (rd ra rb : RegNo) (s : State) : Host.Outcome State Fault Refusal :=
  s.finish (encode (.addabs rd ra rb)) rd ((s.mag ra : Int) + s.mag rb)

/-- SUBABS (R142): `M[rd] <- |a| - |b|`, sign `+1`; NEGATIVE_VALUE when `|a| < |b|`. -/
def execSubabs (rd ra rb : RegNo) (s : State) : Host.Outcome State Fault Refusal :=
  if s.mag ra < s.mag rb then s.raise (encode (.subabs rd ra rb)) .negativeValue
  else (s.commit rd ((s.mag ra : Int) - s.mag rb)).done

/-- ADD (R144): `M[rd] <- a + b`. -/
def execAdd (rd ra rb : RegNo) (s : State) : Host.Outcome State Fault Refusal :=
  s.finish (encode (.add rd ra rb)) rd (s.val ra + s.val rb)

/-- SUB (R145): `M[rd] <- a - b`. -/
def execSub (rd ra rb : RegNo) (s : State) : Host.Outcome State Fault Refusal :=
  s.finish (encode (.sub rd ra rb)) rd (s.val ra - s.val rb)

/-- MUL (R150): `M[rd] <- a * b`. -/
def execMul (rd ra rb : RegNo) (s : State) : Host.Outcome State Fault Refusal :=
  s.finish (encode (.mul rd ra rb)) rd (s.val ra * s.val rb)

/-- MULS (R151): `M[rd] <- a * sext_W(IMM)`. -/
def execMuls (rd ra : RegNo) (s : State) : Host.Outcome State Fault Refusal :=
  s.finish (encode (.muls rd ra)) rd (s.val ra * s.small)

/-- Truncating division of `a` by `b` with the outputs the flags enable (R153, R154): BAD_INPUT for two enabled
outputs in one register, then DIV_BY_ZERO; the results fit because `|q| <= |a|` and `|r| < |b|`. -/
def State.divide (s : State) (c : Word) (qen ren : Bool) (rd re : RegNo) (a b : Int) :
    Host.Outcome State Fault Refusal :=
  if qen = true ∧ ren = true ∧ rd = re then s.raise c .badInput
  else if b = 0 then s.raise c .divByZero
  else ((s.commitIf qen rd (tdiv a b)).commitIf ren re (tmod a b)).done

/-- DIV (R153). -/
def execDiv (qen ren : Bool) (rd re ra rb : RegNo) (s : State) : Host.Outcome State Fault Refusal :=
  s.divide (encode (.div qen ren rd re ra rb)) qen ren rd re (s.val ra) (s.val rb)

/-- DIVS (R154): the divisor is the small operand. -/
def execDivs (qen ren : Bool) (rd re ra : RegNo) (s : State) : Host.Outcome State Fault Refusal :=
  s.divide (encode (.divs qen ren rd re ra)) qen ren rd re (s.val ra) s.small

/-- MOD (R156): `M[rd] <- fmod(a, b)`; DIV_BY_ZERO for `b = 0`, NEGATIVE_VALUE for `b < 0`. -/
def execMod (rd ra rb : RegNo) (s : State) : Host.Outcome State Fault Refusal :=
  if s.val rb = 0 then s.raise (encode (.mod rd ra rb)) .divByZero
  else if s.val rb < 0 then s.raise (encode (.mod rd ra rb)) .negativeValue
  else (s.commit rd (fmod (s.val ra) (s.val rb))).done

/-- MODS (R157): RESW takes `fmod(a, sext_W(IMM))`, with the faults of MOD. -/
def execMods (ra : RegNo) (s : State) : Host.Outcome State Fault Refusal :=
  if s.small = 0 then s.raise (encode (.mods ra)) .divByZero
  else if s.small < 0 then s.raise (encode (.mods ra)) .negativeValue
  else State.done { s with resw := BitVec.ofInt 32 (fmod (s.val ra) s.small) }

end Sys2Proof.Machine
end

