-- ==== Sys2Proof/Machine/CompareBits.lean ====
section
/-! DEFINITION. The comparison and bit commands BITLEN, SIZE, SHL, SHR, CMPABS, CMP, CMPS
(spec/41_compare_bits.md). -/

namespace Sys2Proof.Machine

/-- BITLEN (R120): RESN takes the bit length of the magnitude. -/
def execBitlen (ra : RegNo) (s : State) : Host.Outcome State Fault Refusal :=
  State.done { s with resn := BitVec.ofNat 32 (bitlen (s.mag ra)) }

/-- SIZE (R121, conflict C4): RESN takes the byte length of the magnitude. -/
def execSize (ra : RegNo) (s : State) : Host.Outcome State Fault Refusal :=
  State.done { s with resn := BitVec.ofNat 32 (byteCount (s.mag ra)) }

/-- The ceiling holds for a magnitude shifted left by `c` bits, in the form R122 gives it: the magnitude is zero or
`bitlen(mag) + c <= W * MAX_LIMBS` (log entry 11). -/
abbrev State.ShiftFits (s : State) (mag c : Nat) : Prop :=
  mag = 0 ∨ bitlen mag + c ≤ Config.limbBits * s.params.maxLimbs

/-- SHL (R122): the magnitude shifted left by CNT bits, in place; ALLOC over the ceiling. A zero stays zero and its
shift is not formed. -/
def execShl (rd : RegNo) (s : State) : Host.Outcome State Fault Refusal :=
  if s.ShiftFits (s.mag rd) s.count then
    (s.commit rd (if s.mag rd = 0 then 0 else s.val rd * 2 ^ s.count)).done
  else s.raise (encode (.shl rd)) .alloc

/-- SHR (R123): the magnitude shifted right by CNT bits, in place, the sign kept. -/
def execShr (rd : RegNo) (s : State) : Host.Outcome State Fault Refusal :=
  (s.commit rd ((s.reg rd).sign.toInt * ((s.mag rd >>> s.count : Nat) : Int))).done

/-- CMPABS (R124): STATUS.CMP takes the comparison of the magnitudes. -/
def execCmpabs (ra rb : RegNo) (s : State) : Host.Outcome State Fault Refusal :=
  (s.setCmp (cmp3 (s.mag ra) (s.mag rb))).done

/-- CMP (R125): STATUS.CMP takes the signed comparison. -/
def execCmp (ra rb : RegNo) (s : State) : Host.Outcome State Fault Refusal :=
  (s.setCmp (cmp3 (s.val ra) (s.val rb))).done

/-- CMPS (R126): STATUS.CMP takes the comparison with the small operand. -/
def execCmps (ra : RegNo) (s : State) : Host.Outcome State Fault Refusal :=
  (s.setCmp (cmp3 (s.val ra) s.small)).done

end Sys2Proof.Machine
end

