-- ==== Sys2Proof/Machine/ModExp.lean ====
section
/-! DEFINITION. The modular exponentiation command EXPMOD, by its architectural rule (spec/43_modexp.md R170 to R174).
The engine that computes it (R176 to R182) is in Engine.lean and is not state. -/

namespace Sys2Proof.Machine

/-- The end of EXPMOD for a modulus `nn` and exponent `e` that pass every check (R171): in mode 1 with a constant that
is not `RR` the result is a free integer that fits the ceiling (R173, U1) and one draw is used up; otherwise it is
`fmod(a^e, nn)`. Mode 2 also commits `RR` to `M[re]`. -/
def State.expmodCommit (s : State) (mode : RRMode) (rd re ra : RegNo) (e nn : Nat) :
    Host.Outcome State Fault Refusal :=
  if mode = .supplied ∧ s.val re ≠ rrConst nn then
    State.done { s.commit rd s.drawInt with draws := s.draws + 1 }
  else
    ((s.commit rd (expMod (s.val ra) e nn)).commitIf (mode = .stored) re (rrConst nn)).done

/-- EXPMOD (R171), its checks in the order of R171: the reserved mode (R86; no legal word has it), store mode into the
result's register, the modulus, the exponent, the ceiling of the working storage. -/
def execExpmod (mode : RRMode) (rd re ra rb rc : RegNo) (s : State) : Host.Outcome State Fault Refusal :=
  if mode = .reserved then s.raise (encode (.expmod mode rd re ra rb rc)) .badInput
  else if mode = .stored ∧ re = rd then s.raise (encode (.expmod mode rd re ra rb rc)) .badInput
  else if s.val rc ≤ 0 ∨ s.val rc % 2 = 0 then s.raise (encode (.expmod mode rd re ra rb rc)) .notAcceptable
  else if s.val rb < 0 then s.raise (encode (.expmod mode rd re ra rb rc)) .notAcceptable
  else if 2 * (limbCount (s.val rc).natAbs + 1) > s.params.maxLimbs then
    s.raise (encode (.expmod mode rd re ra rb rc)) .alloc
  else s.expmodCommit mode rd re ra (s.val rb).toNat (s.val rc).toNat

end Sys2Proof.Machine
end

