-- ==== Sys2Proof/Machine/Storage.lean ====
section
/-! DEFINITION. The storage commands INIT, FREE, GROW, SETS, COPY, IMPORT, EXPORT (spec/40_storage.md). -/

namespace Sys2Proof.Machine

/-- INIT (R100): the register becomes empty. -/
def execInit (rd : RegNo) (s : State) : Host.Outcome State Fault Refusal :=
  (s.setReg rd MReg.empty).done

/-- FREE (R101): the register's storage is released; the same architectural effect as INIT. -/
def execFree (rd : RegNo) (s : State) : Host.Outcome State Fault Refusal :=
  (s.setReg rd MReg.empty).done

/-- GROW (R102): capacity at least CNT; ALLOC when CNT is above the ceiling. -/
def execGrow (rd : RegNo) (s : State) : Host.Outcome State Fault Refusal :=
  if s.count ≤ s.params.maxLimbs then (s.setReg rd ((s.reg rd).grow s.count)).done
  else s.raise (encode (.grow rd)) .alloc

/-- SETS (R103): `M[rd] <- sext_W(IMM)`. -/
def execSets (rd : RegNo) (s : State) : Host.Outcome State Fault Refusal :=
  (s.commit rd s.small).done

/-- COPY (R104): `M[rd] <- val(M[ra])`. -/
def execCopy (rd ra : RegNo) (s : State) : Host.Outcome State Fault Refusal :=
  (s.commit rd (s.val ra)).done

/-- IMPORT (R106): the buffer's bytes, big-endian, become a non-negative value; BAD_INPUT for a buffer out of range,
then ALLOC for a value over the ceiling. -/
def execImport (rd : RegNo) (s : State) : Host.Outcome State Fault Refusal :=
  if s.BufInRange then s.finish (encode (.importBuf rd)) rd (beNat (s.memRead s.bufAddr s.bufLen))
  else s.raise (encode (.importBuf rd)) .badInput

/-- EXPORT (R107): with BLEN = 0 a size query; else the magnitude into all BLEN bytes of the buffer; BAD_INPUT for a
buffer out of range, then BUFFER_TOO_SMALL. -/
def execExport (ra : RegNo) (s : State) : Host.Outcome State Fault Refusal :=
  if s.bufLen = 0 then State.done { s with blen := BitVec.ofNat 32 (byteCount (s.mag ra)) }
  else if ¬ s.BufInRange then s.raise (encode (.exportBuf ra)) .badInput
  else if s.bufLen < byteCount (s.mag ra) then s.raise (encode (.exportBuf ra)) .bufferTooSmall
  else (s.memWrite s.bufAddr (natBe (s.mag ra) s.bufLen)).done

end Sys2Proof.Machine
end

