-- ==== Sys2Proof/Machine/Dispatch.lean ====
section
/-! DEFINITION. One arm per command: the execution of a command the unit has accepted (spec/10_state.md R36). -/

namespace Sys2Proof.Machine

def exec (i : Instr) (s : State) : Host.Outcome State Fault Refusal :=
  match i with
  -- Representation and storage (spec/40_storage.md)
  | .init rd => Sys2Proof.Machine.execInit rd s
  | .free rd => Sys2Proof.Machine.execFree rd s
  | .grow rd => Sys2Proof.Machine.execGrow rd s
  | .sets rd => Sys2Proof.Machine.execSets rd s
  | .copy rd ra => Sys2Proof.Machine.execCopy rd ra s
  | .importBuf rd => Sys2Proof.Machine.execImport rd s
  | .exportBuf ra => Sys2Proof.Machine.execExport ra s
  -- Comparison and bit operations (spec/41_compare_bits.md)
  | .bitlen ra => Sys2Proof.Machine.execBitlen ra s
  | .size ra => Sys2Proof.Machine.execSize ra s
  | .shl rd => Sys2Proof.Machine.execShl rd s
  | .shr rd => Sys2Proof.Machine.execShr rd s
  | .cmpabs ra rb => Sys2Proof.Machine.execCmpabs ra rb s
  | .cmp ra rb => Sys2Proof.Machine.execCmp ra rb s
  | .cmps ra => Sys2Proof.Machine.execCmps ra s
  -- Arithmetic (spec/42_arithmetic.md)
  | .addabs rd ra rb => Sys2Proof.Machine.execAddabs rd ra rb s
  | .subabs rd ra rb => Sys2Proof.Machine.execSubabs rd ra rb s
  | .add rd ra rb => Sys2Proof.Machine.execAdd rd ra rb s
  | .sub rd ra rb => Sys2Proof.Machine.execSub rd ra rb s
  | .mul rd ra rb => Sys2Proof.Machine.execMul rd ra rb s
  | .muls rd ra => Sys2Proof.Machine.execMuls rd ra s
  | .div qen ren rd re ra rb => Sys2Proof.Machine.execDiv qen ren rd re ra rb s
  | .divs qen ren rd re ra => Sys2Proof.Machine.execDivs qen ren rd re ra s
  | .mod rd ra rb => Sys2Proof.Machine.execMod rd ra rb s
  | .mods ra => Sys2Proof.Machine.execMods ra s
  -- Modular exponentiation (spec/43_modexp.md)
  | .expmod mode rd re ra rb rc => Sys2Proof.Machine.execExpmod mode rd re ra rb rc s

end Sys2Proof.Machine
end

