-- ==== Sys2Proof/Machine/HostPort.lean ====
section
/-! DEFINITION. The window through which the host reaches the unit (spec/10_state.md R34 to R47), the issue of a command
(R36, spec/60_exceptions.md R192, R196), and reset (spec/70_reset_and_hazards.md R220). -/

namespace Sys2Proof.Machine

/-- The scalar registers of R34. -/
inductive ScalarReg
  | cmd | status | ctrl | ecmd | imm | cnt | baddr | blen | resn | resw | maxlimbs | geom | bufsz
  deriving DecidableEq, Repr

/-- What stands at an offset of the window (R34, R67). -/
inductive Place
  /-- The first byte of a scalar register. -/
  | scalar (r : ScalarReg)
  /-- A byte inside a scalar register but not its first. -/
  | insideWord
  /-- The byte of BMEM with this address. -/
  | bmem (addr : Nat)
  /-- Nothing the spec defines (R47). -/
  | nowhere
  deriving DecidableEq, Repr

/-- The scalar register at an offset, if one begins there (R34). -/
def ScalarReg.ofOffset : Nat → Option ScalarReg
  | 0x000 => some .cmd
  | 0x004 => some .status
  | 0x008 => some .ctrl
  | 0x00C => some .ecmd
  | 0x010 => some .imm
  | 0x014 => some .cnt
  | 0x018 => some .baddr
  | 0x01C => some .blen
  | 0x020 => some .resn
  | 0x024 => some .resw
  | 0x028 => some .maxlimbs
  | 0x02C => some .geom
  | 0x030 => some .bufsz
  | _ => none

/-- The offset of BMEM's first byte (R34). -/
abbrev bmemBase : Nat := 0x1000

/-- The address map of R34. -/
def State.placeAt (s : State) (offset : Nat) : Place :=
  if bmemBase ≤ offset then
    if offset < bmemBase + s.params.bufBytes then .bmem (offset - bmemBase) else .nowhere
  else
    match ScalarReg.ofOffset offset with
    | some r => .scalar r
    | none => if offset < 0x034 then .insideWord else .nowhere

/-- What a host read of a scalar register answers: write-only registers answer 0 (R47), GEOM is the constant of R39. -/
def State.readScalar (s : State) : ScalarReg → Word
  | .cmd => 0
  | .status => s.status.word
  | .ctrl => 0
  | .ecmd => s.ecmd
  | .imm => s.imm
  | .cnt => s.cnt
  | .baddr => s.baddr
  | .blen => s.blen
  | .resn => s.resn
  | .resw => s.resw
  | .maxlimbs => BitVec.ofNat 32 s.params.maxLimbs
  | .geom => 0x00001020
  | .bufsz => BitVec.ofNat 32 s.params.bufBytes

/-- STATUS.BUSY is 1 from the CMD write until the command has committed or faulted (R33). -/
def State.issued (s : State) : State := { s with status := { s.status with busy := true } }

/-- The host writes a word to CMD (R36): dropped while FAULT = 1 (R196); an illegal word is a command whose whole
effect is BAD_INPUT (R192); a legal one is executed. -/
def State.issue (s : State) (w : Word) : Host.Outcome State Fault Refusal :=
  if s.status.fault then .next s
  else match decode w with
    | .illegal _ => s.issued.raise w .badInput
    | .command i => exec i s.issued

/-- A host write to a scalar register (R34, R36): CMD issues, CTRL acknowledges when bit 0 is set, RW registers take the
value, writes to RO registers are ignored (R47). -/
def State.writeScalar (s : State) (v : Word) : ScalarReg → Host.Outcome State Fault Refusal
  | .cmd => s.issue v
  | .ctrl => .next (if v.getLsbD 0 then s.ack else s)
  | .imm => .next { s with imm := v }
  | .cnt => .next { s with cnt := v }
  | .baddr => .next { s with baddr := v }
  | .blen => .next { s with blen := v }
  | .status => .next s
  | .ecmd => .next s
  | .resn => .next s
  | .resw => .next s
  | .maxlimbs => .next s
  | .geom => .next s
  | .bufsz => .next s

/-- Reset (R51, R220): every piece of the unit's state at its reset value, BMEM unspecified anew; the parameters, the
host's remaining actions and what it has read are no state that reset touches (log entry 13). -/
def State.applyReset (s : State) : State :=
  { State.reset with
    params := s.params
    pending := s.pending
    replies := s.replies
    resetNo := s.resetNo + 1
    draws := s.draws }

/-- A host access when the unit is not busy. -/
def State.access (s : State) : Action → Host.Outcome State Fault Refusal
  | .write32 offset v =>
    match s.placeAt offset with
    | .scalar r => s.writeScalar v r
    | .insideWord => .refused .undefinedWidth
    | .bmem _ => .refused .undefinedWidth
    | .nowhere => .fault .noSuchOffset
  | .read32 offset =>
    match s.placeAt offset with
    | .scalar r => .next { s with replies := .word (s.readScalar r) :: s.replies }
    | .insideWord => .refused .undefinedWidth
    | .bmem _ => .refused .undefinedWidth
    | .nowhere => .fault .noSuchOffset
  | .write8 offset v =>
    match s.placeAt offset with
    | .scalar _ => .refused .undefinedWidth
    | .insideWord => .refused .undefinedWidth
    | .bmem addr => .next (s.memWrite addr [v])
    | .nowhere => .fault .noSuchOffset
  | .read8 offset =>
    match s.placeAt offset with
    | .scalar _ => .refused .undefinedWidth
    | .insideWord => .refused .undefinedWidth
    | .bmem addr => .next { s with replies := .byte (s.byteAt addr) :: s.replies }
    | .nowhere => .fault .noSuchOffset
  | .reset => .next s.applyReset

/-- An action is allowed while BUSY = 1: a read of STATUS (R225) and reset (R221). -/
def Action.allowedWhileBusy : Action → Bool
  | .read32 offset => offset == 0x004
  | .reset => true
  | _ => false

/-- One action of the host or the platform on the unit. -/
def State.perform (s : State) (a : Action) : Host.Outcome State Fault Refusal :=
  if s.status.busy && !a.allowedWhileBusy then .refused .accessWhileBusy else s.access a

/-- `fault_o`, the level output for the platform (R201). -/
def State.faultOut (s : State) : Bool := s.status.fault

/-- `busy_o`, the level output for the platform (R201). -/
def State.busyOut (s : State) : Bool := s.status.busy

/-- The bits of a table row's word above its `nbits` cleared, as the 32-bit number the host writes to CMD. -/
def tableWord (nbits w : Nat) : Word := BitVec.ofNat 32 (w % 2 ^ nbits)

end Sys2Proof.Machine
end

