-- ==== Sys2Proof/Machine/Step.lean ====
section
/-! DEFINITION. One step of the machine: the next action of the host or the platform is performed (spec/00_scope.md
R17, spec/20_memory.md R69, spec/30_encoding.md R92). The unit fetches nothing (spec/10_state.md R30). -/

namespace Sys2Proof.Machine

/-- Perform the oldest pending action. With none pending the unit stays as it is: nothing else acts on it (R17). -/
def step (s : State) : Host.Outcome State Fault Refusal :=
  match s.pending with
  | [] => .next s
  | a :: rest => State.perform { s with pending := rest } a

/-- The state in which the host's next action is the write of this command word to CMD (R36): the MPIU's only way to be
given a command (log entry 5). Nothing else is changed; in a state with FAULT = 1 the unit will drop the word (R196). -/
def State.withFetchWord (s : State) (nbits w : Nat) : State :=
  { s with pending := .write32 0x000 (tableWord nbits w) :: s.pending }

end Sys2Proof.Machine
end

