-- ==== Sys2Proof/Machine/Engine.lean ====
section
/-! DEFINITION. The engine inside the unit: how it adds, subtracts, compares, multiplies, divides and exponentiates
(spec/42_arithmetic.md R147, R150, R155; spec/41_compare_bits.md R128; spec/43_modexp.md R176 to R181). None of it is
state or observable (spec/10_state.md R48, R182), and `exec` does not call it: the commands follow their architectural
rules, and the obligations state that the engine computes the same results (log entry 14). -/

namespace Sys2Proof.Machine

/-- The first limb of a sequence, absent limbs taken as 0 (R147). -/
def headLimb (xs : List Limb) : Nat := (xs.headD 0).toNat

/-- Limb-wise addition over `n` limb positions with a carry in; a final carry becomes a new top limb (R147). -/
def addLimbsFrom : (n : Nat) → List Limb → List Limb → (carry : Nat) → List Limb
  | 0, _, _, carry => if carry = 0 then [] else [BitVec.ofNat 32 carry]
  | n + 1, xs, ys, carry =>
    let sum := headLimb xs + headLimb ys + carry
    BitVec.ofNat 32 (sum % Config.base) :: addLimbsFrom n xs.tail ys.tail (sum / Config.base)

/-- Schoolbook addition of two magnitudes (R147). -/
def addLimbs (xs ys : List Limb) : List Limb := addLimbsFrom (max xs.length ys.length) xs ys 0

/-- Limb-wise subtraction over `n` limb positions with a borrow in (R147). -/
def subLimbsFrom : (n : Nat) → List Limb → List Limb → (borrow : Nat) → List Limb
  | 0, _, _, _ => []
  | n + 1, xs, ys, borrow =>
    let x := headLimb xs
    let y := headLimb ys + borrow
    if y ≤ x then BitVec.ofNat 32 (x - y) :: subLimbsFrom n xs.tail ys.tail 0
    else BitVec.ofNat 32 (x + Config.base - y) :: subLimbsFrom n xs.tail ys.tail 1

/-- Subtraction of an ordered pair of magnitudes, the larger first (R147). -/
def subLimbs (xs ys : List Limb) : List Limb := subLimbsFrom (max xs.length ys.length) xs ys 0

/-- The sign of a value, `+1` for zero (R10). -/
def signOf (v : Int) : Int := if v < 0 then -1 else 1

/-- The dispatch of signed addition and subtraction over magnitudes: `signed_sum(a, s, b)` with `s` the factor `+1` or
`-1` (R143). -/
def signedSum (a s b : Int) : Int :=
  let b' := s * b
  if signOf a = signOf b' then signOf a * ((a.natAbs : Int) + b'.natAbs)
  else if b'.natAbs ≤ a.natAbs then signOf a * ((a.natAbs : Int) - b'.natAbs)
  else signOf b' * ((b'.natAbs : Int) - a.natAbs)

/-- The significant limbs, most significant first (R128). -/
def topFirst (xs : List Limb) : List Limb := xs.reverse.dropWhile (· == 0)

/-- The first differing limb from the top decides (R128); for sequences of equal length. -/
def compareTopFirst : List Limb → List Limb → Int
  | x :: xs, y :: ys => if x = y then compareTopFirst xs ys else if x.toNat < y.toNat then -1 else 1
  | _, _ => 0

/-- The three-way comparison of magnitudes, most-significant-limb-first (R128). -/
def compareLimbs (xs ys : List Limb) : Int :=
  let x := topFirst xs
  let y := topFirst ys
  if x.length < y.length then -1
  else if y.length < x.length then 1
  else compareTopFirst x y

/-- One row of the schoolbook product: a magnitude times one limb, with a carry in (R150). -/
def mulByLimb : List Limb → (y carry : Nat) → List Limb
  | [], _, carry => [BitVec.ofNat 32 carry]
  | x :: xs, y, carry =>
    let t := x.toNat * y + carry
    BitVec.ofNat 32 (t % Config.base) :: mulByLimb xs y (t / Config.base)

/-- Schoolbook multiplication, accumulating the partial products (R150). -/
def mulLimbs : List Limb → List Limb → List Limb
  | [], _ => []
  | x :: xs, ys => addLimbs (mulByLimb ys x.toNat 0) (0 :: mulLimbs xs ys)

/-- Limb `j` of a magnitude. -/
def limbAt (x j : Nat) : Nat := x / Config.base ^ j % Config.base

/-- Limb `i - k`; a limb with a negative index is 0 (R155). -/
def limbBelow (x i k : Nat) : Nat := if k ≤ i then limbAt x (i - k) else 0

/-- Repeat a correction while a test asks for it, at most `fuel` times. -/
def correct (fuel : Nat) (again : Nat → Bool) (q : Nat) : Nat :=
  match fuel with
  | 0 => q
  | fuel + 1 => if again q then correct fuel again (q - 1) else q

/-- The estimate of one quotient limb at position `i`, from the top limbs, corrected at most twice (R155). -/
def estimateLimb (x y t i : Nat) : Nat :=
  let yt := limbAt y t
  let first := if limbAt x i = yt then Config.base - 1 else (limbAt x i * Config.base + limbBelow x i 1) / yt
  correct 2 (fun q => decide (limbAt x i * Config.base ^ 2 + limbBelow x i 1 * Config.base + limbBelow x i 2 <
    q * (yt * Config.base + limbBelow y t 1))) first

/-- The loop of R155 over the quotient limbs: `k` positions remain, the current one being `t + k`. Add back at most once
where the estimate was still one too large. -/
def divideLoop (y t : Nat) : (k x q : Nat) → Nat × Nat
  | 0, x, q => (q, x)
  | k + 1, x, q =>
    let qh := estimateLimb x y t (t + (k + 1))
    let unit := Config.base ^ k
    if qh * y * unit ≤ x then divideLoop y t k (x - qh * y * unit) (q + qh * unit)
    else divideLoop y t k (x + y * unit - qh * y * unit) (q + (qh - 1) * unit)

/-- Long division of magnitudes for `x >= y > 0`: normalise, estimate, correct (R155). It answers quotient and remainder.
The first subtraction loop runs at most once, because the normalised divisor has its top bit set. -/
def divideLimbs (x y : Nat) : Nat × Nat :=
  let t := limbCount y - 1
  let sh := Config.limbBits - bitlen (limbAt y t)
  let x1 := x * 2 ^ sh
  let y1 := y * 2 ^ sh
  let n := limbCount x1 - 1
  let lead := y1 * Config.base ^ (n - t)
  let first := if lead ≤ x1 then (Config.base ^ (n - t), x1 - lead) else (0, x1)
  let r := divideLoop y1 t (n - t) first.2 first.1
  (r.1, r.2 / 2 ^ sh)

/-- The word `mm` with `N * mm ≡ -1 (mod B)`, for odd `N` (R176). The inverse of `N` modulo `B = 2^32` is its power
`2^31 - 1`, since an odd number's power `2^31` is 1 modulo `2^32`. -/
def negInverse (n : Nat) : Nat := (Config.base - powMod n (2 ^ 31 - 1) Config.base) % Config.base

/-- The loop of the Montgomery product over the limbs of `u` from limb `i` upward, `k` of them left (R176). -/
def montLoop (n mm u v : Nat) : (k i t : Nat) → Nat
  | 0, _, t => t
  | k + 1, i, t =>
    let t1 := t + limbAt u i * v
    let q := t1 % Config.base * mm % Config.base
    montLoop n mm u v k (i + 1) ((t1 + q * n) / Config.base)

/-- The Montgomery product `fmod(u * v * R^(-1), N)` with `R = B^limbs(N)` (R176). -/
def montMul (n u v : Nat) : Nat :=
  let t := montLoop n (negInverse n) u v (limbCount n) 0 0
  if n ≤ t then t - n else t

/-- The table of odd powers in Montgomery form: `count` entries from `g` on, each the one before times `g2` (R177). -/
def oddPowers (n g2 : Nat) : (count g : Nat) → List Nat
  | 0, _ => []
  | count + 1, g => g :: oddPowers n g2 count (montMul n g g2)

/-- `acc` squared a number of times (R178). -/
def squareTimes (n : Nat) : (times acc : Nat) → Nat
  | 0, acc => acc
  | times + 1, acc => squareTimes n times (montMul n acc acc)

/-- The least `l` from a start upward whose exponent bit is 1, looking at most `fuel` places (R178). -/
def lowestOne (e : Nat) : (fuel l : Nat) → Nat
  | 0, l => l
  | fuel + 1, l => if e.testBit l then l else lowestOne e fuel (l + 1)

/-- The scan of the exponent's bits from the top (R178, conflict C3: square first, then multiply). `bits` is the number
of bits not yet consumed, so the current bit is `bits - 1`; `k` is the window width. -/
def scan (n k e : Nat) (table : List Nat) : (fuel bits acc : Nat) → Nat
  | 0, _, acc => acc
  | fuel + 1, bits, acc =>
    if bits = 0 then acc
    else if e.testBit (bits - 1) then
      let l := lowestOne e k (bits - k)
      let u := e / 2 ^ l % 2 ^ (bits - l)
      scan n k e table fuel l (montMul n (squareTimes n (bits - l) acc) (table.getD (u / 2) 0))
    else scan n k e table fuel (bits - 1) (montMul n acc acc)

/-- The sliding-window exponentiation with Montgomery products, for window width `k` and constant `rr` (R177 to
R179). -/
def engineExpMod (k : Nat) (a : Int) (e n rr : Nat) : Nat :=
  let g1 := montMul n (fmod a n).toNat rr
  let acc := montMul n rr 1
  let table := oddPowers n (montMul n g1 g1) (2 ^ (k - 1)) g1
  montMul n (scan n k e table (bitlen e) (bitlen e) acc) 1

/-- The possible choice of window widths that R180 offers: 6 above 671 bits of exponent, 5 above 239, 4 above 79, 3 above
23, else 1. Any function R7 allows gives the same results. -/
def sampleWindow (ebits : Nat) : Nat :=
  if 671 < ebits then 6 else if 239 < ebits then 5 else if 79 < ebits then 4 else if 23 < ebits then 3 else 1

end Sys2Proof.Machine
end

