-- ==== Sys2Proof/Machine/Program.lean ====
section
/-! DEFINITION. How programs are written: the assembler's text for a command (spec/30_encoding.md R90), the host lines
(R91), the pseudo-instructions (R93), and a program as the host's list of actions (R92). -/

namespace Sys2Proof.Machine

/-- The offset of a scalar register (R34). -/
def ScalarReg.offset : ScalarReg → Nat
  | .cmd => 0x000
  | .status => 0x004
  | .ctrl => 0x008
  | .ecmd => 0x00C
  | .imm => 0x010
  | .cnt => 0x014
  | .baddr => 0x018
  | .blen => 0x01C
  | .resn => 0x020
  | .resw => 0x024
  | .maxlimbs => 0x028
  | .geom => 0x02C
  | .bufsz => 0x030

/-- The command the assembler means by a command: zero in every register field a flag makes unused (R90). -/
def canonical : Instr → Instr
  | .div qen ren rd re ra rb => .div qen ren (if qen then rd else 0) (if ren then re else 0) ra rb
  | .divs qen ren rd re ra => .divs qen ren (if qen then rd else 0) (if ren then re else 0) ra
  | .expmod .absent rd _ ra rb rc => .expmod .absent rd 0 ra rb rc
  | i => i

/-- `M0` .. `M15`. -/
def regText (r : RegNo) : String := "M" ++ toString r.val

/-- An output operand of DIV and DIVS: the register, or `-` for one that is not wanted. -/
def outText (enabled : Bool) (r : RegNo) : String := if enabled then regText r else "-"

/-- The `RR` operand of EXPMOD. -/
def rrText (mode : RRMode) (re : RegNo) : String :=
  match mode with
  | .absent => ""
  | .supplied => ", rr=" ++ regText re
  | .stored => ", rr!=" ++ regText re
  | .reserved => ""

/-- The assembler text of a command (R90). -/
def asmText : Instr → String
  | .init rd => "INIT " ++ regText rd
  | .free rd => "FREE " ++ regText rd
  | .grow rd => "GROW " ++ regText rd
  | .sets rd => "SETS " ++ regText rd
  | .copy rd ra => "COPY " ++ regText rd ++ ", " ++ regText ra
  | .importBuf rd => "IMPORT " ++ regText rd
  | .exportBuf ra => "EXPORT " ++ regText ra
  | .bitlen ra => "BITLEN " ++ regText ra
  | .size ra => "SIZE " ++ regText ra
  | .shl rd => "SHL " ++ regText rd
  | .shr rd => "SHR " ++ regText rd
  | .cmpabs ra rb => "CMPABS " ++ regText ra ++ ", " ++ regText rb
  | .cmp ra rb => "CMP " ++ regText ra ++ ", " ++ regText rb
  | .cmps ra => "CMPS " ++ regText ra
  | .addabs rd ra rb => "ADDABS " ++ regText rd ++ ", " ++ regText ra ++ ", " ++ regText rb
  | .subabs rd ra rb => "SUBABS " ++ regText rd ++ ", " ++ regText ra ++ ", " ++ regText rb
  | .add rd ra rb => "ADD " ++ regText rd ++ ", " ++ regText ra ++ ", " ++ regText rb
  | .sub rd ra rb => "SUB " ++ regText rd ++ ", " ++ regText ra ++ ", " ++ regText rb
  | .mul rd ra rb => "MUL " ++ regText rd ++ ", " ++ regText ra ++ ", " ++ regText rb
  | .muls rd ra => "MULS " ++ regText rd ++ ", " ++ regText ra
  | .div qen ren rd re ra rb =>
    "DIV " ++ outText qen rd ++ ", " ++ outText ren re ++ ", " ++ regText ra ++ ", " ++ regText rb
  | .divs qen ren rd re ra => "DIVS " ++ outText qen rd ++ ", " ++ outText ren re ++ ", " ++ regText ra
  | .mod rd ra rb => "MOD " ++ regText rd ++ ", " ++ regText ra ++ ", " ++ regText rb
  | .mods ra => "MODS " ++ regText ra
  | .expmod mode rd re ra rb rc =>
    "EXPMOD " ++ regText rd ++ ", " ++ regText ra ++ ", " ++ regText rb ++ ", " ++ regText rc ++ rrText mode re

/-- A line of a program: a command, a host action (R91) or a pseudo-instruction (R93). -/
inductive Line
  | cmd (i : Instr)
  | wr (r : ScalarReg) (v : Word)
  | rd (r : ScalarReg)
  | wrb (addr : Nat) (bytes : List Byte)
  | rdb (addr n : Nat)
  | ack
  | seti (d : RegNo) (z : Int)
  | mov (d a : RegNo)
  | neg (d a : RegNo)
  | growi (d : RegNo) (n : Nat)
  | shli (d : RegNo) (n : Nat)
  | shri (d : RegNo) (n : Nat)
  | cmpi (a : RegNo) (z : Int)
  | muli (d a : RegNo) (b : Int)
  | divi (q r a : RegNo) (b : Int)
  | modi (a : RegNo) (b : Int)
  | importb (d : RegNo) (addr n : Nat)
  | exportb (a : RegNo) (addr n : Nat)
  deriving DecidableEq, Repr

/-- The host's 32-bit write of a scalar register (R91). -/
def writeReg (r : ScalarReg) (v : Word) : Action := .write32 r.offset v

/-- The issue of a command: its word written to CMD (R91), every unnamed field zero (R90). -/
def issueOf (i : Instr) : Action := writeReg .cmd (encode (canonical i))

/-- The byte writes of `WRB` (R91). -/
def byteWrites : Nat → List Byte → List Action
  | _, [] => []
  | addr, b :: bs => .write8 (bmemBase + addr) b :: byteWrites (addr + 1) bs

/-- The host actions a line stands for (R91, R93). A signed value is written as its two's complement. -/
def Line.actions : Line → List Action
  | .cmd i => [issueOf i]
  | .wr r v => [writeReg r v]
  | .rd r => [.read32 r.offset]
  | .wrb addr bytes => byteWrites addr bytes
  | .rdb addr n => (List.range n).map fun k => .read8 (bmemBase + (addr + k))
  | .ack => [writeReg .ctrl 1]
  | .seti d z => [writeReg .imm (BitVec.ofInt 32 z), issueOf (.sets d)]
  | .mov d a => [issueOf (.copy d a)]
  | .neg d a => [writeReg .imm (BitVec.ofInt 32 (-1)), issueOf (.muls d a)]
  | .growi d n => [writeReg .cnt (BitVec.ofNat 32 n), issueOf (.grow d)]
  | .shli d n => [writeReg .cnt (BitVec.ofNat 32 n), issueOf (.shl d)]
  | .shri d n => [writeReg .cnt (BitVec.ofNat 32 n), issueOf (.shr d)]
  | .cmpi a z => [writeReg .imm (BitVec.ofInt 32 z), issueOf (.cmps a)]
  | .muli d a b => [writeReg .imm (BitVec.ofInt 32 b), issueOf (.muls d a)]
  | .divi q r a b => [writeReg .imm (BitVec.ofInt 32 b), issueOf (.divs true true q r a)]
  | .modi a b => [writeReg .imm (BitVec.ofInt 32 b), issueOf (.mods a)]
  | .importb d addr n =>
    [writeReg .baddr (BitVec.ofNat 32 addr), writeReg .blen (BitVec.ofNat 32 n), issueOf (.importBuf d)]
  | .exportb a addr n =>
    [writeReg .baddr (BitVec.ofNat 32 addr), writeReg .blen (BitVec.ofNat 32 n), issueOf (.exportBuf a)]

/-- A program as the host's list of actions (R92). -/
def programActions (lines : List Line) : List Action := lines.flatMap Line.actions

/-- The state in which the host is about to perform a program, after what it already has to do. -/
def State.withProgram (s : State) (lines : List Line) : State :=
  { s with pending := s.pending ++ programActions lines }

end Sys2Proof.Machine
end

