-- ==== Sys2Proof/Safety.lean ====
section
/-! DEFINITION. The terms in which claims speak: the invariant of the state (spec/10_state.md R23), the frame of a command
(spec/60_exceptions.md R193, spec/10_state.md R27), a fault's record (R195), the conditions of R191, the moves the spec
gives the host (R47), and command words as numbers (spec/30_encoding.md R80). -/

namespace Sys2Proof.Machine

/-- The invariants of one integer register (R23): (I-a) the capacity is at most the ceiling, (I-d) a zero magnitude has
sign `+1`. (I-b) holds by the definition of `limbs`, (I-c) because `m` is a vector of values. -/
abbrev MReg.Wf (p : Config.Params) (r : MReg) : Prop := r.cap ≤ p.maxLimbs ∧ (r.mag = 0 → r.sign = .plus)

/-- STATUS between steps: BUSY 0 (R33), CMP not 0b10 (R32), ERR one of the codes the unit produces (R190, U6), and a
standing fault has a code other than OK. -/
abbrev Status.Legal (st : Status) : Prop :=
  st.busy = false ∧ st.cmp ≠ 2 ∧ st.err.toNat < 8 ∧ st.err ≠ 3 ∧ (st.fault = true → st.err ≠ 0)

/-- The invariant of the machine's state. -/
abbrev State.Inv (s : State) : Prop :=
  s.params.Valid ∧ (∀ i : RegNo, (s.reg i).Wf s.params) ∧ Memory.wf s.bmem ∧
    (∀ c ∈ s.bmem, c.1 < s.params.bufBytes) ∧ s.status.Legal

/-- What a command may write besides ERR and BUSY: integer registers, BLEN, RESN, RESW, CMP, bytes of BMEM from an
address upward, and the model's own counter of free integers. -/
structure Touch where
  regs : List RegNo := []
  blen : Bool := false
  resn : Bool := false
  resw : Bool := false
  cmp : Bool := false
  draws : Bool := false
  start : Nat := 0
  length : Nat := 0

/-- Everything outside `w` is in `t` what it was in `s` (R193). FAULT and ECMD are outside every `w`. -/
structure State.Keeps (s : State) (w : Touch) (t : State) : Prop where
  regs : ∀ i, i ∉ w.regs → t.reg i = s.reg i
  bytes : ∀ a, ¬ (w.start ≤ a ∧ a < w.start + w.length) → t.byteAt a = s.byteAt a
  memory : w.length = 0 → t.bmem = s.bmem
  imm : t.imm = s.imm
  cnt : t.cnt = s.cnt
  baddr : t.baddr = s.baddr
  blen : w.blen = false → t.blen = s.blen
  resn : w.resn = false → t.resn = s.resn
  resw : w.resw = false → t.resw = s.resw
  ecmd : t.ecmd = s.ecmd
  fault : t.status.fault = s.status.fault
  cmp : w.cmp = false → t.status.cmp = s.status.cmp
  params : t.params = s.params
  pending : t.pending = s.pending
  replies : t.replies = s.replies
  resetNo : t.resetNo = s.resetNo
  draws : w.draws = false → t.draws = s.draws

/-- `t` is the end of a successful command from `s` that may write `w` (R193, R194). -/
structure State.Completes (s : State) (w : Touch) (t : State) : Prop where
  err : t.status.err = 0
  busy : t.status.busy = false
  keeps : s.Keeps w t

/-- Register `i` of `t` holds what the commit primitive leaves there for `v` (R24): the value, the sign, and the
capacity grown from that in `s` and not shrunk. -/
structure State.Committed (s : State) (i : RegNo) (v : Int) (t : State) : Prop where
  val : t.val i = v
  sign : (t.reg i).sign = if v < 0 then .minus else .plus
  cap : (t.reg i).cap = max (s.reg i).cap (limbCount v.natAbs)

/-- The state after fault entry with this word and code (R195): the state of issue plus the fault record. -/
def State.faultRecord (s : State) (c : Word) (e : ErrCode) : State :=
  { s with
    status := { s.status with err := e.code, fault := true, busy := false }
    ecmd := c }

/-- A command word from its fields as a number, bit positions as R80 lists them: op 31:24, rd 23:20, re 19:16, ra 15:12,
rb 11:8, rc 7:4, fl 3:0. -/
def commandWord (op : Nat) (rd re ra rb rc : RegNo) (fl : Nat) : Word :=
  BitVec.ofNat 32 (op * 2 ^ 24 + rd.val * 2 ^ 20 + re.val * 2 ^ 16 + ra.val * 2 ^ 12 + rb.val * 2 ^ 8 + rc.val * 2 ^ 4 + fl)

/-- The columns *op*, *mask* and *match* of R83, row by row. -/
def tableR83 : List (BitVec 8 × Word × Word) :=
  [(0x01, 0xFF0FFFFF, 0x01000000), (0x02, 0xFF0FFFFF, 0x02000000), (0x03, 0xFF0FFFFF, 0x03000000),
   (0x04, 0xFF0FFFFF, 0x04000000), (0x05, 0xFF0F0FFF, 0x05000000), (0x06, 0xFF0FFFFF, 0x06000000),
   (0x07, 0xFFFF0FFF, 0x07000000), (0x10, 0xFFFF0FFF, 0x10000000), (0x11, 0xFFFF0FFF, 0x11000000),
   (0x12, 0xFF0FFFFF, 0x12000000), (0x13, 0xFF0FFFFF, 0x13000000), (0x14, 0xFFFF00FF, 0x14000000),
   (0x15, 0xFFFF00FF, 0x15000000), (0x16, 0xFFFF0FFF, 0x16000000)] ++
  [(0x20, 0xFF0F00FF, 0x20000000), (0x21, 0xFF0F00FF, 0x21000000), (0x22, 0xFF0F00FF, 0x22000000),
   (0x23, 0xFF0F00FF, 0x23000000), (0x24, 0xFF0F00FF, 0x24000000), (0x25, 0xFF0F0FFF, 0x25000000),
   (0x26, 0xFF0000FC, 0x26000000), (0x27, 0xFF000FFC, 0x27000000), (0x28, 0xFF0F00FF, 0x28000000),
   (0x29, 0xFFFF0FFF, 0x29000000), (0x30, 0xFF00000C, 0x30000000)]

/-- A word is illegal in the sense of R87: (a) no row of R83 has its opcode, or (b) it fails its row's mask test, or (c) it
is an EXPMOD with `fl[1:0] = 3`. -/
def IllegalWord (w : Word) : Prop :=
  (∀ row ∈ tableR83, row.1 ≠ w.extractLsb' 24 8) ∨
  (∃ row ∈ tableR83, row.1 = w.extractLsb' 24 8 ∧ w &&& row.2.1 ≠ row.2.2) ∨
  (w.extractLsb' 24 8 = 0x30 ∧ w.extractLsb' 0 2 = 3)

/-- The registers, results and bytes a command's rule lets it write (R27, R193). -/
def touched (s : State) : Instr → Touch
  | .init rd => { regs := [rd] }
  | .free rd => { regs := [rd] }
  | .grow rd => { regs := [rd] }
  | .sets rd => { regs := [rd] }
  | .copy rd _ => { regs := [rd] }
  | .importBuf rd => { regs := [rd] }
  | .exportBuf _ => { blen := s.blen == 0, start := s.baddr.toNat, length := s.blen.toNat }
  | .bitlen _ => { resn := true }
  | .size _ => { resn := true }
  | .shl rd => { regs := [rd] }
  | .shr rd => { regs := [rd] }
  | .cmpabs _ _ => { cmp := true }
  | .cmp _ _ => { cmp := true }
  | .cmps _ => { cmp := true }
  | .addabs rd _ _ => { regs := [rd] }
  | .subabs rd _ _ => { regs := [rd] }
  | .add rd _ _ => { regs := [rd] }
  | .sub rd _ _ => { regs := [rd] }
  | .mul rd _ _ => { regs := [rd] }
  | .muls rd _ => { regs := [rd] }
  | .div qen ren rd re _ _ => { regs := (if qen then [rd] else []) ++ (if ren then [re] else []) }
  | .divs qen ren rd re _ => { regs := (if qen then [rd] else []) ++ (if ren then [re] else []) }
  | .mod rd _ _ => { regs := [rd] }
  | .mods _ => { resw := true }
  | .expmod mode rd re _ _ _ =>
    { regs := rd :: (if mode = .stored then [re] else []), draws := decide (mode = .supplied) }

/-- The condition under which R191 lets a command raise a code. -/
def CauseR191 (s : State) : Instr → ErrCode → Prop
  | .grow _, .alloc => s.params.maxLimbs < s.cnt.toNat
  | .importBuf _, .badInput => s.params.bufBytes < s.baddr.toNat + s.blen.toNat
  | .importBuf _, .alloc => s.params.maxLimbs < limbCount (beNat (s.memRead s.baddr.toNat s.blen.toNat))
  | .exportBuf _, .badInput => s.blen ≠ 0 ∧ s.params.bufBytes < s.baddr.toNat + s.blen.toNat
  | .exportBuf ra, .bufferTooSmall => 0 < s.blen.toNat ∧ s.blen.toNat < byteCount (s.mag ra)
  | .shl rd, .alloc => s.params.maxLimbs < limbCount (s.mag rd * 2 ^ s.cnt.toNat)
  | .addabs _ ra rb, .alloc => s.params.maxLimbs < limbCount (s.mag ra + s.mag rb)
  | .add _ ra rb, .alloc => s.params.maxLimbs < limbCount (s.val ra + s.val rb).natAbs
  | .sub _ ra rb, .alloc => s.params.maxLimbs < limbCount (s.val ra - s.val rb).natAbs
  | .mul _ ra rb, .alloc => s.params.maxLimbs < limbCount (s.val ra * s.val rb).natAbs
  | .muls _ ra, .alloc => s.params.maxLimbs < limbCount (s.val ra * s.imm.toInt).natAbs
  | .subabs _ ra rb, .negativeValue => s.mag ra < s.mag rb
  | .div qen ren rd re _ _, .badInput => qen = true ∧ ren = true ∧ rd = re
  | .div _ _ _ _ _ rb, .divByZero => s.val rb = 0
  | .divs qen ren rd re _, .badInput => qen = true ∧ ren = true ∧ rd = re
  | .divs _ _ _ _ _, .divByZero => s.imm.toInt = 0
  | .mod _ _ rb, .divByZero => s.val rb = 0
  | .mod _ _ rb, .negativeValue => s.val rb < 0
  | .mods _, .divByZero => s.imm.toInt = 0
  | .mods _, .negativeValue => s.imm.toInt < 0
  | .expmod mode rd re _ _ _, .badInput => mode = .stored ∧ re = rd
  | .expmod _ _ _ _ rb rc, .notAcceptable => s.val rc ≤ 0 ∨ s.val rc % 2 = 0 ∨ s.val rb < 0
  | .expmod _ _ _ _ _ rc, .alloc => s.params.maxLimbs < 2 * (limbCount (s.val rc).natAbs + 1)
  | _, _ => False

/-- The rank of a code in the order of checks of R199: structure before value preconditions before the ceiling. -/
def ErrCode.rank : ErrCode → Nat
  | .ok => 0
  | .badInput => 0
  | .invalidChar => 0
  | .bufferTooSmall => 1
  | .negativeValue => 1
  | .divByZero => 1
  | .notAcceptable => 1
  | .alloc => 2

/-- A move the spec gives the host or the platform (R47): an aligned 32-bit access to a scalar register of R34, a byte
access to a byte of BMEM, or reset. -/
def Action.Defined (p : Config.Params) : Action → Prop
  | .write32 offset _ => offset % 4 = 0 ∧ offset ≤ 0x030
  | .read32 offset => offset % 4 = 0 ∧ offset ≤ 0x030
  | .write8 offset _ => 0x1000 ≤ offset ∧ offset < 0x1000 + p.bufBytes
  | .read8 offset => 0x1000 ≤ offset ∧ offset < 0x1000 + p.bufBytes
  | .reset => True

/-- A run of a program is over (R232): the host has performed its last action and BUSY is 0. -/
abbrev State.RunOver (s : State) : Prop := s.pending = [] ∧ s.status.busy = false

/-- A step is safe when it answers a next state: neither a fault nor a refusal. -/
def State.SafeStep (s : State) : Prop := ∃ t, step s = .next t

end Sys2Proof.Machine
end

