-- ==== Sys2Proof/Certificates/Slice0/Obligations.lean ====
section
/-! DEFINITION. What the provers are asked to prove: the numbered rules of spec/ and what follows from them, about
every state, command and operand. `commandWord` is R80's layout as a number; `State.Completes`, `State.Committed`,
`State.faultRecord` and `touched` are Safety's. -/

open Sys2Proof Sys2Proof.Machine

/-! ### Encoding -/

/-- Decoding the word of a command gives the command back, every operand at every value; the one ill-formed term, EXPMOD
with the reserved mode, has a word the decoder rejects by name. -/
def Obligations.DecodeInvertsEncode : Prop :=
  ∀ i : Instr, (i.WellFormed → decode (encode i) = .command i) ∧
    (¬ i.WellFormed → decode (encode i) = .illegal .reservedRRMode)

/-- A legal word is the word of the command it decodes to, and that command is well-formed: no two words mean one command
and no bit is dropped. -/
def Obligations.EncodeInvertsDecode : Prop :=
  ∀ (w : Word) (i : Instr), decode w = .command i → encode i = w ∧ i.WellFormed

/-- R192, with R87's three kinds of illegal word read off R83's table: exactly these words are rejected, and one written to
CMD while FAULT = 0 is a command whose whole effect is the BAD_INPUT fault record. -/
def Obligations.IllegalWordsRaiseBadInput : Prop :=
  ∀ w : Word, ((∃ why, decode w = .illegal why) ↔ IllegalWord w) ∧
    ∀ s : State, IllegalWord w → s.status.fault = false → s.issue w = .next (s.faultRecord w .badInput)

/-- Words that the spec writes out, one or more of each family, decode to the commands it names. -/
def Obligations.WordsOfTheSpecDecode : Prop :=
  decode 0x01300000 = .command (.init 3) ∧ decode 0x05401000 = .command (.copy 4 1) ∧
  decode 0x07001000 = .command (.exportBuf 1) ∧ decode 0x10005000 = .command (.bitlen 5) ∧
  decode 0x12600000 = .command (.shl 6) ∧ decode 0x15001200 = .command (.cmp 1 2) ∧
  decode 0x22301200 = .command (.add 3 1 2) ∧ decode 0x26341203 = .command (.div true true 3 4 1 2) ∧
  decode 0x27041002 = .command (.divs false true 0 4 1) ∧ decode 0x29001000 = .command (.mods 1) ∧
  decode 0x30041232 = .command (.expmod .stored 0 4 1 2 3) ∧
  decode 0x30501230 = .command (.expmod .absent 5 0 1 2 3) ∧ decode 0x00000000 = .illegal .undefinedOpcode ∧
  decode 0x05411000 = .illegal .fieldNotZero ∧ decode 0x30041233 = .illegal .reservedRRMode

/-- Two commands that differ only in a register field a flag makes unused (R85, R86) have the same effect wherever they
succeed: a command may be replaced by the one the assembler writes (R90). -/
def Obligations.UnusedFieldsAreIgnored : Prop :=
  ∀ (i : Instr) (s t : State), exec i s = .next t → t.status.err = 0 → exec (canonical i) s = .next t

/-! ### The step and the window -/

/-- When the host's next action writes a word to CMD, the unit is idle and unfaulted, and the word decodes to a command,
the step is the execution of that command with BUSY set and the action consumed; a word placed by `withFetchWord` is run
by the very next step. -/
def Obligations.StepRunsTheDecodedCommand : Prop :=
  ∀ (s : State) (w : Word) (i : Instr), s.status.busy = false → s.status.fault = false → decode w = .command i →
    (∀ rest, s.pending = .write32 0x000 w :: rest →
      step s = exec i { s with pending := rest, status := { s.status with busy := true } }) ∧
    step (s.withFetchWord 32 w.toNat) = exec i { s with status := { s.status with busy := true } }

/-- A step with an action pending is that action performed on the state without it, whatever it answers, and a next state has
exactly the later actions left to perform (R69: one total order); with none pending the unit stays as it is. That the actions
stand in a list of State and that the idle step answers the same state is the model's choice (log entry 5). -/
def Obligations.EachStepPerformsOneAction : Prop :=
  ∀ s : State, (s.pending = [] → step s = .next s) ∧
    ∀ (a : Action) (rest : List Action), s.pending = a :: rest →
      step s = State.perform { s with pending := rest } a ∧ ∀ t, step s = .next t → t.pending = rest

/-- R196: while FAULT = 1 a word written to CMD is dropped, no state changes (the host's action is used up), and the host can
still read and write every scalar register it may and every byte of BMEM. -/
def Obligations.CommandsAreDroppedWhileFaulted : Prop :=
  ∀ (s : State) (rest : List Action), s.status.busy = false → s.status.fault = true →
    (∀ w, s.pending = .write32 0x000 w :: rest → step s = .next { s with pending := rest }) ∧
    (∀ r, s.pending = .read32 (ScalarReg.offset r) :: rest →
      step s = .next { s with pending := rest, replies := .word (s.readScalar r) :: s.replies }) ∧
    (∀ r ∈ [ScalarReg.imm, .cnt, .baddr, .blen], ∀ v, s.pending = .write32 (ScalarReg.offset r) v :: rest →
      ∃ t, step s = .next t ∧ t.readScalar r = v ∧ t.status = s.status ∧ t.ecmd = s.ecmd) ∧
    (∀ a v, a < s.params.bufBytes → s.pending = .write8 (0x1000 + a) v :: rest →
      ∃ t, step s = .next t ∧ t.byteAt a = v ∧ t.status = s.status ∧ t.ecmd = s.ecmd) ∧
    (∀ a, a < s.params.bufBytes → s.pending = .read8 (0x1000 + a) :: rest →
      step s = .next { s with pending := rest, replies := .byte (s.byteAt a) :: s.replies })

/-- R197: a word with bit 0 set written to CTRL clears FAULT and changes nothing else, whatever its other bits; one with bit 0
clear does nothing; after a fault from an unfaulted state it leaves the state before the command plus ERR and ECMD. -/
def Obligations.AcknowledgeClearsOnlyFault : Prop :=
  (∀ (s : State) (v : Word) (rest : List Action), s.status.busy = false → s.pending = .write32 0x008 v :: rest →
    (v.getLsbD 0 = true → step s = .next { s with pending := rest, status := { s.status with fault := false } }) ∧
    (v.getLsbD 0 = false → step s = .next { s with pending := rest })) ∧
  ∀ (s : State) (c : Word) (e : ErrCode), s.status.fault = false →
    (s.faultRecord c e).ack =
      { s with status := { s.status with err := e.code, busy := false }, ecmd := c }

/-- R33 (who clears FAULT): a step that ends with FAULT = 0 from a state with FAULT = 1 performed the acknowledge or reset. -/
def Obligations.FaultIsClearedOnlyByAckOrReset : Prop :=
  ∀ s t : State, step s = .next t → s.status.fault = true → t.status.fault = false →
    ∃ rest, s.pending = .reset :: rest ∨ ∃ v : Word, v.getLsbD 0 = true ∧ s.pending = .write32 0x008 v :: rest

/-- The map of R34 for reads: what each offset answers, write-only registers 0, the constants of R38 to R40; a read changes
nothing but what the host has read (R66). -/
def Obligations.ScalarReadsAnswerTheMap : Prop :=
  ∀ (s : State) (rest : List Action), s.status.busy = false →
    ∀ p ∈ [(0x000, 0), (0x004, s.status.word), (0x008, 0), (0x00C, s.ecmd), (0x010, s.imm), (0x014, s.cnt),
        (0x018, s.baddr), (0x01C, s.blen), (0x020, s.resn), (0x024, s.resw),
        (0x028, BitVec.ofNat 32 s.params.maxLimbs), (0x02C, 0x00001020#32), (0x030, BitVec.ofNat 32 s.params.bufBytes)],
      s.pending = .read32 p.1 :: rest →
        step s = .next { s with pending := rest, replies := .word p.2 :: s.replies }

/-- The access rights of R34 for writes other than to CMD and CTRL: RW registers take the value and nothing else changes, RO
registers ignore it (R47). -/
def Obligations.ScalarWritesFollowAccessRights : Prop :=
  ∀ (s : State) (v : Word) (rest : List Action), s.status.busy = false →
    (s.pending = .write32 0x010 v :: rest → step s = .next { s with pending := rest, imm := v }) ∧
    (s.pending = .write32 0x014 v :: rest → step s = .next { s with pending := rest, cnt := v }) ∧
    (s.pending = .write32 0x018 v :: rest → step s = .next { s with pending := rest, baddr := v }) ∧
    (s.pending = .write32 0x01C v :: rest → step s = .next { s with pending := rest, blen := v }) ∧
    ∀ o ∈ [0x004, 0x00C, 0x020, 0x024, 0x028, 0x02C, 0x030], s.pending = .write32 o v :: rest →
      step s = .next { s with pending := rest }

/-- R35 and R201: where the fields of STATUS stand in the word the host reads, and the two level outputs that show BUSY and
FAULT to the platform. -/
def Obligations.StatusWordAndOutputsShowTheFields : Prop :=
  ∀ s : State, s.readScalar .status = s.status.word ∧ s.status.word.getLsbD 0 = s.status.busy ∧
    s.status.word.getLsbD 1 = s.status.fault ∧ s.status.word.extractLsb' 2 2 = s.status.cmp ∧
    s.status.word.extractLsb' 4 4 = s.status.err ∧ s.status.word.extractLsb' 8 24 = 0 ∧
    s.faultOut = s.status.fault ∧ s.busyOut = s.status.busy

/-- The host's byte accesses to BMEM (R34, R49): a write changes that byte and nothing else, a read answers the byte the
address holds. -/
def Obligations.HostBytesReadBack : Prop :=
  ∀ (s : State) (a : Nat) (v : Byte), s.status.busy = false → a < s.params.bufBytes →
    (∃ t, s.perform (.write8 (0x1000 + a) v) = .next t ∧ t.byteAt a = v ∧ (∀ x, x ≠ a → t.byteAt x = s.byteAt x) ∧
      t = { s with bmem := t.bmem }) ∧
    s.perform (.read8 (0x1000 + a)) = .next { s with replies := .byte (s.byteAt a) :: s.replies }

/-- What the model does with accesses the spec does not give the host (U5, U8, U9; log entry 7): it stops, each under its own
name. On a busy unit every access but the 32-bit read of STATUS is refused. The last two clauses say that it stops only there:
every move R47 defines answers a next state on an idle unit, and the read of STATUS (R225) and reset (R221) on a busy one. -/
def Obligations.UndefinedMovesStopByName : Prop :=
  ∀ (s : State) (o : Nat) (w : Word) (b : Byte),
    (s.status.busy = false → (0x034 ≤ o ∧ o < 0x1000) ∨ 0x1000 + s.params.bufBytes ≤ o →
      ∀ a ∈ [Action.write32 o w, .read32 o, .write8 o b, .read8 o], s.perform a = .fault .noSuchOffset) ∧
    (s.status.busy = false → (o < 0x034 ∧ o % 4 ≠ 0) ∨ (0x1000 ≤ o ∧ o < 0x1000 + s.params.bufBytes) →
      ∀ a ∈ [Action.write32 o w, .read32 o], s.perform a = .refused .undefinedWidth) ∧
    (s.status.busy = false → o < 0x034 →
      ∀ a ∈ [Action.write8 o b, .read8 o], s.perform a = .refused .undefinedWidth) ∧
    (s.status.busy = true →
      (∀ a ∈ [Action.write32 o w, .write8 o b, .read8 o], s.perform a = .refused .accessWhileBusy) ∧
      (o ≠ 0x004 → s.perform (.read32 o) = .refused .accessWhileBusy)) ∧
    (s.status.busy = false → ∀ a : Action, a.Defined s.params → ∃ t, s.perform a = .next t) ∧
    (s.status.busy = true → ∀ a ∈ [Action.read32 0x004, .reset], ∃ t, s.perform a = .next t)

/-- R51: reset, from any state, leaves every register empty with sign `+1`, every scalar register and STATUS zero and the three
read-only constants at their constants; `State.reset` is such a state. Nothing is said of BMEM, which reset leaves
unspecified. -/
def Obligations.ResetGivesTheResetValues : Prop :=
  (∀ (s : State) (rest : List Action), s.pending = .reset :: rest →
    ∃ t, step s = .next t ∧ (∀ i, (t.reg i).cap = 0 ∧ (t.reg i).sign = .plus ∧ t.val i = 0) ∧ t.status.word = 0 ∧
      t.ecmd = 0 ∧ t.imm = 0 ∧ t.cnt = 0 ∧ t.baddr = 0 ∧ t.blen = 0 ∧ t.resn = 0 ∧ t.resw = 0 ∧
      t.readScalar .maxlimbs = BitVec.ofNat 32 s.params.maxLimbs ∧ t.readScalar .geom = 0x00001020#32 ∧
      t.readScalar .bufsz = BitVec.ofNat 32 s.params.bufBytes) ∧
  (∀ i, (State.reset.reg i).cap = 0 ∧ (State.reset.reg i).sign = .plus ∧ State.reset.val i = 0) ∧
  State.reset.status.word = 0 ∧ State.reset.ecmd = 0 ∧ State.reset.imm = 0 ∧ State.reset.cnt = 0 ∧
  State.reset.baddr = 0 ∧ State.reset.blen = 0 ∧ State.reset.resn = 0 ∧ State.reset.resw = 0 ∧
  State.reset.readScalar .maxlimbs = BitVec.ofNat 32 Config.params.maxLimbs ∧
  State.reset.readScalar .geom = 0x00001020#32 ∧ State.reset.readScalar .bufsz = BitVec.ofNat 32 Config.params.bufBytes

/-! ### Invariants and whole-machine rules -/

/-- The state after reset satisfies the invariant, whatever the unit's parameters are. -/
def Obligations.ResetStateSatisfiesInvariant : Prop := State.reset.Inv

/-- Every step keeps the invariant: the parameters' constraints, (I-a) and (I-d) of R23 for every register, the canonical form
of BMEM inside its bounds, and the legal values of STATUS (R32, R33, U6). -/
def Obligations.EveryStepKeepsTheInvariant : Prop :=
  ∀ s t : State, s.Inv → step s = .next t → t.Inv

/-- A host that makes only the moves the spec gives it never stops the machine: any number of steps from a state with the
invariant answers a next state, with the invariant, the actions performed in order and one a step. -/
def Obligations.DefinedMovesNeverStopTheMachine : Prop :=
  ∀ (n : Nat) (s : State), s.Inv → (∀ a ∈ s.pending, a.Defined s.params) →
    ∃ t : State, Sys2Proof.core.run n s = .next t ∧ t.Inv ∧ t.pending = s.pending.drop n

/-- Every command ends, in every state: it answers a next state with BUSY = 0 (R225, R230). -/
def Obligations.EveryCommandEnds : Prop :=
  ∀ (i : Instr) (s : State), ∃ t, exec i s = .next t ∧ t.status.busy = false

/-- R193, the frame rule, with the destinations of R27: a successful command changes only the registers, results and bytes its
rule names, and ERR (and BUSY, which its issue set). -/
def Obligations.CommandsChangeOnlyWhatTheirRulesName : Prop :=
  ∀ (i : Instr) (s t : State), exec i s = .next t →
    (t.status.err = 0 → s.Completes (touched s i) t) ∧
    (t.status.err ≠ 0 → s.Keeps {} { t with ecmd := s.ecmd, status := { t.status with fault := s.status.fault } })

/-- R195: a command that ends with a code other than OK has changed nothing but the fault record: ERR, FAULT, ECMD with the
command's word, BUSY. -/
def Obligations.FaultsLeaveOnlyTheirRecord : Prop :=
  ∀ (i : Instr) (s t : State), exec i s = .next t → t.status.err ≠ 0 →
    ∃ e : ErrCode, e ≠ .ok ∧ t = s.faultRecord (encode i) e

/-- R191: which command raises which code, and exactly when; where several conditions hold the code reported is one of least
rank in the order of R199. -/
def Obligations.FaultsHaveExactlyTheCausesOfR191 : Prop :=
  (∀ (i : Instr) (s : State), i.WellFormed →
    (∀ e, e ≠ .ok → exec i s = .next (s.faultRecord (encode i) e) → CauseR191 s i e) ∧
    (∀ e, CauseR191 s i e → ∃ e', e' ≠ .ok ∧ exec i s = .next (s.faultRecord (encode i) e') ∧
      CauseR191 s i e' ∧ e'.rank ≤ e.rank)) ∧
  ∀ (s : State) (w : Word), IllegalWord w → s.status.fault = false → s.issue w = .next (s.faultRecord w .badInput)

/-- R190: the numbers of the codes, and that a command never ends with a code that is none of those the unit produces. -/
def Obligations.ErrorCodesAreThoseOfR190 : Prop :=
  (ErrCode.ok.code = 0 ∧ ErrCode.alloc.code = 1 ∧ ErrCode.badInput.code = 2 ∧ ErrCode.invalidChar.code = 3 ∧
    ErrCode.bufferTooSmall.code = 4 ∧ ErrCode.negativeValue.code = 5 ∧ ErrCode.divByZero.code = 6 ∧
    ErrCode.notAcceptable.code = 7) ∧
  ∀ (i : Instr) (s t : State), exec i s = .next t → t.status.err.toNat ∈ [0, 1, 2, 4, 5, 6, 7]

/-- MAX_LIMBS and BUF_BYTES are constant for the life of the unit (R38, R40, C9): no step changes them. -/
def Obligations.ParametersNeverChange : Prop :=
  ∀ s t : State, step s = .next t → t.params = s.params

/-- R25: a successful INIT or FREE sets the capacity to 0, a successful GROW to `max(cap, CNT)`, a commit to the maximum of the
old capacity and the limbs of the value committed; every other register, and every register at a fault, keeps its capacity. -/
def Obligations.CapacityChangesInThreeWays : Prop :=
  ∀ (i : Instr) (s t : State) (r : RegNo), exec i s = .next t →
    (t.reg r).cap =
      if t.status.err ≠ 0 ∨ r ∉ (touched s i).regs then (s.reg r).cap
      else match i with
        | .init _ => 0
        | .free _ => 0
        | .grow _ => max (s.reg r).cap s.cnt.toNat
        | _ => max (s.reg r).cap (limbCount (t.mag r))

/-- R28, R50: the capacities influence nothing a host can observe. Two units whose registers hold the same values and that are
alike in everything but the registers' storage answer every action alike and stay so: whatever the host or the platform does,
it reads the same, and the values stay the same. -/
def Obligations.CapacityIsNotObservable : Prop :=
  ∀ s s' : State, (∀ i, s'.val i = s.val i) → s' = { s with m := s'.m } →
    ∀ (a : Action) (t : State), s.perform a = .next t →
      ∃ t', s'.perform a = .next t' ∧ (∀ i, t'.val i = t.val i) ∧ t' = { t with m := t'.m }

/-- R93, three of its rows: on an idle unit without a fault, the host actions a pseudo-instruction stands for have the meaning its row
gives it. SETI loads a small value, MOV copies, NEG negates, and each overwrites no register but its destination and the scalar
register it uses. -/
def Obligations.SetiMovAndNegMeanWhatR93Says : Prop :=
  ∀ (s : State) (d a : RegNo), s.Inv → s.status.fault = false →
    (∀ z : Int, -2 ^ 31 ≤ z → z < 2 ^ 31 →
      ∃ t, Sys2Proof.core.run 2 { s with pending := (Line.seti d z).actions } = .next t ∧ s.Committed d z t ∧
        t.status.err = 0 ∧ t.imm.toInt = z ∧ ∀ i, i ≠ d → t.reg i = s.reg i) ∧
    (∃ t, Sys2Proof.core.run 1 { s with pending := (Line.mov d a).actions } = .next t ∧ s.Committed d (s.val a) t ∧
      t.status.err = 0 ∧ t.imm = s.imm ∧ ∀ i, i ≠ d → t.reg i = s.reg i) ∧
    ∃ t, Sys2Proof.core.run 2 { s with pending := (Line.neg d a).actions } = .next t ∧ s.Committed d (-s.val a) t ∧
      t.status.err = 0 ∧ t.imm.toInt = -1 ∧ ∀ i, i ≠ d → t.reg i = s.reg i

/-! ### Numbers and the commit -/

/-- R10: the functions on integers are what their definitions say, with `ceil` as the least multiple that suffices and `floor`
by its bounds. -/
def Obligations.NumberFunctionsMeetR10 : Prop :=
  Config.base = 2 ^ 32 ∧ (∀ v : Int, (0 ≤ v → signOf v = 1) ∧ (v < 0 → signOf v = -1)) ∧
  (∀ m : Nat, (m = 0 → bitlen m = 0) ∧ (m ≠ 0 → 2 ^ (bitlen m - 1) ≤ m ∧ m < 2 ^ bitlen m) ∧
    bitlen m ≤ 32 * limbCount m ∧ (∀ n, bitlen m ≤ 32 * n → limbCount m ≤ n) ∧
    bitlen m ≤ 8 * byteCount m ∧ (∀ n, bitlen m ≤ 8 * n → byteCount m ≤ n)) ∧
  (∀ a b : Int, b ≠ 0 →
    tdiv a b = signOf a * signOf b * ((a.natAbs / b.natAbs : Nat) : Int) ∧ tmod a b = a - b * tdiv a b ∧
    ∃ q : Int, fmod a b = a - b * q ∧ (0 < b → 0 ≤ fmod a b ∧ fmod a b < b) ∧ (b < 0 → b < fmod a b ∧ fmod a b ≤ 0)) ∧
  ∀ x y : Int, (x < y → cmp3 x y = -1) ∧ (x = y → cmp3 x y = 0) ∧ (y < x → cmp3 x y = 1)

/-- R24: the commit primitive. Capacity, every limb and the sign as the rule writes them; the value read back is the one
committed; no other register changes. -/
def Obligations.CommitStoresTheValue : Prop :=
  ∀ (s : State) (i : RegNo) (v : Int), s.Fits v →
    ((s.commit i v).reg i).cap = max (s.reg i).cap (limbCount v.natAbs) ∧
    (∀ j, j < ((s.commit i v).reg i).cap →
      ((s.commit i v).reg i).limbs[j]? = some (BitVec.ofNat 32 (v.natAbs / 2 ^ (32 * j) % 2 ^ 32))) ∧
    ((s.commit i v).reg i).sign = (if v < 0 then .minus else .plus) ∧
    (s.commit i v).val i = v ∧
    ∀ k, k ≠ i → (s.commit i v).reg k = s.reg k

/-! ### Storage commands -/

/-- R100, R101: INIT and FREE empty the register and change nothing else; they never fault. -/
def Obligations.InitAndFreeEmptyTheRegister : Prop :=
  ∀ (s : State) (rd : RegNo),
    decode (commandWord 0x01 rd 0 0 0 0 0) = .command (.init rd) ∧
    decode (commandWord 0x02 rd 0 0 0 0 0) = .command (.free rd) ∧
    ∀ i ∈ [Instr.init rd, .free rd], ∃ t, exec i s = .next t ∧ t.val rd = 0 ∧ (t.reg rd).cap = 0 ∧
      (t.reg rd).sign = .plus ∧ s.Completes { regs := [rd] } t

/-- R102: GROW raises the capacity to at least CNT, keeps value, magnitude, sign and every old limb, zero-fills the new limbs;
ALLOC, with the register unchanged, when CNT is over the ceiling. -/
def Obligations.GrowRaisesOnlyTheCapacity : Prop :=
  ∀ (s : State) (rd : RegNo),
    decode (commandWord 0x03 rd 0 0 0 0 0) = .command (.grow rd) ∧
    (s.cnt.toNat ≤ s.params.maxLimbs → ∃ t, exec (.grow rd) s = .next t ∧
      (t.reg rd).cap = max (s.reg rd).cap s.cnt.toNat ∧ t.val rd = s.val rd ∧ t.mag rd = s.mag rd ∧
      (t.reg rd).sign = (s.reg rd).sign ∧
      (∀ j, j < (s.reg rd).cap → (t.reg rd).limbs[j]? = (s.reg rd).limbs[j]?) ∧
      (∀ j, (s.reg rd).cap ≤ j → j < (t.reg rd).cap → (t.reg rd).limbs[j]? = some 0) ∧
      s.Completes { regs := [rd] } t) ∧
    (s.params.maxLimbs < s.cnt.toNat →
      exec (.grow rd) s = .next (s.faultRecord (commandWord 0x03 rd 0 0 0 0 0) .alloc))

/-- R103: SETS commits IMM as a signed value. -/
def Obligations.SetsLoadsTheSmallOperand : Prop :=
  ∀ (s : State) (rd : RegNo),
    decode (commandWord 0x04 rd 0 0 0 0 0) = .command (.sets rd) ∧
    ∃ t, exec (.sets rd) s = .next t ∧ s.Committed rd s.imm.toInt t ∧ s.Completes { regs := [rd] } t

/-- R104: COPY commits the source's value; a copy of a register to itself changes nothing in it (where zero has its sign
`+1`). -/
def Obligations.CopyStoresTheSourceValue : Prop :=
  ∀ (s : State) (rd ra : RegNo),
    decode (commandWord 0x05 rd 0 ra 0 0 0) = .command (.copy rd ra) ∧
    ∃ t, exec (.copy rd ra) s = .next t ∧ s.Committed rd (s.val ra) t ∧ s.Completes { regs := [rd] } t ∧
      (rd = ra → (s.reg rd).Wf s.params → t.reg rd = s.reg rd)

/-- R106: IMPORT of a buffer in range commits the number its bytes spell big-endian, `Σ_{i<n} s[i] * 256^(n-1-i)`, when it fits;
ALLOC when it does not; BAD_INPUT, before any byte is looked at, when the buffer is not in range. -/
def Obligations.ImportReadsTheBufferBigEndian : Prop :=
  ∀ (s : State) (rd : RegNo) (v : Nat),
    v = ∑ i ∈ Finset.range s.blen.toNat, (s.byteAt (s.baddr.toNat + i)).toNat * 256 ^ (s.blen.toNat - 1 - i) →
    decode (commandWord 0x06 rd 0 0 0 0 0) = .command (.importBuf rd) ∧
    (s.baddr.toNat + s.blen.toNat ≤ s.params.bufBytes → limbCount v ≤ s.params.maxLimbs →
      ∃ t, exec (.importBuf rd) s = .next t ∧ s.Committed rd v t ∧ s.Completes { regs := [rd] } t) ∧
    (s.baddr.toNat + s.blen.toNat ≤ s.params.bufBytes → s.params.maxLimbs < limbCount v →
      exec (.importBuf rd) s = .next (s.faultRecord (commandWord 0x06 rd 0 0 0 0 0) .alloc)) ∧
    (s.params.bufBytes < s.baddr.toNat + s.blen.toNat →
      exec (.importBuf rd) s = .next (s.faultRecord (commandWord 0x06 rd 0 0 0 0 0) .badInput))

/-- R107: EXPORT with BLEN = 0 reports the required length in BLEN, whatever BADDR is; otherwise it faults, BAD_INPUT before
BUFFER_TOO_SMALL, or writes the magnitude right-aligned into all BLEN bytes, byte `k` of the buffer being
`floor(mag / 256^(BLEN-1-k)) mod 256`, and no other byte. -/
def Obligations.ExportWritesTheMagnitudeBigEndian : Prop :=
  ∀ (s : State) (ra : RegNo), s.Inv →
    decode (commandWord 0x07 0 0 ra 0 0 0) = .command (.exportBuf ra) ∧
    (s.blen.toNat = 0 → ∃ t, exec (.exportBuf ra) s = .next t ∧ t.blen.toNat = byteCount (s.mag ra) ∧
      s.Completes { blen := true } t) ∧
    (s.blen.toNat ≠ 0 → s.params.bufBytes < s.baddr.toNat + s.blen.toNat →
      exec (.exportBuf ra) s = .next (s.faultRecord (commandWord 0x07 0 0 ra 0 0 0) .badInput)) ∧
    (s.blen.toNat ≠ 0 → s.baddr.toNat + s.blen.toNat ≤ s.params.bufBytes → s.blen.toNat < byteCount (s.mag ra) →
      exec (.exportBuf ra) s = .next (s.faultRecord (commandWord 0x07 0 0 ra 0 0 0) .bufferTooSmall)) ∧
    (s.blen.toNat ≠ 0 → s.baddr.toNat + s.blen.toNat ≤ s.params.bufBytes → byteCount (s.mag ra) ≤ s.blen.toNat →
      ∃ t, exec (.exportBuf ra) s = .next t ∧
        (∀ k, k < s.blen.toNat →
          t.byteAt (s.baddr.toNat + k) = BitVec.ofNat 8 (s.mag ra / 256 ^ (s.blen.toNat - 1 - k))) ∧
        s.Completes { start := s.baddr.toNat, length := s.blen.toNat } t)

/-- R108: EXPORT into a buffer in range that is long enough, then IMPORT of the same buffer, gives the magnitude: for every
register value and destination, a buffer of length 0 for the zero value among them. -/
def Obligations.ExportThenImportGivesTheMagnitude : Prop :=
  ∀ (s : State) (ra rd : RegNo), s.Inv → byteCount (s.mag ra) ≤ s.blen.toNat →
    s.baddr.toNat + s.blen.toNat ≤ s.params.bufBytes →
    ∃ t u, exec (.exportBuf ra) s = .next t ∧ exec (.importBuf rd) t = .next u ∧ u.status.err = 0 ∧
      u.val rd = s.mag ra

/-! ### Comparison and bit commands -/

/-- R120, R121: BITLEN and SIZE put the bit length and the byte length of the magnitude into RESN, and nothing else. -/
def Obligations.BitlenAndSizeReportTheMagnitude : Prop :=
  ∀ (s : State) (ra : RegNo), s.Inv →
    decode (commandWord 0x10 0 0 ra 0 0 0) = .command (.bitlen ra) ∧
    decode (commandWord 0x11 0 0 ra 0 0 0) = .command (.size ra) ∧
    (∃ t, exec (.bitlen ra) s = .next t ∧ t.resn.toNat = bitlen (s.mag ra) ∧ s.Completes { resn := true } t) ∧
    ∃ t, exec (.size ra) s = .next t ∧ t.resn.toNat = (bitlen (s.mag ra) + 7) / 8 ∧ s.Completes { resn := true } t

/-- R122: SHL multiplies the value by `2^CNT` in place when the magnitude so shifted fits the ceiling, and raises ALLOC exactly
when it does not. -/
def Obligations.ShlMultipliesOrRaisesAlloc : Prop :=
  ∀ (s : State) (rd : RegNo),
    decode (commandWord 0x12 rd 0 0 0 0 0) = .command (.shl rd) ∧
    (limbCount (s.mag rd * 2 ^ s.cnt.toNat) ≤ s.params.maxLimbs →
      ∃ t, exec (.shl rd) s = .next t ∧ s.Committed rd (s.val rd * 2 ^ s.cnt.toNat) t ∧
        s.Completes { regs := [rd] } t) ∧
    (s.params.maxLimbs < limbCount (s.mag rd * 2 ^ s.cnt.toNat) →
      exec (.shl rd) s = .next (s.faultRecord (commandWord 0x12 rd 0 0 0 0 0) .alloc))

/-- R123: SHR floors the magnitude by `2^CNT` in place and keeps the sign, except that a zero result has sign `+1`; capacity is
unchanged and it never faults. -/
def Obligations.ShrShiftsTheMagnitude : Prop :=
  ∀ (s : State) (rd : RegNo),
    decode (commandWord 0x13 rd 0 0 0 0 0) = .command (.shr rd) ∧
    ∃ t, exec (.shr rd) s = .next t ∧ t.mag rd = s.mag rd / 2 ^ s.cnt.toNat ∧
      (t.reg rd).sign = (if s.mag rd / 2 ^ s.cnt.toNat = 0 then .plus else (s.reg rd).sign) ∧
      (t.reg rd).cap = (s.reg rd).cap ∧ s.Completes { regs := [rd] } t

/-- R124, R125, R126: the three comparisons leave 0b11, 0b00 or 0b01 in STATUS.CMP for less, equal, greater, of magnitudes, of
values, of a value and the small operand; nothing else changes and they never fault. -/
def Obligations.ComparisonsSetCmp : Prop :=
  ∀ (s : State) (ra rb : RegNo),
    decode (commandWord 0x14 0 0 ra rb 0 0) = .command (.cmpabs ra rb) ∧
    decode (commandWord 0x15 0 0 ra rb 0 0) = .command (.cmp ra rb) ∧
    decode (commandWord 0x16 0 0 ra 0 0 0) = .command (.cmps ra) ∧
    (∃ t, exec (.cmpabs ra rb) s = .next t ∧ s.Completes { cmp := true } t ∧
      t.status.cmp = if s.mag ra < s.mag rb then 0b11#2 else if s.mag ra = s.mag rb then 0b00#2 else 0b01#2) ∧
    (∃ t, exec (.cmp ra rb) s = .next t ∧ s.Completes { cmp := true } t ∧
      t.status.cmp = if s.val ra < s.val rb then 0b11#2 else if s.val ra = s.val rb then 0b00#2 else 0b01#2) ∧
    ∃ t, exec (.cmps ra) s = .next t ∧ s.Completes { cmp := true } t ∧
      t.status.cmp = if s.val ra < s.imm.toInt then 0b11#2 else if s.val ra = s.imm.toInt then 0b00#2 else 0b01#2

/-- R127: the laws of the comparisons. CMP of `(a, b)` and of `(b, a)` give `r` and `-r`; CMPABS ignores sign, that is, it
answers alike in any two states with the same two magnitudes; CMP and CMPABS agree when both operands are non-negative; CMPS
equals CMP against a register holding `z`; none of them changes an integer register, RESN, RESW or BLEN. -/
def Obligations.ComparisonLaws : Prop :=
  ∀ (s : State) (ra rb : RegNo), ∃ abs sgn rev small : State,
    exec (.cmpabs ra rb) s = .next abs ∧ exec (.cmp ra rb) s = .next sgn ∧ exec (.cmp rb ra) s = .next rev ∧
    exec (.cmps ra) s = .next small ∧ rev.status.cmp = -sgn.status.cmp ∧
    (∀ s' u : State, s'.mag ra = s.mag ra → s'.mag rb = s.mag rb → exec (.cmpabs ra rb) s' = .next u →
      u.status.cmp = abs.status.cmp) ∧
    (0 ≤ s.val ra → 0 ≤ s.val rb → abs.status.cmp = sgn.status.cmp) ∧
    (s.val rb = s.imm.toInt → small.status.cmp = sgn.status.cmp) ∧
    ∀ t ∈ [abs, sgn, rev, small], t.m = s.m ∧ t.resn = s.resn ∧ t.resw = s.resw ∧ t.blen = s.blen

/-! ### Arithmetic commands -/

/-- R141: ADDABS commits `|a| + |b|`, sign `+1`, or raises ALLOC. -/
def Obligations.AddabsAddsMagnitudes : Prop :=
  ∀ (s : State) (rd ra rb : RegNo) (v : Int), v = |s.val ra| + |s.val rb| →
    decode (commandWord 0x20 rd 0 ra rb 0 0) = .command (.addabs rd ra rb) ∧
    (limbCount v.natAbs ≤ s.params.maxLimbs →
      ∃ t, exec (.addabs rd ra rb) s = .next t ∧ s.Committed rd v t ∧ s.Completes { regs := [rd] } t) ∧
    (s.params.maxLimbs < limbCount v.natAbs →
      exec (.addabs rd ra rb) s = .next (s.faultRecord (commandWord 0x20 rd 0 ra rb 0 0) .alloc))

/-- R142: SUBABS commits `|a| - |b|`, sign `+1`, or raises NEGATIVE_VALUE when `|a| < |b|`. -/
def Obligations.SubabsSubtractsOrderedMagnitudes : Prop :=
  ∀ (s : State) (rd ra rb : RegNo),
    decode (commandWord 0x21 rd 0 ra rb 0 0) = .command (.subabs rd ra rb) ∧
    (|s.val rb| ≤ |s.val ra| → ∃ t, exec (.subabs rd ra rb) s = .next t ∧
      s.Committed rd (|s.val ra| - |s.val rb|) t ∧ s.Completes { regs := [rd] } t) ∧
    (|s.val ra| < |s.val rb| →
      exec (.subabs rd ra rb) s = .next (s.faultRecord (commandWord 0x21 rd 0 ra rb 0 0) .negativeValue))

/-- R144, R145: ADD and SUB commit the exact sum and difference, or raise ALLOC; neither raises anything else. -/
def Obligations.AddAndSubAreExact : Prop :=
  ∀ (s : State) (rd ra rb : RegNo),
    decode (commandWord 0x22 rd 0 ra rb 0 0) = .command (.add rd ra rb) ∧
    decode (commandWord 0x23 rd 0 ra rb 0 0) = .command (.sub rd ra rb) ∧
    (limbCount (s.val ra + s.val rb).natAbs ≤ s.params.maxLimbs → ∃ t, exec (.add rd ra rb) s = .next t ∧
      s.Committed rd (s.val ra + s.val rb) t ∧ s.Completes { regs := [rd] } t) ∧
    (s.params.maxLimbs < limbCount (s.val ra + s.val rb).natAbs →
      exec (.add rd ra rb) s = .next (s.faultRecord (commandWord 0x22 rd 0 ra rb 0 0) .alloc)) ∧
    (limbCount (s.val ra - s.val rb).natAbs ≤ s.params.maxLimbs → ∃ t, exec (.sub rd ra rb) s = .next t ∧
      s.Committed rd (s.val ra - s.val rb) t ∧ s.Completes { regs := [rd] } t) ∧
    (s.params.maxLimbs < limbCount (s.val ra - s.val rb).natAbs →
      exec (.sub rd ra rb) s = .next (s.faultRecord (commandWord 0x23 rd 0 ra rb 0 0) .alloc))

/-- R146: adding and then subtracting one value, or the other way round, gives the first value back, whenever the intermediate
result does not fault. `rc` is any register that holds the value of `rb` after the first command: `rb` itself, unless the first
command overwrote it. -/
def Obligations.AddAndSubAreInverse : Prop :=
  ∀ (s t : State) (rd re ra rb rc : RegNo), s.Inv → t.val rc = s.val rb →
    (exec (.add rd ra rb) s = .next t → t.status.err = 0 →
      ∃ u, exec (.sub re rd rc) t = .next u ∧ u.status.err = 0 ∧ u.val re = s.val ra) ∧
    (exec (.sub rd ra rb) s = .next t → t.status.err = 0 →
      ∃ u, exec (.add re rd rc) t = .next u ∧ u.status.err = 0 ∧ u.val re = s.val ra)

/-- R143: the dispatch of signed addition over magnitudes is exact addition and subtraction. -/
def Obligations.SignedSumIsExact : Prop :=
  ∀ a b : Int, signedSum a 1 b = a + b ∧ signedSum a (-1) b = a - b

/-- R150, R151: MUL and MULS commit the exact product, or raise ALLOC on the product's own size. -/
def Obligations.MulAndMulsAreExact : Prop :=
  ∀ (s : State) (rd ra rb : RegNo),
    decode (commandWord 0x24 rd 0 ra rb 0 0) = .command (.mul rd ra rb) ∧
    decode (commandWord 0x25 rd 0 ra 0 0 0) = .command (.muls rd ra) ∧
    (limbCount (s.val ra * s.val rb).natAbs ≤ s.params.maxLimbs → ∃ t, exec (.mul rd ra rb) s = .next t ∧
      s.Committed rd (s.val ra * s.val rb) t ∧ s.Completes { regs := [rd] } t) ∧
    (s.params.maxLimbs < limbCount (s.val ra * s.val rb).natAbs →
      exec (.mul rd ra rb) s = .next (s.faultRecord (commandWord 0x24 rd 0 ra rb 0 0) .alloc)) ∧
    (limbCount (s.val ra * s.imm.toInt).natAbs ≤ s.params.maxLimbs → ∃ t, exec (.muls rd ra) s = .next t ∧
      s.Committed rd (s.val ra * s.imm.toInt) t ∧ s.Completes { regs := [rd] } t) ∧
    (s.params.maxLimbs < limbCount (s.val ra * s.imm.toInt).natAbs →
      exec (.muls rd ra) s = .next (s.faultRecord (commandWord 0x25 rd 0 ra 0 0 0) .alloc))

/-- R153, R154: DIV and DIVS. Two enabled outputs in one register are BAD_INPUT, then a zero divisor DIV_BY_ZERO; otherwise the
enabled outputs hold `q` and `r` with `a = q*b + r`, `|r| < |b|`, `|q| = floor(|a|/|b|)`, and `r` zero or of the sign of `a`. -/
def Obligations.DivAndDivsTruncate : Prop :=
  ∀ (s : State) (qen ren : Bool) (rd re ra rb : RegNo),
    decode (commandWord 0x26 rd re ra rb 0 (qen.toNat + 2 * ren.toNat)) = .command (.div qen ren rd re ra rb) ∧
    decode (commandWord 0x27 rd re ra 0 0 (qen.toNat + 2 * ren.toNat)) = .command (.divs qen ren rd re ra) ∧
    ∀ p ∈ [(Instr.div qen ren rd re ra rb, s.val rb, commandWord 0x26 rd re ra rb 0 (qen.toNat + 2 * ren.toNat)),
        (.divs qen ren rd re ra, s.imm.toInt, commandWord 0x27 rd re ra 0 0 (qen.toNat + 2 * ren.toNat))],
      ((qen = true ∧ ren = true ∧ rd = re) → exec p.1 s = .next (s.faultRecord p.2.2 .badInput)) ∧
      (¬ (qen = true ∧ ren = true ∧ rd = re) → p.2.1 = 0 → exec p.1 s = .next (s.faultRecord p.2.2 .divByZero)) ∧
      (¬ (qen = true ∧ ren = true ∧ rd = re) → p.2.1 ≠ 0 → ∃ t q r, exec p.1 s = .next t ∧
        s.val ra = q * p.2.1 + r ∧ r.natAbs < p.2.1.natAbs ∧ q.natAbs = (s.val ra).natAbs / p.2.1.natAbs ∧
        (r = 0 ∨ (0 < r ∧ 0 < s.val ra) ∨ (r < 0 ∧ s.val ra < 0)) ∧
        (qen = true → s.Committed rd q t) ∧ (ren = true → s.Committed re r t) ∧
        s.Completes { regs := (if qen then [rd] else []) ++ (if ren then [re] else []) } t)

/-- R156, R157: MOD and MODS. A zero modulus is DIV_BY_ZERO, a negative one NEGATIVE_VALUE; otherwise the result `m` is the one
with `0 <= m < b` that differs from `a` by a multiple of `b`, in M[rd] or in RESW. -/
def Obligations.ModAndModsFloor : Prop :=
  ∀ (s : State) (rd ra rb : RegNo),
    decode (commandWord 0x28 rd 0 ra rb 0 0) = .command (.mod rd ra rb) ∧
    decode (commandWord 0x29 0 0 ra 0 0 0) = .command (.mods ra) ∧
    (s.val rb = 0 → exec (.mod rd ra rb) s = .next (s.faultRecord (commandWord 0x28 rd 0 ra rb 0 0) .divByZero)) ∧
    (s.val rb < 0 →
      exec (.mod rd ra rb) s = .next (s.faultRecord (commandWord 0x28 rd 0 ra rb 0 0) .negativeValue)) ∧
    (0 < s.val rb → ∃ t q m, exec (.mod rd ra rb) s = .next t ∧ s.val ra = s.val rb * q + m ∧ 0 ≤ m ∧ m < s.val rb ∧
      s.Committed rd m t ∧ s.Completes { regs := [rd] } t) ∧
    (s.imm.toInt = 0 → exec (.mods ra) s = .next (s.faultRecord (commandWord 0x29 0 0 ra 0 0 0) .divByZero)) ∧
    (s.imm.toInt < 0 → exec (.mods ra) s = .next (s.faultRecord (commandWord 0x29 0 0 ra 0 0 0) .negativeValue)) ∧
    (0 < s.imm.toInt → ∃ t q, exec (.mods ra) s = .next t ∧ s.val ra = s.imm.toInt * q + t.resw.toNat ∧
      (t.resw.toNat : Int) < s.imm.toInt ∧ s.Completes { resw := true } t)

/-- R158: for one dividend and one positive divisor, MOD's result is DIV's remainder where that is not negative and the
remainder plus the divisor where it is; and quotient times divisor plus remainder is the dividend. -/
def Obligations.DivisionAndModuloAgree : Prop :=
  ∀ (s : State) (rd re rf ra rb : RegNo), rd ≠ re → s.val rb ≠ 0 →
    ∃ t, exec (.div true true rd re ra rb) s = .next t ∧ t.val rd * s.val rb + t.val re = s.val ra ∧
      |t.val re| < |s.val rb| ∧ (t.val re = 0 ∨ (t.val re < 0 ↔ s.val ra < 0)) ∧
      (0 < s.val rb → ∃ u, exec (.mod rf ra rb) s = .next u ∧ 0 ≤ u.val rf ∧ u.val rf < s.val rb ∧
        u.val rf = if 0 ≤ t.val re then t.val re else t.val re + s.val rb)

/-! ### Modular exponentiation -/

/-- R170: for every integer A, every E >= 0 and every odd N > 0 (whose working storage fits), EXPMOD in each mode, with the right
constant in mode 1, commits `A^E mod N` in `[0, N)`, and in mode 2 the constant `B^(2*limbs(N)) mod N`. -/
def Obligations.ExpmodComputesThePower : Prop :=
  ∀ (s : State) (mode : RRMode) (rd re ra rb rc : RegNo) (e n : Nat), s.val rb = e → s.val rc = n → n % 2 = 1 →
    2 * (limbCount n + 1) ≤ s.params.maxLimbs → mode ≠ .reserved → ¬ (mode = .stored ∧ re = rd) →
    (mode = .supplied → s.val re = ((2 ^ 32) ^ (2 * limbCount n) % n : Nat)) →
    decode (commandWord 0x30 rd re ra rb rc (match mode with | .absent => 0 | .supplied => 1 | .stored => 2 | .reserved => 3)) =
      .command (.expmod mode rd re ra rb rc) ∧
    ∃ t x, exec (.expmod mode rd re ra rb rc) s = .next t ∧ 0 ≤ x ∧ x < (n : Int) ∧ x ≡ s.val ra ^ e [ZMOD n] ∧
      s.Committed rd x t ∧ (mode = .stored → s.Committed re ((2 ^ 32) ^ (2 * limbCount n) % n : Nat) t) ∧
      s.Completes { regs := rd :: (if mode = .stored then [re] else []) } t

/-- R171, with R172 and R174: EXPMOD's encoding; its faults in their order, namely store mode into the result register
BAD_INPUT, a modulus not positive or even NOT_ACCEPTABLE, a negative exponent NOT_ACCEPTABLE, ALLOC exactly when
`2 * (limbs(N) + 1) > MAX_LIMBS`, whatever the base, exponent and mode; and with every check passed the commit of a value that
fits, which is `fmod(A^E, N)` unless mode 1 was given a constant that is not `RR` (there it is free: U1, log entry 3; the
counter `draws` is the model's), and of `RR` in mode 2. -/
def Obligations.ExpmodChecksItsPreconditions : Prop :=
  ∀ (s : State) (rd re ra rb rc : RegNo),
    (∀ fl, 3 ≤ fl → fl < 16 → ∃ why, decode (commandWord 0x30 rd re ra rb rc fl) = .illegal why) ∧
    ∀ p ∈ [(RRMode.absent, 0), (.supplied, 1), (.stored, 2)],
      decode (commandWord 0x30 rd re ra rb rc p.2) = .command (.expmod p.1 rd re ra rb rc) ∧
      ((p.1 = .stored ∧ re = rd) →
        exec (.expmod p.1 rd re ra rb rc) s = .next (s.faultRecord (commandWord 0x30 rd re ra rb rc p.2) .badInput)) ∧
      (¬ (p.1 = .stored ∧ re = rd) → (s.val rc ≤ 0 ∨ s.val rc % 2 = 0 ∨ s.val rb < 0) →
        exec (.expmod p.1 rd re ra rb rc) s =
          .next (s.faultRecord (commandWord 0x30 rd re ra rb rc p.2) .notAcceptable)) ∧
      ∀ e n : Nat, ¬ (p.1 = .stored ∧ re = rd) → s.val rb = e → s.val rc = n → n % 2 = 1 →
        (s.params.maxLimbs < 2 * (limbCount n + 1) →
          exec (.expmod p.1 rd re ra rb rc) s = .next (s.faultRecord (commandWord 0x30 rd re ra rb rc p.2) .alloc)) ∧
        (2 * (limbCount n + 1) ≤ s.params.maxLimbs → ∃ t x, exec (.expmod p.1 rd re ra rb rc) s = .next t ∧
          limbCount x.natAbs ≤ s.params.maxLimbs ∧ s.Committed rd x t ∧
          ((p.1 = .supplied → s.val re = ((2 ^ 32) ^ (2 * limbCount n) % n : Nat)) →
            x = s.val ra ^ e % (n : Int) ∧ t.draws = s.draws) ∧
          (p.1 = .stored → s.Committed re ((2 ^ 32) ^ (2 * limbCount n) % n : Nat) t) ∧
          s.Completes { regs := rd :: (if p.1 = .stored then [re] else []), draws := true } t)

/-- R173 and U1: in mode 1 with a constant that is not `RR` the command still completes with ERR = 0 and commits some integer that
fits the ceiling, whichever value is drawn; nothing else changes but the model's own counter of drawn integers. -/
def Obligations.ExpmodWithAWrongConstantStillCompletes : Prop :=
  ∀ (s : State) (rd re ra rb rc : RegNo) (e n : Nat), s.val rb = e → s.val rc = n → n % 2 = 1 →
    2 * (limbCount n + 1) ≤ s.params.maxLimbs → s.val re ≠ ((2 ^ 32) ^ (2 * limbCount n) % n : Nat) →
    ∃ t x, exec (.expmod .supplied rd re ra rb rc) s = .next t ∧ limbCount x.natAbs ≤ s.params.maxLimbs ∧
      s.Committed rd x t ∧ s.Completes { regs := [rd], draws := true } t

/-! ### The engine against the rules it implements -/

/-- R147: limb-wise addition with carries and limb-wise subtraction with borrows compute the exact sum of two magnitudes and the
exact difference of an ordered pair. -/
def Obligations.EngineAddsAndSubtractsExactly : Prop :=
  ∀ xs ys : List Limb, natOfLimbs (addLimbs xs ys) = natOfLimbs xs + natOfLimbs ys ∧
    (natOfLimbs ys ≤ natOfLimbs xs → natOfLimbs (subLimbs xs ys) = natOfLimbs xs - natOfLimbs ys)

/-- R128: comparing from the top limb down, after skipping zero top limbs, computes the comparison of the magnitudes. -/
def Obligations.EngineComparesFromTheTop : Prop :=
  ∀ xs ys : List Limb, compareLimbs xs ys = cmp3 (natOfLimbs xs) (natOfLimbs ys)

/-- The schoolbook method of R150 computes the exact product of two magnitudes. -/
def Obligations.EngineMultipliesExactly : Prop :=
  ∀ xs ys : List Limb, natOfLimbs (mulLimbs xs ys) = natOfLimbs xs * natOfLimbs ys

/-- R155: normalise, estimate each quotient limb from the top limbs, correct at most twice, add back at most once: for
`x >= y > 0` the result is the quotient and the remainder. -/
def Obligations.EngineDividesExactly : Prop :=
  ∀ x y : Nat, 0 < y → y ≤ x → divideLimbs x y = (x / y, x % y)

/-- R176: for odd `N` and `u, v < N` the Montgomery product is below `N`, and times `R = B^limbs(N)` it is congruent to `u * v`;
`mm` is the word with `N * mm = -1` modulo `B`. -/
def Obligations.MontgomeryProductIsCorrect : Prop :=
  ∀ n u v : Nat, n % 2 = 1 → u < n → v < n →
    montMul n u v < n ∧ montMul n u v * (2 ^ 32) ^ limbCount n ≡ u * v [MOD n] ∧
    negInverse n < 2 ^ 32 ∧ n * negInverse n + 1 ≡ 0 [MOD 2 ^ 32]

/-- R179: the sliding-window engine leaves Montgomery form with `A^E mod N`, the same for every window width `k >= 1`: it refines
the architectural rule R170. -/
def Obligations.EngineExponentiatesLikeTheRule : Prop :=
  ∀ (k : Nat) (a : Int) (e n : Nat), 1 ≤ k → n % 2 = 1 →
    ((engineExpMod k a e n (rrConst n) : Nat) : Int) = a ^ e % (n : Int)
end

