-- ==== Sys2Proof/Laws/Encoding.lean ====
section
/-! SUPPORT. Assembled words: their number (R80), their fields, and the table's opcodes. -/

namespace Sys2Proof

theorem append_toNat {m n : Nat} (x : BitVec m) (y : BitVec n) : (x ++ y).toNat = x.toNat * 2 ^ n + y.toNat := by
  rw [BitVec.toNat_append, Nat.shiftLeft_eq, Nat.mul_comm, ← Nat.two_pow_add_eq_or_of_lt y.isLt]

@[simp] theorem regOfField_fieldOfReg (r : RegNo) : regOfField (fieldOfReg r) = r := by
  revert r; decide

@[simp] theorem fieldOfReg_regOfField (f : BitVec 4) : fieldOfReg (regOfField f) = f := by
  apply BitVec.eq_of_toNat_eq
  simp [fieldOfReg, regOfField]

@[simp] theorem fieldOfReg_toNat (r : RegNo) : (fieldOfReg r).toNat = r.val := by
  simp [fieldOfReg]

section Assembled

variable (op : BitVec 8) (rd re ra rb rc : RegNo) (fl : BitVec 4)

/-- A word is the number its fields make (R80). -/
theorem assemble_toNat : (assemble op rd re ra rb rc fl).toNat =
    op.toNat * 2 ^ 24 + rd.val * 2 ^ 20 + re.val * 2 ^ 16 + ra.val * 2 ^ 12 + rb.val * 2 ^ 8 + rc.val * 2 ^ 4 +
      fl.toNat := by
  simp only [assemble, append_toNat, fieldOfReg_toNat]
  omega

@[simp] theorem opField_assemble : opField (assemble op rd re ra rb rc fl) = op := by
  apply BitVec.eq_of_toNat_eq
  have := op.isLt
  have := fl.isLt
  rw [opField, BitVec.extractLsb'_toNat, assemble_toNat, Nat.shiftRight_eq_div_pow]
  omega

theorem field_assemble (k : Nat) :
    ((assemble op rd re ra rb rc fl).extractLsb' k 4).toNat =
      (op.toNat * 2 ^ 24 + rd.val * 2 ^ 20 + re.val * 2 ^ 16 + ra.val * 2 ^ 12 + rb.val * 2 ^ 8 + rc.val * 2 ^ 4 +
        fl.toNat) / 2 ^ k % 2 ^ 4 := by
  rw [BitVec.extractLsb'_toNat, assemble_toNat, Nat.shiftRight_eq_div_pow]

/-- The fields of an assembled word are those it was assembled from (R80). -/
@[simp] theorem fieldsOf_assemble : fieldsOf (assemble op rd re ra rb rc fl) = ⟨rd, re, ra, rb, rc, fl⟩ := by
  have hop := op.isLt
  have hfl := fl.isLt
  have h20 : (assemble op rd re ra rb rc fl).extractLsb' 20 4 = fieldOfReg rd :=
    BitVec.eq_of_toNat_eq (by rw [field_assemble, fieldOfReg_toNat]; omega)
  have h16 : (assemble op rd re ra rb rc fl).extractLsb' 16 4 = fieldOfReg re :=
    BitVec.eq_of_toNat_eq (by rw [field_assemble, fieldOfReg_toNat]; omega)
  have h12 : (assemble op rd re ra rb rc fl).extractLsb' 12 4 = fieldOfReg ra :=
    BitVec.eq_of_toNat_eq (by rw [field_assemble, fieldOfReg_toNat]; omega)
  have h8 : (assemble op rd re ra rb rc fl).extractLsb' 8 4 = fieldOfReg rb :=
    BitVec.eq_of_toNat_eq (by rw [field_assemble, fieldOfReg_toNat]; omega)
  have h4 : (assemble op rd re ra rb rc fl).extractLsb' 4 4 = fieldOfReg rc :=
    BitVec.eq_of_toNat_eq (by rw [field_assemble, fieldOfReg_toNat]; omega)
  have h0 : (assemble op rd re ra rb rc fl).extractLsb' 0 4 = fl :=
    BitVec.eq_of_toNat_eq (by rw [field_assemble]; omega)
  simp only [fieldsOf, h20, h16, h12, h8, h4, h0, regOfField_fieldOfReg]

/-- The words of the claims are the assembled words (R80). -/
theorem commandWord_eq_assemble (n f : Nat) (hf : f < 16) :
    Machine.commandWord n rd re ra rb rc f =
      assemble (BitVec.ofNat 8 n) rd re ra rb rc (BitVec.ofNat 4 f) := by
  apply BitVec.eq_of_toNat_eq
  rw [assemble_toNat, Machine.commandWord, BitVec.toNat_ofNat, BitVec.toNat_ofNat, BitVec.toNat_ofNat]
  omega

end Assembled

/-- Every word is what its own fields assemble to. -/
theorem assemble_fieldsOf (w : Word) :
    assemble (opField w) (fieldsOf w).rd (fieldsOf w).re (fieldsOf w).ra (fieldsOf w).rb (fieldsOf w).rc
      (fieldsOf w).fl = w := by
  apply BitVec.eq_of_toNat_eq
  have := w.isLt
  simp only [assemble_toNat, opField, fieldsOf, regOfField, BitVec.extractLsb'_toNat, Nat.shiftRight_eq_div_pow]
  omega

/-- The opcodes and their numbers (R83). -/
theorem Op.ofCode_eq_some (c : BitVec 8) (o : Op) : Op.ofCode c = some o ↔ o.code = c := by
  constructor
  · intro h
    unfold Op.ofCode at h
    split at h <;> cases h <;> (apply BitVec.eq_of_toNat_eq; simp [Op.code, *])
  · rintro rfl
    cases o <;> rfl

@[simp] theorem rrModeOfField_rrModeField (m : RRMode) : rrModeOfField (rrModeField m) = m := by
  cases m <;> rfl

@[simp] theorem divFlags_qen (q r : Bool) : (divFlags q r)[0] = q := by cases q <;> cases r <;> rfl

@[simp] theorem divFlags_ren (q r : Bool) : (divFlags q r)[1] = r := by cases q <;> cases r <;> rfl

end Sys2Proof
end

