-- ==== Sys2Proof/Laws/Numbers.lean ====
section
/-! SUPPORT. The small lemmas of Machine/Numbers.lean: lengths of naturals in bits, bytes and limbs; limb and byte
sequences and the numbers they spell; powers by squaring. -/

namespace Sys2Proof.Machine

@[simp] theorem bitlen_zero : bitlen 0 = 0 := rfl

theorem bitlen_le_iff (m n : Nat) : bitlen m ≤ n ↔ m < 2 ^ n := by
  unfold bitlen
  split
  · next h => subst h; simp
  · next h => exact Nat.succ_le_iff.trans (Nat.log2_lt h)

theorem lt_bitlen_iff (m n : Nat) : n < bitlen m ↔ 2 ^ n ≤ m := by
  have h := bitlen_le_iff m n
  omega

theorem bitlen_eq_zero (m : Nat) : bitlen m = 0 ↔ m = 0 := by
  have h := bitlen_le_iff m 0
  omega

theorem limbCount_le_iff (m n : Nat) : limbCount m ≤ n ↔ m < Config.base ^ n := by
  have hb : Config.base = 2 ^ 32 := rfl
  rw [hb, ← pow_mul, ← bitlen_le_iff]
  unfold limbCount
  simp only [Config.limbBits]
  omega

theorem byteCount_le_iff (m n : Nat) : byteCount m ≤ n ↔ m < 256 ^ n := by
  have hb : (256 : Nat) = 2 ^ 8 := rfl
  rw [hb, ← pow_mul, ← bitlen_le_iff]
  unfold byteCount
  omega

@[simp] theorem limbCount_zero : limbCount 0 = 0 := rfl

@[simp] theorem byteCount_zero : byteCount 0 = 0 := rfl

theorem limbCount_mono {m n : Nat} (h : m ≤ n) : limbCount m ≤ limbCount n :=
  (limbCount_le_iff m _).2 (lt_of_le_of_lt h ((limbCount_le_iff n _).1 le_rfl))

theorem lt_base_limbCount (m : Nat) : m < Config.base ^ limbCount m := (limbCount_le_iff m _).1 le_rfl

theorem byteCount_le_four_limbs (m : Nat) : byteCount m ≤ 4 * limbCount m := by
  unfold byteCount limbCount
  simp only [Config.limbBits]
  omega

@[simp] theorem limbsOfNat_length (n m : Nat) : (limbsOfNat n m).length = n := by
  induction n generalizing m with
  | zero => rfl
  | succ n ih => simp [limbsOfNat, ih]

theorem natOfLimbs_lt (ls : List Limb) : natOfLimbs ls < Config.base ^ ls.length := by
  induction ls with
  | nil => simp [natOfLimbs]
  | cons l ls ih =>
    have hl := l.isLt
    simp only [natOfLimbs, List.length_cons, pow_succ, Config.base] at *
    omega

theorem natOfLimbs_limbsOfNat (n m : Nat) : natOfLimbs (limbsOfNat n m) = m % Config.base ^ n := by
  induction n generalizing m with
  | zero => simp [limbsOfNat, natOfLimbs, Nat.mod_one]
  | succ n ih =>
    rw [limbsOfNat, natOfLimbs, ih, pow_succ', Nat.mod_mul]
    simp [Config.base]

theorem limbsOfNat_natOfLimbs (ls : List Limb) : limbsOfNat ls.length (natOfLimbs ls) = ls := by
  induction ls with
  | nil => rfl
  | cons l ls ih =>
    have hl := l.isLt
    have hdiv : (l.toNat + Config.base * natOfLimbs ls) / Config.base = natOfLimbs ls := by
      simp only [Config.base]; omega
    have hmod : BitVec.ofNat 32 (l.toNat + Config.base * natOfLimbs ls) = l := by
      apply BitVec.eq_of_toNat_eq
      simp only [BitVec.toNat_ofNat, Config.base]; omega
    simp [limbsOfNat, natOfLimbs, hdiv, hmod, ih]

theorem natOfLimbs_append (xs ys : List Limb) :
    natOfLimbs (xs ++ ys) = natOfLimbs xs + Config.base ^ xs.length * natOfLimbs ys := by
  induction xs with
  | nil => simp [natOfLimbs]
  | cons x xs ih => simp only [List.cons_append, natOfLimbs, ih, List.length_cons, pow_succ']; ring

@[simp] theorem natOfLimbs_replicate_zero (n : Nat) : natOfLimbs (List.replicate n 0#32) = 0 := by
  induction n with
  | zero => rfl
  | succ n ih => simp [List.replicate_succ, natOfLimbs, ih]

theorem limbsOfNat_getElem (n m j : Nat) (h : j < n) :
    (limbsOfNat n m)[j]'(by simpa using h) = BitVec.ofNat 32 (m / Config.base ^ j) := by
  induction n generalizing m j with
  | zero => omega
  | succ n ih =>
    cases j with
    | zero => simp [limbsOfNat]
    | succ j =>
      simp only [limbsOfNat, List.getElem_cons_succ]
      rw [ih _ _ (by omega), Nat.div_div_eq_div_mul, pow_succ']

theorem limbCount_natOfLimbs_le (ls : List Limb) : limbCount (natOfLimbs ls) ≤ ls.length :=
  (limbCount_le_iff _ _).2 (natOfLimbs_lt ls)

@[simp] theorem leBytes_length (n m : Nat) : (leBytes n m).length = n := by
  induction n generalizing m with
  | zero => rfl
  | succ n ih => simp [leBytes, ih]

theorem leNat_leBytes (n m : Nat) : leNat (leBytes n m) = m % 256 ^ n := by
  induction n generalizing m with
  | zero => simp [leBytes, leNat, Nat.mod_one]
  | succ n ih =>
    rw [leBytes, leNat, ih, pow_succ', Nat.mod_mul]
    simp

theorem leNat_lt (bs : List Byte) : leNat bs < 256 ^ bs.length := by
  induction bs with
  | nil => simp [leNat]
  | cons b bs ih =>
    have hb := b.isLt
    simp only [leNat, List.length_cons, pow_succ] at *
    omega

@[simp] theorem natBe_length (m n : Nat) : (natBe m n).length = n := by simp [natBe]

/-- The buffer EXPORT writes spells the magnitude again (R107, R12). -/
theorem beNat_natBe (m n : Nat) : beNat (natBe m n) = m % 256 ^ n := by simp [beNat, natBe, leNat_leBytes]

theorem leNat_append (xs ys : List Byte) : leNat (xs ++ ys) = leNat xs + 256 ^ xs.length * leNat ys := by
  induction xs with
  | nil => simp [leNat]
  | cons x xs ih => simp only [List.cons_append, leNat, ih, List.length_cons, pow_succ']; ring

/-- `be_nat` by its most significant byte first. -/
theorem beNat_cons (b : Byte) (bs : List Byte) : beNat (b :: bs) = b.toNat * 256 ^ bs.length + beNat bs := by
  simp [beNat, leNat_append, leNat]; ring

theorem powModFuel_eq (n fuel a e : Nat) (h : e < 2 ^ fuel) : powModFuel n fuel a e = a ^ e % n := by
  induction fuel generalizing a e with
  | zero =>
    have : e = 0 := by simpa using h
    simp [powModFuel, this]
  | succ fuel ih =>
    have hhalf : powModFuel n fuel (a * a % n) (e / 2) = a ^ (2 * (e / 2)) % n := by
      rw [ih _ _ (by rw [pow_succ] at h; omega), ← Nat.pow_mod, pow_mul, pow_two]
    simp only [powModFuel, hhalf]
    split
    · next hodd =>
      have he : a ^ e = a * a ^ (2 * (e / 2)) := by
        rw [← pow_succ']; congr 1; omega
      rw [he, Nat.mul_mod, Nat.mod_mod, ← Nat.mul_mod]
    · next heven =>
      have he : 2 * (e / 2) = e := by omega
      rw [he]

/-- Squaring computes the power (R170). -/
theorem powMod_eq (a e n : Nat) : powMod a e n = a ^ e % n := by
  rw [powMod, powModFuel_eq _ _ _ _ ((bitlen_le_iff _ _).1 le_rfl), ← Nat.pow_mod]

theorem fmod_eq_emod (a b : Int) (hb : 0 < b) : fmod a b = a % b := by
  have h := Int.fdiv_eq_ediv_of_nonneg a hb.le
  have h2 := Int.emod_add_mul_ediv a b
  unfold fmod
  rw [h]
  linarith

/-- EXPMOD's result is the power reduced to `[0, N)` (R170). -/
theorem expMod_eq (a : Int) (e n : Nat) (hn : 0 < n) : expMod a e n = a ^ e % (n : Int) := by
  have hn' : (0 : Int) < n := by exact_mod_cast hn
  have h0 := Int.emod_nonneg a hn'.ne'
  unfold expMod
  rw [powMod_eq, fmod_eq_emod a n hn']
  push_cast
  rw [Int.toNat_of_nonneg h0]
  exact Int.ModEq.pow e (Int.mod_modEq a n)

theorem rrConst_eq (n : Nat) : (rrConst n : Int) = (Config.base : Int) ^ (2 * limbCount n) % (n : Int) := by
  unfold rrConst; push_cast; rfl

theorem tmod_eq (a b : Int) : tmod a b = Int.tmod a b := by
  have h := Int.tmod_add_mul_tdiv a b
  unfold tmod tdiv
  linarith

theorem tdiv_natAbs_le (a b : Int) : (tdiv a b).natAbs ≤ a.natAbs := by
  unfold tdiv
  rw [Int.natAbs_tdiv]
  exact Nat.div_le_self _ _

theorem tmod_natAbs_lt (a b : Int) (hb : b ≠ 0) : (tmod a b).natAbs < b.natAbs := by
  rw [tmod_eq, Int.natAbs_tmod]
  exact Nat.mod_lt _ (Int.natAbs_pos.2 hb)

end Sys2Proof.Machine
end

