-- ==== Sys2Proof/Laws/Engine.lean ====
section
/-! SUPPORT. Small lemmas about the engine: its limbs, and the constraints of R7 on its window width. -/

namespace Sys2Proof.Machine

/-- A limb sequence is its first limb, taken as 0 where absent, and the rest (R147). -/
theorem natOfLimbs_head_tail (xs : List Limb) : natOfLimbs xs = headLimb xs + Config.base * natOfLimbs xs.tail := by
  cases xs with
  | nil => rfl
  | cons x xs => rfl

theorem headLimb_lt (xs : List Limb) : headLimb xs < Config.base := (xs.headD 0).isLt

/-- Limb `j` of a number is limb `j` of its limb sequence (R24). -/
theorem limbAt_natOfLimbs (ls : List Limb) (j : Nat) : limbAt (natOfLimbs ls) j = (ls.getD j 0).toNat := by
  induction ls generalizing j with
  | nil => simp [limbAt, natOfLimbs]
  | cons l ls ih =>
    have hl := l.isLt
    cases j with
    | zero =>
      simp only [limbAt, natOfLimbs, pow_zero, Nat.div_one, Config.base, List.getD_cons_zero]
      omega
    | succ j =>
      have h : (l.toNat + Config.base * natOfLimbs ls) / Config.base = natOfLimbs ls := by
        simp only [Config.base]; omega
      rw [List.getD_cons_succ, ← ih, limbAt, natOfLimbs, pow_succ', ← Nat.div_div_eq_div_mul, h, limbAt]

/-- The sample widths lie in `1 .. 6` (R7, R180). -/
theorem sampleWindow_bounds (n : Nat) : 1 ≤ sampleWindow n ∧ sampleWindow n ≤ 6 := by
  unfold sampleWindow
  split_ifs <;> omega

/-- The sample widths do not decrease with the exponent's bit length (R7, R180). -/
theorem sampleWindow_mono {m n : Nat} (h : m ≤ n) : sampleWindow m ≤ sampleWindow n := by
  unfold sampleWindow
  split_ifs <;> omega

end Sys2Proof.Machine
end

