-- ==== Sys2Proof/Laws/State.lean ====
section
/-! SUPPORT. One lemma per field per update of State: what each shared update leaves in each field. -/

namespace Sys2Proof.Machine

section Updates

variable (s : State) (i j : RegNo) (r : MReg) (v : Int) (b : Bool)

@[simp] theorem setReg_status : (s.setReg i r).status = s.status := rfl
@[simp] theorem setReg_ecmd : (s.setReg i r).ecmd = s.ecmd := rfl
@[simp] theorem setReg_imm : (s.setReg i r).imm = s.imm := rfl
@[simp] theorem setReg_cnt : (s.setReg i r).cnt = s.cnt := rfl
@[simp] theorem setReg_baddr : (s.setReg i r).baddr = s.baddr := rfl
@[simp] theorem setReg_blen : (s.setReg i r).blen = s.blen := rfl
@[simp] theorem setReg_resn : (s.setReg i r).resn = s.resn := rfl
@[simp] theorem setReg_resw : (s.setReg i r).resw = s.resw := rfl
@[simp] theorem setReg_bmem : (s.setReg i r).bmem = s.bmem := rfl
@[simp] theorem setReg_params : (s.setReg i r).params = s.params := rfl
@[simp] theorem setReg_pending : (s.setReg i r).pending = s.pending := rfl
@[simp] theorem setReg_replies : (s.setReg i r).replies = s.replies := rfl
@[simp] theorem setReg_resetNo : (s.setReg i r).resetNo = s.resetNo := rfl
@[simp] theorem setReg_draws : (s.setReg i r).draws = s.draws := rfl
@[simp] theorem setReg_byteAt (a : Nat) : (s.setReg i r).byteAt a = s.byteAt a := rfl

/-- Registers share no storage (R23 (I-c)). -/
theorem setReg_reg : (s.setReg i r).reg j = if j = i then r else s.reg j := by
  simp only [State.reg, State.setReg, Fin.getElem_fin, Vector.getElem_set]
  by_cases h : j = i
  · simp [h]
  · have h2 : ¬ i.val = j.val := fun h' => h (Fin.ext h'.symm)
    simp [h, h2]

@[simp] theorem setReg_reg_self : (s.setReg i r).reg i = r := by simp [setReg_reg]

theorem setReg_reg_ne (h : j ≠ i) : (s.setReg i r).reg j = s.reg j := by simp [setReg_reg, h]

@[simp] theorem commit_status : (s.commit i v).status = s.status := rfl
@[simp] theorem commit_ecmd : (s.commit i v).ecmd = s.ecmd := rfl
@[simp] theorem commit_imm : (s.commit i v).imm = s.imm := rfl
@[simp] theorem commit_cnt : (s.commit i v).cnt = s.cnt := rfl
@[simp] theorem commit_baddr : (s.commit i v).baddr = s.baddr := rfl
@[simp] theorem commit_blen : (s.commit i v).blen = s.blen := rfl
@[simp] theorem commit_resn : (s.commit i v).resn = s.resn := rfl
@[simp] theorem commit_resw : (s.commit i v).resw = s.resw := rfl
@[simp] theorem commit_bmem : (s.commit i v).bmem = s.bmem := rfl
@[simp] theorem commit_params : (s.commit i v).params = s.params := rfl
@[simp] theorem commit_pending : (s.commit i v).pending = s.pending := rfl
@[simp] theorem commit_replies : (s.commit i v).replies = s.replies := rfl
@[simp] theorem commit_resetNo : (s.commit i v).resetNo = s.resetNo := rfl
@[simp] theorem commit_draws : (s.commit i v).draws = s.draws := rfl
@[simp] theorem commit_byteAt (a : Nat) : (s.commit i v).byteAt a = s.byteAt a := rfl

@[simp] theorem commit_reg_self : (s.commit i v).reg i = (s.reg i).commit v := by simp [State.commit]

theorem commit_reg_ne (h : j ≠ i) : (s.commit i v).reg j = s.reg j := by simp [State.commit, setReg_reg_ne, h]

@[simp] theorem commitIf_true : s.commitIf true i v = s.commit i v := rfl
@[simp] theorem commitIf_false : s.commitIf false i v = s := rfl
@[simp] theorem commitIf_status : (s.commitIf b i v).status = s.status := by cases b <;> rfl
@[simp] theorem commitIf_ecmd : (s.commitIf b i v).ecmd = s.ecmd := by cases b <;> rfl
@[simp] theorem commitIf_imm : (s.commitIf b i v).imm = s.imm := by cases b <;> rfl
@[simp] theorem commitIf_cnt : (s.commitIf b i v).cnt = s.cnt := by cases b <;> rfl
@[simp] theorem commitIf_baddr : (s.commitIf b i v).baddr = s.baddr := by cases b <;> rfl
@[simp] theorem commitIf_blen : (s.commitIf b i v).blen = s.blen := by cases b <;> rfl
@[simp] theorem commitIf_resn : (s.commitIf b i v).resn = s.resn := by cases b <;> rfl
@[simp] theorem commitIf_resw : (s.commitIf b i v).resw = s.resw := by cases b <;> rfl
@[simp] theorem commitIf_bmem : (s.commitIf b i v).bmem = s.bmem := by cases b <;> rfl
@[simp] theorem commitIf_params : (s.commitIf b i v).params = s.params := by cases b <;> rfl
@[simp] theorem commitIf_pending : (s.commitIf b i v).pending = s.pending := by cases b <;> rfl
@[simp] theorem commitIf_replies : (s.commitIf b i v).replies = s.replies := by cases b <;> rfl
@[simp] theorem commitIf_resetNo : (s.commitIf b i v).resetNo = s.resetNo := by cases b <;> rfl
@[simp] theorem commitIf_draws : (s.commitIf b i v).draws = s.draws := by cases b <;> rfl
@[simp] theorem commitIf_byteAt (a : Nat) : (s.commitIf b i v).byteAt a = s.byteAt a := by cases b <;> rfl

theorem commitIf_reg_ne (h : b = true → j ≠ i) : (s.commitIf b i v).reg j = s.reg j := by
  cases b
  · rfl
  · exact commit_reg_ne s i j v (h rfl)

end Updates

section StatusAndMemory

variable (s : State) (i : RegNo) (r : Int) (addr : Nat) (bytes : List Byte) (st : Status) (e : ErrCode)

@[simp] theorem setCmp_reg : (s.setCmp r).reg i = s.reg i := rfl
@[simp] theorem setCmp_ecmd : (s.setCmp r).ecmd = s.ecmd := rfl
@[simp] theorem setCmp_imm : (s.setCmp r).imm = s.imm := rfl
@[simp] theorem setCmp_cnt : (s.setCmp r).cnt = s.cnt := rfl
@[simp] theorem setCmp_baddr : (s.setCmp r).baddr = s.baddr := rfl
@[simp] theorem setCmp_blen : (s.setCmp r).blen = s.blen := rfl
@[simp] theorem setCmp_resn : (s.setCmp r).resn = s.resn := rfl
@[simp] theorem setCmp_resw : (s.setCmp r).resw = s.resw := rfl
@[simp] theorem setCmp_bmem : (s.setCmp r).bmem = s.bmem := rfl
@[simp] theorem setCmp_params : (s.setCmp r).params = s.params := rfl
@[simp] theorem setCmp_pending : (s.setCmp r).pending = s.pending := rfl
@[simp] theorem setCmp_replies : (s.setCmp r).replies = s.replies := rfl
@[simp] theorem setCmp_resetNo : (s.setCmp r).resetNo = s.resetNo := rfl
@[simp] theorem setCmp_draws : (s.setCmp r).draws = s.draws := rfl
@[simp] theorem setCmp_cmp : (s.setCmp r).status.cmp = cmpBits r := rfl
@[simp] theorem setCmp_fault : (s.setCmp r).status.fault = s.status.fault := rfl
@[simp] theorem setCmp_byteAt (a : Nat) : (s.setCmp r).byteAt a = s.byteAt a := rfl

@[simp] theorem memWrite_reg : (s.memWrite addr bytes).reg i = s.reg i := rfl
@[simp] theorem memWrite_status : (s.memWrite addr bytes).status = s.status := rfl
@[simp] theorem memWrite_ecmd : (s.memWrite addr bytes).ecmd = s.ecmd := rfl
@[simp] theorem memWrite_imm : (s.memWrite addr bytes).imm = s.imm := rfl
@[simp] theorem memWrite_cnt : (s.memWrite addr bytes).cnt = s.cnt := rfl
@[simp] theorem memWrite_baddr : (s.memWrite addr bytes).baddr = s.baddr := rfl
@[simp] theorem memWrite_blen : (s.memWrite addr bytes).blen = s.blen := rfl
@[simp] theorem memWrite_resn : (s.memWrite addr bytes).resn = s.resn := rfl
@[simp] theorem memWrite_resw : (s.memWrite addr bytes).resw = s.resw := rfl
@[simp] theorem memWrite_params : (s.memWrite addr bytes).params = s.params := rfl
@[simp] theorem memWrite_pending : (s.memWrite addr bytes).pending = s.pending := rfl
@[simp] theorem memWrite_replies : (s.memWrite addr bytes).replies = s.replies := rfl
@[simp] theorem memWrite_resetNo : (s.memWrite addr bytes).resetNo = s.resetNo := rfl
@[simp] theorem memWrite_draws : (s.memWrite addr bytes).draws = s.draws := rfl
@[simp] theorem memWrite_bmem : (s.memWrite addr bytes).bmem = s.bmem.writeBytes addr bytes := rfl

@[simp] theorem completed_busy : st.completed.busy = false := rfl
@[simp] theorem completed_err : st.completed.err = 0 := rfl
@[simp] theorem completed_fault : st.completed.fault = st.fault := rfl
@[simp] theorem completed_cmp : st.completed.cmp = st.cmp := rfl
@[simp] theorem faulted_busy : (st.faulted e).busy = false := rfl
@[simp] theorem faulted_err : (st.faulted e).err = e.code := rfl
@[simp] theorem faulted_fault : (st.faulted e).fault = true := rfl
@[simp] theorem faulted_cmp : (st.faulted e).cmp = st.cmp := rfl

end StatusAndMemory

end Sys2Proof.Machine
end

