-- ==== Sys2Proof/Laws/Memory.lean ====
section
/-! SUPPORT. Reading and writing BMEM: a read after a write, writes elsewhere, and that every write keeps the canonical
form (addresses strictly rising) and any bound on the addresses. -/

namespace Sys2Proof.Machine

/-- No address below the first listed one is listed. -/
theorem Memory.read_eq_none (mem : Memory) (x : Nat) (h : ∀ c ∈ mem, x < c.1) : Memory.read mem x = none := by
  induction mem with
  | nil => rfl
  | cons c mem ih =>
    have hx : x < c.1 := h c (by simp)
    rw [Memory.read, if_neg (by omega)]
    exact ih fun d hd => h d (by simp [hd])

/-- Read after write, in canonical memories or not. -/
theorem Memory.read_write (mem : Memory) (x y : Nat) (v : Byte) :
    Memory.read (Memory.write mem x v) y = if y = x then some v else Memory.read mem y := by
  induction mem with
  | nil => simp [Memory.write, Memory.read]
  | cons c mem ih =>
    obtain ⟨a, b⟩ := c
    by_cases h1 : x < a
    · simp [Memory.write, Memory.read, h1]
    · by_cases h2 : x = a
      · subst h2
        by_cases h3 : y = x <;> simp [Memory.write, Memory.read, h3]
      · by_cases h3 : y = x
        · subst h3
          simp [Memory.write, Memory.read, h1, h2, ih]
        · simp [Memory.write, Memory.read, h1, h2, h3, ih]

/-- The addresses listed after a write are those before and the one written. -/
theorem Memory.mem_write (mem : Memory) (x : Nat) (v : Byte) (c : Host.Cell) (h : c ∈ Memory.write mem x v) :
    c.1 = x ∨ c ∈ mem := by
  induction mem with
  | nil => simp_all [Memory.write]
  | cons d mem ih =>
    obtain ⟨a, b⟩ := d
    unfold Memory.write at h
    split at h
    · simp only [List.mem_cons] at h
      rcases h with rfl | h
      · exact .inl rfl
      · exact .inr (by simpa using h)
    · split at h
      · simp only [List.mem_cons] at h
        rcases h with rfl | h
        · exact .inl rfl
        · exact .inr (by simp [h])
      · simp only [List.mem_cons] at h
        rcases h with rfl | h
        · exact .inr (by simp)
        · exact (ih h).imp id fun h => by simp [h]

/-- A write keeps the canonical form. -/
theorem Memory.wf_write (mem : Memory) (x : Nat) (v : Byte) (h : Memory.wf mem) : Memory.wf (Memory.write mem x v) := by
  induction mem with
  | nil => simp [Memory.write, Memory.wf]
  | cons d mem ih =>
    obtain ⟨a, b⟩ := d
    have hd := List.pairwise_cons.1 h
    unfold Memory.write
    split
    · next h1 =>
      refine List.pairwise_cons.2 ⟨fun c hc => ?_, h⟩
      rcases List.mem_cons.1 hc with rfl | hc
      · exact h1
      · exact lt_trans h1 (hd.1 c hc)
    · split
      · next h2 => subst h2; exact List.pairwise_cons.2 hd
      · refine List.pairwise_cons.2 ⟨fun c hc => ?_, ih hd.2⟩
        rcases Memory.mem_write _ _ _ _ hc with hx | hc
        · simp only [hx]; omega
        · exact hd.1 c hc

theorem Memory.wf_writeBytes (mem : Memory) (x : Nat) (bs : List Byte) (h : Memory.wf mem) :
    Memory.wf (Memory.writeBytes mem x bs) := by
  induction bs generalizing mem x with
  | nil => exact h
  | cons b bs ih => exact ih _ _ (Memory.wf_write _ _ _ h)

/-- Writing bytes inside a bound keeps every listed address inside it. -/
theorem Memory.bounded_writeBytes (mem : Memory) (x n : Nat) (bs : List Byte) (h : ∀ c ∈ mem, c.1 < n)
    (hx : x + bs.length ≤ n) : ∀ c ∈ Memory.writeBytes mem x bs, c.1 < n := by
  induction bs generalizing mem x with
  | nil => exact h
  | cons b bs ih =>
    simp only [List.length_cons] at hx
    refine ih _ _ (fun c hc => ?_) (by omega)
    rcases Memory.mem_write _ _ _ _ hc with h' | h'
    · omega
    · exact h c h'

/-- MemWrite keeps the canonical form of BMEM, and reset has it. -/
theorem wf_memWrite (s : State) (addr : Nat) (bs : List Byte) (h : Memory.wf s.bmem) :
    Memory.wf (s.memWrite addr bs).bmem := Memory.wf_writeBytes _ _ _ h

theorem wf_reset : Memory.wf State.reset.bmem := List.Pairwise.nil

/-- Read after a write of a byte sequence. -/
theorem Memory.read_writeBytes (mem : Memory) (x y : Nat) (bs : List Byte) :
    Memory.read (Memory.writeBytes mem x bs) y =
      if x ≤ y ∧ y < x + bs.length then bs[y - x]? else Memory.read mem y := by
  induction bs generalizing mem x with
  | nil =>
    have : ¬ (x ≤ y ∧ y < x + ([] : List Byte).length) := by simp
    rw [if_neg this, Memory.writeBytes]
  | cons b bs ih =>
    rw [Memory.writeBytes, ih, Memory.read_write]
    simp only [List.length_cons]
    by_cases h1 : y = x
    · subst h1; simp
    · by_cases h2 : x + 1 ≤ y ∧ y < x + 1 + bs.length
      · have h3 : x ≤ y ∧ y < x + (bs.length + 1) := by omega
        have h4 : y - x = (y - (x + 1)) + 1 := by omega
        rw [if_pos h2, if_pos h3, h4, List.getElem?_cons_succ]
      · have h3 : ¬ (x ≤ y ∧ y < x + (bs.length + 1)) := by omega
        rw [if_neg h2, if_neg h3, if_neg h1]

/-- What BMEM holds after MemWrite: the bytes written inside the buffer, what it held elsewhere (R12). -/
theorem byteAt_memWrite (s : State) (addr a : Nat) (bs : List Byte) :
    (s.memWrite addr bs).byteAt a =
      if addr ≤ a ∧ a < addr + bs.length then bs.getD (a - addr) 0 else s.byteAt a := by
  simp only [State.byteAt, memWrite_bmem, memWrite_resetNo, Memory.read_writeBytes]
  by_cases h : addr ≤ a ∧ a < addr + bs.length
  · have h' : a - addr < bs.length := by omega
    simp only [h, and_self, if_true, List.getElem?_eq_getElem h', List.getD_eq_getElem?_getD, Option.getD_some]
  · simp only [h, if_false]

/-- MemRead of what MemWrite has just written is the bytes written (R12). -/
theorem memRead_memWrite (s : State) (addr : Nat) (bs : List Byte) :
    (s.memWrite addr bs).memRead addr bs.length = bs := by
  apply List.ext_getElem
  · simp [State.memRead]
  · intro i h1 h2
    simp [State.memRead, byteAt_memWrite, h2]

@[simp] theorem memRead_length (s : State) (addr n : Nat) : (s.memRead addr n).length = n := by simp [State.memRead]

end Sys2Proof.Machine
end

