-- ==== Sys2Proof/Laws/Ops.lean ====
section
/-! SUPPORT. One lemma per shared operation: what a commit leaves in its register, and everything that completion, fault
entry, `finish`, `divide` and EXPMOD's end can answer. -/

namespace Sys2Proof.Machine

/-- The commit primitive stores the value, whatever its size (R24). -/
@[simp] theorem MReg.commit_mag (r : MReg) (v : Int) : (r.commit v).mag = v.natAbs := by
  have h : v.natAbs < Config.base ^ max r.cap (limbCount v.natAbs) :=
    (limbCount_le_iff _ _).1 (le_max_right _ _)
  simp [MReg.mag, MReg.commit, natOfLimbs_limbsOfNat, Nat.mod_eq_of_lt h]

@[simp] theorem MReg.commit_val (r : MReg) (v : Int) : (r.commit v).val = v := by
  rw [MReg.val, MReg.commit_mag]
  by_cases h : v < 0
  · simp only [MReg.commit, Sign.ofInt, h, if_true, Sign.toInt]; omega
  · simp only [MReg.commit, Sign.ofInt, h, if_false, Sign.toInt]; omega

@[simp] theorem MReg.commit_cap (r : MReg) (v : Int) : (r.commit v).cap = max r.cap (limbCount v.natAbs) := by
  simp [MReg.cap, MReg.commit]

@[simp] theorem MReg.commit_sign (r : MReg) (v : Int) : (r.commit v).sign = Sign.ofInt v := rfl

/-- `mag < B^cap` (R28). -/
theorem MReg.mag_lt (r : MReg) : r.mag < Config.base ^ r.cap := natOfLimbs_lt r.limbs

theorem MReg.limbCount_mag_le (r : MReg) : limbCount r.mag ≤ r.cap := limbCount_natOfLimbs_le r.limbs

@[simp] theorem MReg.val_natAbs (r : MReg) : r.val.natAbs = r.mag := by
  unfold MReg.val
  cases r.sign <;> simp [Sign.toInt]

/-- GROW changes neither magnitude nor value (R102). -/
@[simp] theorem MReg.grow_mag (r : MReg) (n : Nat) : (r.grow n).mag = r.mag := by
  simp [MReg.mag, MReg.grow, natOfLimbs_append]

@[simp] theorem MReg.grow_sign (r : MReg) (n : Nat) : (r.grow n).sign = r.sign := rfl

@[simp] theorem MReg.grow_val (r : MReg) (n : Nat) : (r.grow n).val = r.val := by simp [MReg.val]

@[simp] theorem MReg.grow_cap (r : MReg) (n : Nat) : (r.grow n).cap = max r.cap n := by
  simp only [MReg.cap, MReg.grow, List.length_append, List.length_replicate]
  omega

theorem commit_val (s : State) (i : RegNo) (v : Int) : (s.commit i v).val i = v := by simp [State.val]

theorem commit_val_ne (s : State) (i j : RegNo) (v : Int) (h : j ≠ i) : (s.commit i v).val j = s.val j := by
  simp [State.val, commit_reg_ne, h]

/-- `finish` commits and completes, or raises ALLOC. -/
theorem finish_cases (s : State) (c : Word) (rd : RegNo) (v : Int) :
    (s.Fits v ∧ s.finish c rd v = (s.commit rd v).done) ∨
      (¬ s.Fits v ∧ s.finish c rd v = s.raise c .alloc) := by
  unfold State.finish
  by_cases h : s.Fits v
  · exact .inl ⟨h, if_pos h⟩
  · exact .inr ⟨h, if_neg h⟩

/-- `divide` raises BAD_INPUT, or DIV_BY_ZERO, or commits the enabled results. -/
theorem divide_cases (s : State) (c : Word) (qen ren : Bool) (rd re : RegNo) (a b : Int) :
    ((qen = true ∧ ren = true ∧ rd = re) ∧ s.divide c qen ren rd re a b = s.raise c .badInput) ∨
      (¬ (qen = true ∧ ren = true ∧ rd = re) ∧ b = 0 ∧ s.divide c qen ren rd re a b = s.raise c .divByZero) ∨
      (¬ (qen = true ∧ ren = true ∧ rd = re) ∧ b ≠ 0 ∧
        s.divide c qen ren rd re a b = ((s.commitIf qen rd (tdiv a b)).commitIf ren re (tmod a b)).done) := by
  unfold State.divide
  by_cases h1 : qen = true ∧ ren = true ∧ rd = re
  · exact .inl ⟨h1, if_pos h1⟩
  · by_cases h2 : b = 0
    · exact .inr (.inl ⟨h1, h2, by rw [if_neg h1, if_pos h2]⟩)
    · exact .inr (.inr ⟨h1, h2, by rw [if_neg h1, if_neg h2]⟩)

/-- Two enabled outputs in different registers hold the two results, whatever the sources were (R26, R153). -/
theorem commitIf_commitIf_val (s : State) (qen ren : Bool) (rd re : RegNo) (q r : Int)
    (h : ¬ (qen = true ∧ ren = true ∧ rd = re)) :
    (qen = true → ((s.commitIf qen rd q).commitIf ren re r).val rd = q) ∧
      (ren = true → ((s.commitIf qen rd q).commitIf ren re r).val re = r) := by
  constructor
  · rintro rfl
    cases ren
    · simp [commit_val]
    · have hne : rd ≠ re := fun h' => h ⟨rfl, rfl, h'⟩
      simp [commit_val_ne _ _ _ _ hne, commit_val]
  · rintro rfl
    simp [commit_val]

/-- The result of a free draw fits the ceiling (R173). -/
theorem drawInt_fits (s : State) : s.Fits s.drawInt := by
  have hb : 0 < Config.base ^ s.params.maxLimbs := Nat.pow_pos (by decide)
  rw [State.Fits, limbCount_le_iff, State.drawInt, Int.natAbs_tmod]
  have h : ((Config.base : Int) ^ s.params.maxLimbs).natAbs = Config.base ^ s.params.maxLimbs := by
    rw [Int.natAbs_pow]; rfl
  rw [h]
  exact Nat.mod_lt _ hb

/-- EXPMOD past its checks completes (R171): with a free draw in mode 1 with a constant that is not `RR`, else with the power
and, in mode 2, the constant. -/
theorem expmodCommit_cases (s : State) (mode : RRMode) (rd re ra : RegNo) (e n : Nat) :
    ((mode = .supplied ∧ s.val re ≠ rrConst n) ∧
        s.expmodCommit mode rd re ra e n = State.done { s.commit rd s.drawInt with draws := s.draws + 1 }) ∨
      (¬ (mode = .supplied ∧ s.val re ≠ rrConst n) ∧ s.expmodCommit mode rd re ra e n =
        ((s.commit rd (expMod (s.val ra) e n)).commitIf (mode = .stored) re (rrConst n)).done) := by
  unfold State.expmodCommit
  by_cases h : mode = .supplied ∧ s.val re ≠ rrConst n
  · exact .inl ⟨h, if_pos h⟩
  · exact .inr ⟨h, if_neg h⟩

/-- SHL's ceiling test in the form of R122's last words is the one on the shifted magnitude (R191). -/
theorem shiftFits_iff (s : State) (mag c : Nat) :
    s.ShiftFits mag c ↔ limbCount (mag * 2 ^ c) ≤ s.params.maxLimbs := by
  rw [limbCount_le_iff]
  have hb : Config.base ^ s.params.maxLimbs = 2 ^ (Config.limbBits * s.params.maxLimbs) := by
    rw [show Config.base = 2 ^ 32 from rfl, ← pow_mul]
  rw [hb]
  by_cases hm : mag = 0
  · simp [State.ShiftFits, hm]
  · simp only [State.ShiftFits, hm, false_or]
    constructor
    · intro h
      have h1 : mag < 2 ^ bitlen mag := (bitlen_le_iff _ _).1 le_rfl
      calc mag * 2 ^ c < 2 ^ bitlen mag * 2 ^ c := Nat.mul_lt_mul_of_pos_right h1 (by positivity)
        _ = 2 ^ (bitlen mag + c) := (pow_add _ _ _).symm
        _ ≤ _ := Nat.pow_le_pow_right (by norm_num) h
    · intro h
      by_contra hc
      have hpos : 0 < bitlen mag := Nat.pos_of_ne_zero fun h0 => hm ((bitlen_eq_zero _).1 h0)
      have h1 : 2 ^ (bitlen mag - 1) ≤ mag := (lt_bitlen_iff _ _).1 (by omega)
      have h2 : 2 ^ (bitlen mag - 1) * 2 ^ c ≤ mag * 2 ^ c := Nat.mul_le_mul_right _ h1
      rw [← pow_add] at h2
      have h3 : 2 ^ (Config.limbBits * s.params.maxLimbs) ≤ 2 ^ (bitlen mag - 1 + c) :=
        Nat.pow_le_pow_right (by norm_num) (by omega)
      omega

end Sys2Proof.Machine
end

