-- ==== Sys2Proof/Laws/Exec.lean ====
section
/-! SUPPORT. What the execution of a command can answer, said once: fault entry with the command's word and a code other than
OK, or the completion of a state that differs from the first only in what the command may write. -/

namespace Sys2Proof.Machine

/-- Every state keeps itself outside any write set. -/
theorem keeps_self (s : State) (w : Touch) : s.Keeps w s := by
  constructor <;> intros <;> rfl

/-- One command's result (R193, R195): the last clause of each arm of `exec`. -/
def Ends (s : State) (i : Instr) (o : Host.Outcome State Fault Refusal) : Prop :=
  (∃ e : ErrCode, e ≠ .ok ∧ o = s.raise (encode i) e) ∨ ∃ u : State, o = u.done ∧ s.Keeps (touched s i) u

theorem keeps_setReg (s : State) (i : RegNo) (r : MReg) (w : Touch) (h : i ∈ w.regs) : s.Keeps w (s.setReg i r) := by
  constructor <;> intros <;> first | rfl | skip
  next j hj => exact setReg_reg_ne s i j r fun h' => hj (h' ▸ h)

theorem keeps_commit (s : State) (i : RegNo) (v : Int) (w : Touch) (h : i ∈ w.regs) : s.Keeps w (s.commit i v) :=
  keeps_setReg s i _ w h

theorem keeps_commitIf_commitIf (s : State) (b c : Bool) (i j : RegNo) (v x : Int) (w : Touch)
    (hi : b = true → i ∈ w.regs) (hj : c = true → j ∈ w.regs) : s.Keeps w ((s.commitIf b i v).commitIf c j x) := by
  constructor <;> intros <;> try solve | simp
  next k hk =>
    rw [commitIf_reg_ne, commitIf_reg_ne]
    · exact fun hb hki => hk (hki ▸ hi hb)
    · exact fun hc hkj => hk (hkj ▸ hj hc)

theorem keeps_setCmp (s : State) (r : Int) (w : Touch) (h : w.cmp = true) : s.Keeps w (s.setCmp r) := by
  constructor <;> intros <;> first | rfl | simp_all

theorem finish_ends (s : State) (i : Instr) (rd : RegNo) (v : Int) (h : rd ∈ (touched s i).regs) :
    Ends s i (s.finish (encode i) rd v) := by
  rcases finish_cases s (encode i) rd v with ⟨-, h'⟩ | ⟨-, h'⟩
  · exact .inr ⟨_, h', keeps_commit s rd v _ h⟩
  · exact .inl ⟨.alloc, by decide, h'⟩

theorem divide_ends (s : State) (i : Instr) (qen ren : Bool) (rd re : RegNo) (a b : Int)
    (hq : qen = true → rd ∈ (touched s i).regs) (hr : ren = true → re ∈ (touched s i).regs) :
    Ends s i (s.divide (encode i) qen ren rd re a b) := by
  rcases divide_cases s (encode i) qen ren rd re a b with ⟨-, h⟩ | ⟨-, -, h⟩ | ⟨-, -, h⟩
  · exact .inl ⟨_, by decide, h⟩
  · exact .inl ⟨_, by decide, h⟩
  · exact .inr ⟨_, h, keeps_commitIf_commitIf _ _ _ _ _ _ _ _ hq hr⟩

theorem exportBuf_ends (s : State) (ra : RegNo) : Ends s (.exportBuf ra) (execExport ra s) := by
  unfold execExport
  split
  · next h =>
    have hb : s.blen = 0 := BitVec.eq_of_toNat_eq h
    refine .inr ⟨_, rfl, ?_⟩
    constructor <;> intros <;> first | rfl | simp_all [touched]
  · split
    · exact .inl ⟨_, by decide, rfl⟩
    · split
      · exact .inl ⟨_, by decide, rfl⟩
      · next h _ _ =>
        refine .inr ⟨_, rfl, ?_⟩
        constructor <;> intros <;> first | rfl | skip
        · next a ha => rw [byteAt_memWrite, if_neg]; simpa [touched, State.bufAddr, State.bufLen] using ha
        · next hl => exact absurd hl h

/-- EXPMOD: a fault, or the free value in mode 1 with a wrong constant, or the power and in mode 2 the constant. -/
theorem expmod_ends (s : State) (mode : RRMode) (rd re ra rb rc : RegNo) :
    Ends s (.expmod mode rd re ra rb rc) (execExpmod mode rd re ra rb rc s) := by
  unfold execExpmod
  iterate 5 (split; · exact .inl ⟨_, by decide, rfl⟩)
  rcases expmodCommit_cases s mode rd re ra (s.val rb).toNat (s.val rc).toNat with ⟨⟨rfl, -⟩, h⟩ | ⟨-, h⟩
  · refine .inr ⟨_, h, ?_⟩
    constructor <;> intros <;> first | rfl | skip
    · next j hj =>
      exact commit_reg_ne s rd j _ fun h' => hj (by simp [touched, h'])
    · next hd => simp [touched] at hd
  · exact .inr ⟨_, h, keeps_commitIf_commitIf s true _ rd re _ _ _ (by simp [touched]) (by simp +contextual [touched])⟩

/-- THE INVERSION OF `exec`: a command in any state ends in one of the two ways. -/
theorem exec_ends (i : Instr) (s : State) : Ends s i (exec i s) := by
  cases i with
  | init rd => exact .inr ⟨_, rfl, keeps_setReg s rd _ _ (by simp [touched])⟩
  | free rd => exact .inr ⟨_, rfl, keeps_setReg s rd _ _ (by simp [touched])⟩
  | grow rd =>
    simp only [exec, execGrow]
    split
    · exact .inr ⟨_, rfl, keeps_setReg s rd _ _ (by simp [touched])⟩
    · exact .inl ⟨_, by decide, rfl⟩
  | sets rd => exact .inr ⟨_, rfl, keeps_commit s rd _ _ (by simp [touched])⟩
  | copy rd ra => exact .inr ⟨_, rfl, keeps_commit s rd _ _ (by simp [touched])⟩
  | importBuf rd =>
    simp only [exec, execImport]
    split
    · exact finish_ends s (.importBuf rd) rd _ (by simp [touched])
    · exact .inl ⟨_, by decide, rfl⟩
  | exportBuf ra => exact exportBuf_ends s ra
  | bitlen ra => exact .inr ⟨_, rfl, by constructor <;> intros <;> first | rfl | simp_all [touched]⟩
  | size ra => exact .inr ⟨_, rfl, by constructor <;> intros <;> first | rfl | simp_all [touched]⟩
  | shl rd =>
    simp only [exec, execShl]
    split
    · exact .inr ⟨_, rfl, keeps_commit s rd _ _ (by simp [touched])⟩
    · exact .inl ⟨_, by decide, rfl⟩
  | shr rd => exact .inr ⟨_, rfl, keeps_commit s rd _ _ (by simp [touched])⟩
  | cmpabs ra rb => exact .inr ⟨_, rfl, keeps_setCmp s _ _ rfl⟩
  | cmp ra rb => exact .inr ⟨_, rfl, keeps_setCmp s _ _ rfl⟩
  | cmps ra => exact .inr ⟨_, rfl, keeps_setCmp s _ _ rfl⟩
  | addabs rd ra rb => exact finish_ends s (.addabs rd ra rb) rd _ (by simp [touched])
  | subabs rd ra rb =>
    simp only [exec, execSubabs]
    split
    · exact .inl ⟨_, by decide, rfl⟩
    · exact .inr ⟨_, rfl, keeps_commit s rd _ _ (by simp [touched])⟩
  | add rd ra rb => exact finish_ends s (.add rd ra rb) rd _ (by simp [touched])
  | sub rd ra rb => exact finish_ends s (.sub rd ra rb) rd _ (by simp [touched])
  | mul rd ra rb => exact finish_ends s (.mul rd ra rb) rd _ (by simp [touched])
  | muls rd ra => exact finish_ends s (.muls rd ra) rd _ (by simp [touched])
  | div qen ren rd re ra rb =>
    exact divide_ends s (.div qen ren rd re ra rb) qen ren rd re _ _ (by simp +contextual [touched])
      (by simp +contextual [touched])
  | divs qen ren rd re ra =>
    exact divide_ends s (.divs qen ren rd re ra) qen ren rd re _ _ (by simp +contextual [touched])
      (by simp +contextual [touched])
  | mod rd ra rb =>
    simp only [exec, execMod]
    split
    · exact .inl ⟨_, by decide, rfl⟩
    · split
      · exact .inl ⟨_, by decide, rfl⟩
      · exact .inr ⟨_, rfl, keeps_commit s rd _ _ (by simp [touched])⟩
  | mods ra =>
    simp only [exec, execMods]
    split
    · exact .inl ⟨_, by decide, rfl⟩
    · split
      · exact .inl ⟨_, by decide, rfl⟩
      · exact .inr ⟨_, rfl, by constructor <;> intros <;> first | rfl | simp_all [touched]⟩
  | expmod mode rd re ra rb rc => exact expmod_ends s mode rd re ra rb rc

end Sys2Proof.Machine
end

