-- ==== Sys2Proof/Laws/PerInstr.lean ====
section
/-! SUPPORT. The family `EncodingMatchesTable`: the word of every command has the opcode of a row of R83 and passes that
row's mask test. One lemma per constructor of Instr. -/

namespace Sys2Proof.Laws.EncodingMatchesTable

open Sys2Proof Sys2Proof.Machine

/-- The mask test distributes over the fields of R80. -/
theorem assemble_and (op : BitVec 8) (rd re ra rb rc : RegNo) (fl : BitVec 4) (mop : BitVec 8)
    (m1 m2 m3 m4 m5 m6 : BitVec 4) :
    assemble op rd re ra rb rc fl &&& (mop ++ m1 ++ m2 ++ m3 ++ m4 ++ m5 ++ m6) =
      (op &&& mop) ++ (fieldOfReg rd &&& m1) ++ (fieldOfReg re &&& m2) ++ (fieldOfReg ra &&& m3) ++
        (fieldOfReg rb &&& m4) ++ (fieldOfReg rc &&& m5) ++ (fl &&& m6) := by
  have append_and {m n : Nat} (a b : BitVec m) (c d : BitVec n) : (a ++ c) &&& (b ++ d) = (a &&& b) ++ (c &&& d) :=
    BitVec.and_append
  exact (append_and _ _ _ _).trans (by rw [append_and, append_and, append_and, append_and, append_and])

/-- What the family says of a command: some row of R83 has its word's opcode, and the word passes the row's test
`(word & mask) = match`. -/
def Statement (i : Instr) : Prop :=
  ∃ row ∈ tableR83, row.1 = opField (encode i) ∧ encode i &&& row.2.1 = row.2.2

/-- A row whose *mask* asks for the whole opcode and for zero in some whole fields, and whose *match* is the opcode, is
passed by every word of that opcode with zero in those fields. -/
theorem passes (op : BitVec 8) (rd re ra rb rc : RegNo) (fl m1 m2 m3 m4 m5 m6 : BitVec 4) (mask pattern : Word)
    (hmask : mask = 0xFF#8 ++ m1 ++ m2 ++ m3 ++ m4 ++ m5 ++ m6)
    (hpattern : pattern = op ++ 0#4 ++ 0#4 ++ 0#4 ++ 0#4 ++ 0#4 ++ 0#4)
    (h1 : fieldOfReg rd &&& m1 = 0) (h2 : fieldOfReg re &&& m2 = 0) (h3 : fieldOfReg ra &&& m3 = 0)
    (h4 : fieldOfReg rb &&& m4 = 0) (h5 : fieldOfReg rc &&& m5 = 0) (h6 : fl &&& m6 = 0) :
    assemble op rd re ra rb rc fl &&& mask = pattern := by
  have hop : op &&& 0xFF#8 = op := BitVec.and_allOnes
  rw [hmask, hpattern, assemble_and, h1, h2, h3, h4, h5, h6, hop]
  rfl

section Rows

variable (rd re ra rb rc : RegNo)

theorem init : Statement (.init rd) :=
  ⟨(0x01, 0xFF0FFFFF, 0x01000000), by decide, (opField_assemble ..).symm,
    passes _ _ _ _ _ _ _ 0 15 15 15 15 15 _ _ rfl rfl BitVec.and_zero rfl rfl rfl rfl rfl⟩

theorem free : Statement (.free rd) :=
  ⟨(0x02, 0xFF0FFFFF, 0x02000000), by decide, (opField_assemble ..).symm,
    passes _ _ _ _ _ _ _ 0 15 15 15 15 15 _ _ rfl rfl BitVec.and_zero rfl rfl rfl rfl rfl⟩

theorem grow : Statement (.grow rd) :=
  ⟨(0x03, 0xFF0FFFFF, 0x03000000), by decide, (opField_assemble ..).symm,
    passes _ _ _ _ _ _ _ 0 15 15 15 15 15 _ _ rfl rfl BitVec.and_zero rfl rfl rfl rfl rfl⟩

theorem sets : Statement (.sets rd) :=
  ⟨(0x04, 0xFF0FFFFF, 0x04000000), by decide, (opField_assemble ..).symm,
    passes _ _ _ _ _ _ _ 0 15 15 15 15 15 _ _ rfl rfl BitVec.and_zero rfl rfl rfl rfl rfl⟩

theorem copy : Statement (.copy rd ra) :=
  ⟨(0x05, 0xFF0F0FFF, 0x05000000), by decide, (opField_assemble ..).symm,
    passes _ _ _ _ _ _ _ 0 15 0 15 15 15 _ _ rfl rfl BitVec.and_zero rfl BitVec.and_zero rfl rfl rfl⟩

theorem importBuf : Statement (.importBuf rd) :=
  ⟨(0x06, 0xFF0FFFFF, 0x06000000), by decide, (opField_assemble ..).symm,
    passes _ _ _ _ _ _ _ 0 15 15 15 15 15 _ _ rfl rfl BitVec.and_zero rfl rfl rfl rfl rfl⟩

theorem exportBuf : Statement (.exportBuf ra) :=
  ⟨(0x07, 0xFFFF0FFF, 0x07000000), by decide, (opField_assemble ..).symm,
    passes _ _ _ _ _ _ _ 15 15 0 15 15 15 _ _ rfl rfl rfl rfl BitVec.and_zero rfl rfl rfl⟩

theorem bitlen : Statement (.bitlen ra) :=
  ⟨(0x10, 0xFFFF0FFF, 0x10000000), by decide, (opField_assemble ..).symm,
    passes _ _ _ _ _ _ _ 15 15 0 15 15 15 _ _ rfl rfl rfl rfl BitVec.and_zero rfl rfl rfl⟩

theorem size : Statement (.size ra) :=
  ⟨(0x11, 0xFFFF0FFF, 0x11000000), by decide, (opField_assemble ..).symm,
    passes _ _ _ _ _ _ _ 15 15 0 15 15 15 _ _ rfl rfl rfl rfl BitVec.and_zero rfl rfl rfl⟩

theorem shl : Statement (.shl rd) :=
  ⟨(0x12, 0xFF0FFFFF, 0x12000000), by decide, (opField_assemble ..).symm,
    passes _ _ _ _ _ _ _ 0 15 15 15 15 15 _ _ rfl rfl BitVec.and_zero rfl rfl rfl rfl rfl⟩

theorem shr : Statement (.shr rd) :=
  ⟨(0x13, 0xFF0FFFFF, 0x13000000), by decide, (opField_assemble ..).symm,
    passes _ _ _ _ _ _ _ 0 15 15 15 15 15 _ _ rfl rfl BitVec.and_zero rfl rfl rfl rfl rfl⟩

theorem cmpabs : Statement (.cmpabs ra rb) :=
  ⟨(0x14, 0xFFFF00FF, 0x14000000), by decide, (opField_assemble ..).symm,
    passes _ _ _ _ _ _ _ 15 15 0 0 15 15 _ _ rfl rfl rfl rfl BitVec.and_zero BitVec.and_zero rfl rfl⟩

theorem cmp : Statement (.cmp ra rb) :=
  ⟨(0x15, 0xFFFF00FF, 0x15000000), by decide, (opField_assemble ..).symm,
    passes _ _ _ _ _ _ _ 15 15 0 0 15 15 _ _ rfl rfl rfl rfl BitVec.and_zero BitVec.and_zero rfl rfl⟩

theorem cmps : Statement (.cmps ra) :=
  ⟨(0x16, 0xFFFF0FFF, 0x16000000), by decide, (opField_assemble ..).symm,
    passes _ _ _ _ _ _ _ 15 15 0 15 15 15 _ _ rfl rfl rfl rfl BitVec.and_zero rfl rfl rfl⟩

theorem addabs : Statement (.addabs rd ra rb) :=
  ⟨(0x20, 0xFF0F00FF, 0x20000000), by decide, (opField_assemble ..).symm,
    passes _ _ _ _ _ _ _ 0 15 0 0 15 15 _ _ rfl rfl BitVec.and_zero rfl BitVec.and_zero BitVec.and_zero rfl rfl⟩

theorem subabs : Statement (.subabs rd ra rb) :=
  ⟨(0x21, 0xFF0F00FF, 0x21000000), by decide, (opField_assemble ..).symm,
    passes _ _ _ _ _ _ _ 0 15 0 0 15 15 _ _ rfl rfl BitVec.and_zero rfl BitVec.and_zero BitVec.and_zero rfl rfl⟩

theorem add : Statement (.add rd ra rb) :=
  ⟨(0x22, 0xFF0F00FF, 0x22000000), by decide, (opField_assemble ..).symm,
    passes _ _ _ _ _ _ _ 0 15 0 0 15 15 _ _ rfl rfl BitVec.and_zero rfl BitVec.and_zero BitVec.and_zero rfl rfl⟩

theorem sub : Statement (.sub rd ra rb) :=
  ⟨(0x23, 0xFF0F00FF, 0x23000000), by decide, (opField_assemble ..).symm,
    passes _ _ _ _ _ _ _ 0 15 0 0 15 15 _ _ rfl rfl BitVec.and_zero rfl BitVec.and_zero BitVec.and_zero rfl rfl⟩

theorem mul : Statement (.mul rd ra rb) :=
  ⟨(0x24, 0xFF0F00FF, 0x24000000), by decide, (opField_assemble ..).symm,
    passes _ _ _ _ _ _ _ 0 15 0 0 15 15 _ _ rfl rfl BitVec.and_zero rfl BitVec.and_zero BitVec.and_zero rfl rfl⟩

theorem muls : Statement (.muls rd ra) :=
  ⟨(0x25, 0xFF0F0FFF, 0x25000000), by decide, (opField_assemble ..).symm,
    passes _ _ _ _ _ _ _ 0 15 0 15 15 15 _ _ rfl rfl BitVec.and_zero rfl BitVec.and_zero rfl rfl rfl⟩

theorem div (qen ren : Bool) : Statement (.div qen ren rd re ra rb) :=
  ⟨(0x26, 0xFF0000FC, 0x26000000), by decide, (opField_assemble ..).symm,
    passes _ _ _ _ _ _ _ 0 0 0 0 15 12 _ _ rfl rfl BitVec.and_zero BitVec.and_zero BitVec.and_zero BitVec.and_zero rfl
      (by cases qen <;> cases ren <;> rfl)⟩

theorem divs (qen ren : Bool) : Statement (.divs qen ren rd re ra) :=
  ⟨(0x27, 0xFF000FFC, 0x27000000), by decide, (opField_assemble ..).symm,
    passes _ _ _ _ _ _ _ 0 0 0 15 15 12 _ _ rfl rfl BitVec.and_zero BitVec.and_zero BitVec.and_zero rfl rfl
      (by cases qen <;> cases ren <;> rfl)⟩

theorem mod : Statement (.mod rd ra rb) :=
  ⟨(0x28, 0xFF0F00FF, 0x28000000), by decide, (opField_assemble ..).symm,
    passes _ _ _ _ _ _ _ 0 15 0 0 15 15 _ _ rfl rfl BitVec.and_zero rfl BitVec.and_zero BitVec.and_zero rfl rfl⟩

theorem mods : Statement (.mods ra) :=
  ⟨(0x29, 0xFFFF0FFF, 0x29000000), by decide, (opField_assemble ..).symm,
    passes _ _ _ _ _ _ _ 15 15 0 15 15 15 _ _ rfl rfl rfl rfl BitVec.and_zero rfl rfl rfl⟩

theorem expmod (mode : RRMode) : Statement (.expmod mode rd re ra rb rc) :=
  ⟨(0x30, 0xFF00000C, 0x30000000), by decide, (opField_assemble ..).symm,
    passes _ _ _ _ _ _ _ 0 0 0 0 0 12 _ _ rfl rfl BitVec.and_zero BitVec.and_zero BitVec.and_zero BitVec.and_zero BitVec.and_zero
      (by cases mode <;> rfl)⟩

end Rows

end Sys2Proof.Laws.EncodingMatchesTable
end

