-- ==== Sys2Proof/Laws/Port.lean ====
section
/-! SUPPORT. The window: where its places are, what the port does with each kind of access to each place, and how a step
reaches the port. -/

namespace Sys2Proof.Machine

/-! ### The address map -/

/-- Every scalar register stands at its offset (R34). -/
theorem placeAt_offset (s : State) (r : ScalarReg) : s.placeAt r.offset = .scalar r := by
  cases r <;> rfl

/-- The bytes of BMEM stand from offset 0x1000 on (R34). -/
theorem placeAt_bmem (s : State) (a : Nat) (h : a < s.params.bufBytes) : s.placeAt (bmemBase + a) = .bmem a := by
  have h1 : bmemBase ≤ bmemBase + a := Nat.le_add_right _ _
  have h2 : bmemBase + a < bmemBase + s.params.bufBytes := Nat.add_lt_add_left h _
  rw [State.placeAt, if_pos h1, if_pos h2, Nat.add_sub_cancel_left]

/-- No scalar register begins at an offset that is not a multiple of 4 or is past 0x030. -/
theorem ofOffset_eq_none (o : Nat) (h : 0x34 ≤ o ∨ o % 4 ≠ 0) : ScalarReg.ofOffset o = none := by
  unfold ScalarReg.ofOffset
  split <;> first | rfl | (exfalso; omega)

theorem offset_of_ofOffset (o : Nat) (r : ScalarReg) (h : ScalarReg.ofOffset o = some r) : r.offset = o := by
  unfold ScalarReg.ofOffset at h
  split at h <;> cases h <;> rfl

/-- A place that is a scalar register is at that register's offset. -/
theorem offset_of_placeAt (s : State) (o : Nat) (r : ScalarReg) (h : s.placeAt o = .scalar r) : r.offset = o := by
  unfold State.placeAt at h
  by_cases h1 : bmemBase ≤ o
  · rw [if_pos h1] at h
    split at h <;> cases h
  · rw [if_neg h1] at h
    cases h2 : ScalarReg.ofOffset o with
    | some r' =>
      rw [h2] at h
      cases h
      exact offset_of_ofOffset o r h2
    | none =>
      rw [h2] at h
      dsimp only at h
      split at h <;> cases h

/-- An offset that is a multiple of 4 up to 0x030 is some scalar register's. -/
theorem exists_offset_eq (o : Nat) (h4 : o % 4 = 0) (ho : o ≤ 0x030) : ∃ r : ScalarReg, r.offset = o := by
  have h : ∀ k, k < 13 → ∃ r ∈ [ScalarReg.cmd, .status, .ctrl, .ecmd, .imm, .cnt, .baddr, .blen, .resn, .resw, .maxlimbs,
      .geom, .bufsz], r.offset = 4 * k := by decide
  obtain ⟨r, -, hr⟩ := h (o / 4) (by omega)
  exact ⟨r, by omega⟩

/-- A place in BMEM is one of its bytes. -/
theorem lt_of_placeAt_bmem (s : State) (o addr : Nat) (h : s.placeAt o = .bmem addr) : addr < s.params.bufBytes := by
  unfold State.placeAt at h
  by_cases h1 : bmemBase ≤ o
  · rw [if_pos h1] at h
    by_cases h2 : o < bmemBase + s.params.bufBytes
    · rw [if_pos h2] at h
      have h3 : o - bmemBase = addr := Place.bmem.inj h
      omega
    · rw [if_neg h2] at h
      cases h
  · rw [if_neg h1] at h
    cases h2 : ScalarReg.ofOffset o <;> rw [h2] at h <;> dsimp only at h
    · split at h <;> cases h
    · cases h

theorem placeAt_insideWord (s : State) (o : Nat) (h : o < 0x34) (h4 : o % 4 ≠ 0) : s.placeAt o = .insideWord := by
  have h1 : ¬ bmemBase ≤ o := by simp only [bmemBase]; omega
  rw [State.placeAt, if_neg h1, ofOffset_eq_none o (.inr h4)]
  exact if_pos h

/-- The holes of the map (R47, U8). -/
theorem placeAt_nowhere (s : State) (o : Nat) (h : (0x34 ≤ o ∧ o < 0x1000) ∨ 0x1000 + s.params.bufBytes ≤ o) :
    s.placeAt o = .nowhere := by
  rcases h with ⟨h1, h2⟩ | h
  · have h3 : ¬ bmemBase ≤ o := by simp only [bmemBase]; omega
    rw [State.placeAt, if_neg h3, ofOffset_eq_none o (.inl h1)]
    exact if_neg (by omega)
  · have h3 : bmemBase ≤ o := by simp only [bmemBase]; omega
    have h4 : ¬ o < bmemBase + s.params.bufBytes := by simp only [bmemBase]; omega
    rw [State.placeAt, if_pos h3, if_neg h4]

/-! ### Accesses -/

@[simp] theorem access_write32 (s : State) (r : ScalarReg) (v : Word) :
    s.access (.write32 r.offset v) = s.writeScalar v r := by
  simp only [State.access, placeAt_offset]

@[simp] theorem access_read32 (s : State) (r : ScalarReg) :
    s.access (.read32 r.offset) = .next { s with replies := .word (s.readScalar r) :: s.replies } := by
  simp only [State.access, placeAt_offset]

theorem access_write8 (s : State) (a : Nat) (v : Byte) (h : a < s.params.bufBytes) :
    s.access (.write8 (bmemBase + a) v) = .next (s.memWrite a [v]) := by
  simp only [State.access, placeAt_bmem s a h]

theorem access_read8 (s : State) (a : Nat) (h : a < s.params.bufBytes) :
    s.access (.read8 (bmemBase + a)) = .next { s with replies := .byte (s.byteAt a) :: s.replies } := by
  simp only [State.access, placeAt_bmem s a h]

/-- While the unit is idle an action is the access it names. -/
theorem perform_idle (s : State) (a : Action) (h : s.status.busy = false) : s.perform a = s.access a := by
  simp [State.perform, h]

/-- Everything an action can be, and what it leaves: the issue of a word, an acknowledge, a change of one operand register or
of one byte of BMEM inside it, a reply, nothing, or reset. -/
theorem access_cases (s t : State) (a : Action) (h : s.access a = .next t) :
    (∃ w, a = .write32 0x000 w ∧ s.issue w = .next t) ∨
    (∃ v : Word, a = .write32 0x008 v ∧ v.getLsbD 0 = true ∧ t = s.ack) ∨
    (∃ imm cnt baddr blen, t = { s with imm := imm, cnt := cnt, baddr := baddr, blen := blen }) ∨
    (∃ addr v, addr < s.params.bufBytes ∧ t = s.memWrite addr [v]) ∨
    (∃ r, t = { s with replies := r :: s.replies }) ∨
    (a = .reset ∧ t = s.applyReset) := by
  cases a with
  | write32 o v =>
    simp only [State.access] at h
    split at h
    · next r hr =>
      have hro := (offset_of_placeAt s o r hr).symm
      subst hro
      cases r <;> simp only [State.writeScalar] at h
      case cmd => exact .inl ⟨v, rfl, h⟩
      case ctrl =>
        by_cases hv : v.getLsbD 0
        · rw [if_pos hv] at h; cases h
          exact .inr (.inl ⟨v, rfl, hv, rfl⟩)
        · rw [if_neg hv] at h; cases h
          exact .inr (.inr (.inl ⟨_, _, _, _, rfl⟩))
      all_goals (cases h; exact .inr (.inr (.inl ⟨_, _, _, _, rfl⟩)))
    all_goals cases h
  | read32 o =>
    simp only [State.access] at h
    split at h <;> cases h
    exact .inr (.inr (.inr (.inr (.inl ⟨_, rfl⟩))))
  | write8 o v =>
    simp only [State.access] at h
    split at h <;> cases h
    next addr hp => exact .inr (.inr (.inr (.inl ⟨addr, v, lt_of_placeAt_bmem s o addr hp, rfl⟩)))
  | read8 o =>
    simp only [State.access] at h
    split at h <;> cases h
    exact .inr (.inr (.inr (.inr (.inl ⟨_, rfl⟩))))
  | reset => cases h; exact .inr (.inr (.inr (.inr (.inr ⟨rfl, rfl⟩))))

/-- A step with an action pending performs it and uses it up. -/
theorem step_cons (s : State) (a : Action) (rest : List Action) (h : s.pending = a :: rest) :
    step s = State.perform { s with pending := rest } a := by
  simp only [step, h]

/-- A step of an idle unit is the access it performs. -/
theorem step_idle (s : State) (a : Action) (rest : List Action) (hb : s.status.busy = false) (hp : s.pending = a :: rest) :
    step s = State.access { s with pending := rest } a := by
  rw [step_cons s a rest hp]
  exact perform_idle _ a hb

end Sys2Proof.Machine
end

