-- ==== Sys2Proof/Tests/Slice0.lean ====
section
/-! SUPPORT. The model's own tests. Expected words and results are the spec's examples (the *Example* parts of the instruction
rules, the tables of R152 and R181) or are written out from R83 and R35; nothing is copied from the model's answers. The last
part holds, for every obligation with hypotheses, a concrete state and operands that meet them. -/

namespace Sys2Proof.Tests

open Sys2Proof Sys2Proof.Machine

/-! ### Small states -/

/-- A unit of the sample configuration CFG_TINY (R7) right after reset. -/
def tiny : State := { State.reset with params := Config.cfgTiny }

/-- A unit of CFG_REF right after reset. -/
def large : State := { State.reset with params := Config.cfgRef }

/-- `M1 = a`, `M2 = b` on CFG_TINY. -/
def two (a b : Int) : State := (tiny.commit 1 a).commit 2 b

/-- `two` with IMM written. -/
def withImm (s : State) (v : Word) : State := { s with imm := v }

/-- CNT written. -/
def withCnt (s : State) (v : Word) : State := { s with cnt := v }

/-- The buffer registers written. -/
def withBuf (s : State) (addr len : Word) : State := { s with baddr := addr, blen := len }

/-- The host's next action. -/
def next (s : State) (a : Action) : State := { s with pending := [a] }

/-- The unit with FAULT = 1, code ALLOC. -/
def faulted : State := tiny.faultRecord 0x03200000 .alloc

/-- The outcome is a next state of which a check holds. -/
def answers (o : Host.Outcome State Fault Refusal) (check : State → Bool) : Bool :=
  match o with
  | .next t => check t
  | .fault _ => false
  | .refused _ => false

/-- The outcome is a next state with this error code. -/
def endsWith (o : Host.Outcome State Fault Refusal) (e : ErrCode) : Bool := answers o fun t => t.status.err == e.code

/-! ### WellFormed: the one check refuses its ill-formed term (R86, R87 (c)) -/

theorem test_wellFormed_refuses_the_reserved_mode : ¬ (Instr.expmod .reserved 0 4 1 2 3).WellFormed := by decide

theorem test_wellFormed_accepts_the_other_modes : ∀ m ∈ [RRMode.absent, .supplied, .stored],
    (Instr.expmod m 0 4 1 2 3).WellFormed := by decide

/-! ### Decoding: a word of every constructor, from the rules' examples and R83 -/

theorem test_decode_storage :
    decode 0x01300000 = .command (.init 3) ∧ decode 0x02F00000 = .command (.free 15) ∧
    decode 0x03200000 = .command (.grow 2) ∧ decode 0x04100000 = .command (.sets 1) ∧
    decode 0x05401000 = .command (.copy 4 1) ∧ decode 0x06000000 = .command (.importBuf 0) ∧
    decode 0x07000000 = .command (.exportBuf 0) ∧ decode 0x0700E000 = .command (.exportBuf 14) := by decide

theorem test_decode_compare_bits :
    decode 0x10005000 = .command (.bitlen 5) ∧ decode 0x11005000 = .command (.size 5) ∧
    decode 0x12600000 = .command (.shl 6) ∧ decode 0x13600000 = .command (.shr 6) ∧
    decode 0x14001200 = .command (.cmpabs 1 2) ∧ decode 0x15001200 = .command (.cmp 1 2) ∧
    decode 0x16001000 = .command (.cmps 1) := by decide

theorem test_decode_arithmetic :
    decode 0x20301200 = .command (.addabs 3 1 2) ∧ decode 0x21301200 = .command (.subabs 3 1 2) ∧
    decode 0x22301200 = .command (.add 3 1 2) ∧ decode 0x23301200 = .command (.sub 3 1 2) ∧
    decode 0x24301200 = .command (.mul 3 1 2) ∧ decode 0x25301000 = .command (.muls 3 1) ∧
    decode 0x26341203 = .command (.div true true 3 4 1 2) ∧ decode 0x26301201 = .command (.div true false 3 0 1 2) ∧
    decode 0x27341003 = .command (.divs true true 3 4 1) ∧ decode 0x28301200 = .command (.mod 3 1 2) ∧
    decode 0x29001000 = .command (.mods 1) := by decide

theorem test_decode_modexp :
    decode 0x30001230 = .command (.expmod .absent 0 0 1 2 3) ∧ decode 0x30041231 = .command (.expmod .supplied 0 4 1 2 3) ∧
    decode 0x30041232 = .command (.expmod .stored 0 4 1 2 3) := by decide

/-- Bit by bit after R80: op 0x26, rd 3, re 4, ra 1, rb 2, rc 0, fl 0b11, the first of R90's two examples. -/
theorem test_decode_bit_by_bit :
    decode 0b00100110001101000001001000000011 = .command (.div true true 3 4 1 2) := by decide

/-- The three kinds of illegal word (R87). -/
theorem test_decode_illegal :
    decode 0 = .illegal .undefinedOpcode ∧ decode 0xFFFFFFFF = .illegal .undefinedOpcode ∧
    decode 0x08000000 = .illegal .undefinedOpcode ∧ decode 0x26341213 = .illegal .fieldNotZero ∧
    decode 0x26341207 = .illegal .fieldNotZero ∧ decode 0x01300001 = .illegal .fieldNotZero ∧
    decode 0x30041233 = .illegal .reservedRRMode ∧ decode 0x30041237 = .illegal .fieldNotZero := by decide

theorem test_decodeTableWord : decodeTableWord 32 0x22301200 = some (.add 3 1 2) ∧ decodeTableWord 32 0 = none := by decide

theorem test_encode : encode (.div true true 3 4 1 2) = 0x26341203 ∧ encode (.expmod .stored 0 4 1 2 3) = 0x30041232 ∧
    encode (canonical (.div true false 3 9 1 2)) = 0x26301201 := by decide

theorem test_asmText : asmText (.div true false 3 4 1 2) = "DIV M3, -, M1, M2" ∧
    asmText (.expmod .stored 0 4 1 2 3) = "EXPMOD M0, M1, M2, M3, rr!=M4" := by decide

/-! ### Storage commands -/

theorem test_init : answers (exec (.init 3) ((tiny.commit 3 (-5)).setReg 3 ⟨.minus, [5, 0]⟩))
    (fun t => t.val 3 == 0 && (t.reg 3).cap == 0 && (t.reg 3).sign == .plus) = true := by decide

theorem test_free : answers (exec (.free 15) (tiny.commit 15 (2 ^ 40)))
    (fun t => t.val 15 == 0 && (t.reg 15).cap == 0) = true := by decide

theorem test_grow : answers (exec (.grow 2) (withCnt (large.commit 2 7) 8))
    (fun t => t.val 2 == 7 && (t.reg 2).cap == 8) = true := by decide

theorem test_grow_over_the_ceiling : answers (exec (.grow 2) (withCnt (tiny.commit 2 7) 8))
    (fun t => t.status.err == 1 && t.status.fault && t.ecmd == 0x03200000 && t.val 2 == 7 && (t.reg 2).cap == 1) = true := by
  decide

theorem test_sets : answers (exec (.sets 1) (withImm tiny 0xFFFFFFF9))
    (fun t => t.val 1 == -7 && (t.reg 1).sign == .minus && (t.reg 1).limbs == [7]) = true := by decide

theorem test_sets_most_negative : answers (exec (.sets 1) (withImm tiny 0x80000000))
    (fun t => (t.reg 1).sign == .minus && (t.reg 1).limbs == [0x80000000]) = true := by decide

theorem test_copy : answers (exec (.copy 4 1) ((large.setReg 1 ⟨.minus, [5, 1, 0, 0, 0, 0]⟩).commit 4 9))
    (fun t => t.val 4 == -(2 ^ 32 + 5) && (t.reg 4).cap == 2 && t.val 1 == -(2 ^ 32 + 5) && (t.reg 1).cap == 6) = true := by
  decide

theorem test_import : answers (exec (.importBuf 0) (withBuf (tiny.memWrite 0 [0x01, 0x00]) 0 2))
    (fun t => t.val 0 == 256) = true := by decide

theorem test_import_out_of_range : endsWith (exec (.importBuf 0) (withBuf tiny 63 2)) .badInput = true := by decide

/-- `M0 = 256` exported with BLEN = 4 at address 8 (R107). -/
theorem test_export : answers (exec (.exportBuf 0) (withBuf (tiny.commit 0 256) 8 4))
    (fun t => t.bmem == [(8, 0x00), (9, 0x00), (10, 0x01), (11, 0x00)] && t.blen == 4) = true := by decide

theorem test_export_query_and_too_small :
    answers (exec (.exportBuf 0) (withBuf (tiny.commit 0 256) 8 0)) (fun t => t.blen == 2 && t.bmem == []) = true ∧
    endsWith (exec (.exportBuf 0) (withBuf (tiny.commit 0 256) 8 1)) .bufferTooSmall = true := by decide

/-! ### Comparison and bit commands -/

theorem test_bitlen : answers (exec (.bitlen 5) (tiny.commit 5 256)) (fun t => t.resn == 9) = true ∧
    answers (exec (.bitlen 5) (tiny.commit 5 (-(2 ^ 32)))) (fun t => t.resn == 33) = true := by decide

theorem test_size : answers (exec (.size 5) (tiny.commit 5 (2 ^ 32 - 1))) (fun t => t.resn == 4) = true ∧
    answers (exec (.size 5) (tiny.commit 5 (2 ^ 32))) (fun t => t.resn == 5) = true := by decide

theorem test_shl : answers (exec (.shl 6) (withCnt (tiny.commit 6 (-3)) 33))
    (fun t => t.val 6 == -25769803776 && (t.reg 6).limbs == [0, 6]) = true := by decide

theorem test_shl_at_the_ceiling : endsWith (exec (.shl 6) (withCnt (tiny.commit 6 1) 127)) .ok = true ∧
    endsWith (exec (.shl 6) (withCnt (tiny.commit 6 1) 128)) .alloc = true := by decide

theorem test_shr : answers (exec (.shr 6) (withCnt (tiny.commit 6 (-7)) 1)) (fun t => t.val 6 == -3) = true ∧
    answers (exec (.shr 6) (withCnt (tiny.commit 6 (2 ^ 33)) 33)) (fun t => t.val 6 == 1) = true := by decide

theorem test_shr_to_zero : answers (exec (.shr 6) (withCnt (tiny.commit 6 (-1)) 1))
    (fun t => t.val 6 == 0 && (t.reg 6).sign == .plus) = true := by decide

theorem test_cmpabs : answers (exec (.cmpabs 1 2) (two (-7) 2)) (fun t => t.status.cmp == 0b01) = true ∧
    answers (exec (.cmpabs 1 2) (two 2 (-7))) (fun t => t.status.cmp == 0b11) = true := by decide

theorem test_cmp : answers (exec (.cmp 1 2) (two (-7) 2)) (fun t => t.status.cmp == 0b11) = true ∧
    answers (exec (.cmp 1 2) (two (-2) (-7))) (fun t => t.status.cmp == 0b01) = true := by decide

theorem test_cmps : answers (exec (.cmps 1) (two (-7) 0)) (fun t => t.status.cmp == 0b11) = true ∧
    answers (exec (.cmps 1) (withImm (two (2 ^ 40) 0) 0x7FFFFFFF)) (fun t => t.status.cmp == 0b01) = true := by decide

/-! ### Arithmetic commands -/

theorem test_addabs : answers (exec (.addabs 3 1 2) (two (-7) 2)) (fun t => t.val 3 == 9) = true ∧
    answers (exec (.addabs 3 1 2) (two (2 ^ 32 - 1) 1)) (fun t => (t.reg 3).limbs == [0, 1]) = true := by decide

theorem test_subabs : answers (exec (.subabs 3 1 2) (two (-7) 2)) (fun t => t.val 3 == 5) = true ∧
    endsWith (exec (.subabs 3 1 2) (two 2 (-7))) .negativeValue = true := by decide

theorem test_add : answers (exec (.add 3 1 2) (two (-7) 2)) (fun t => t.val 3 == -5) = true ∧
    answers (exec (.add 3 1 2) (two (-7) 7)) (fun t => t.val 3 == 0 && (t.reg 3).sign == .plus) = true := by decide

theorem test_sub : answers (exec (.sub 3 1 2) (two (-7) 2)) (fun t => t.val 3 == -9) = true ∧
    answers (exec (.sub 1 1 2) (two 2 7)) (fun t => t.val 1 == -5) = true := by decide

theorem test_mul : answers (exec (.mul 3 1 2) (two (2 ^ 32 - 1) (2 ^ 32 - 1)))
    (fun t => (t.reg 3).limbs == [1, 0xFFFFFFFE]) = true ∧
    answers (exec (.mul 3 1 2) (two (-7) 2)) (fun t => t.val 3 == -14) = true := by decide

theorem test_muls : answers (exec (.muls 3 1) (withImm (two 256 0) 3)) (fun t => t.val 3 == 768) = true ∧
    answers (exec (.muls 3 1) (withImm (two 768 0) 0xFFFFFFFF)) (fun t => t.val 3 == -768) = true := by decide

/-- Rows of the table of R152, and two outputs in one register (R153). -/
theorem test_div : answers (exec (.div true true 3 4 1 2) (two (-7) 2)) (fun t => t.val 3 == -3 && t.val 4 == -1) = true ∧
    answers (exec (.div true true 1 2 1 2) (two 7 (-2))) (fun t => t.val 1 == -3 && t.val 2 == 1) = true := by decide

theorem test_div_faults : endsWith (exec (.div true true 3 3 1 2) (two 7 0)) .badInput = true ∧
    endsWith (exec (.div false false 3 3 1 2) (two 7 0)) .divByZero = true := by decide

theorem test_divs : answers (exec (.divs true true 3 4 1) (withImm (two 7 0) 0xFFFFFFFE))
    (fun t => t.val 3 == -3 && t.val 4 == 1) = true := by decide

theorem test_mod : answers (exec (.mod 3 1 2) (two (-7) 2)) (fun t => t.val 3 == 1) = true ∧
    endsWith (exec (.mod 3 1 2) (two (-7) (-2))) .negativeValue = true := by decide

theorem test_mods : answers (exec (.mods 1) (withImm (two 768 0) 5)) (fun t => t.resw == 3) = true ∧
    answers (exec (.mods 1) (withImm (two (-7) 0) 5)) (fun t => t.resw == 3) = true := by decide

/-! ### Modular exponentiation -/

/-- `M1 = 4`, `M2 = 13`, `M3 = 497`, and `M4` as given (R171). -/
def power (rr : Int) : State := ((two 4 13).commit 3 497).commit 4 rr

theorem test_expmod : answers (exec (.expmod .absent 0 0 1 2 3) (power 0)) (fun t => t.val 0 == 445) = true ∧
    answers (exec (.expmod .stored 0 4 1 2 3) (power 0)) (fun t => t.val 0 == 445 && t.val 4 == 436) = true := by decide

theorem test_expmod_supplied_and_even :
    answers (exec (.expmod .supplied 0 4 1 2 3) (power 436)) (fun t => t.val 0 == 445 && t.draws == 0) = true ∧
    endsWith (exec (.expmod .absent 0 0 1 2 3) ((power 0).commit 3 498)) .notAcceptable = true := by decide

/-- The worked pass of R181: `mm`, `RR`, and the result for two window widths. -/
theorem test_engine_R181 : negInverse 497 = 0x28B130EF ∧ rrConst 497 = 436 ∧ montMul 497 436 1 = 151 ∧
    montMul 497 4 436 = 107 ∧ engineExpMod 1 4 13 497 436 = 445 ∧ engineExpMod 2 4 13 497 436 = 445 := by decide

/-! ### The window, faults and reset -/

theorem test_command_through_the_window : answers (step (tiny.withFetchWord 32 0x01300000))
    (fun t => t.status == ⟨false, false, 0, 0⟩ && t.pending == []) = true := by decide

theorem test_first_command_after_reset : answers (step (State.reset.withFetchWord 32 0x22301200))
    (fun t => t.val 3 == 0 && t.status.err == 0) = true := by decide

theorem test_illegal_word : answers (step (tiny.withFetchWord 32 0))
    (fun t => t.status == ⟨false, true, 0, 2⟩ && t.ecmd == 0 && t.status.word == 0x22) = true := by decide

theorem test_dropped : answers (step (faulted.withFetchWord 32 0x01300000)) (fun t => t == faulted) = true := by decide

theorem test_acknowledge : answers (step (next faulted (.write32 0x008 1)))
    (fun t => t.status == ⟨false, false, 0, 1⟩ && t.ecmd == 0x03200000) = true := by decide

theorem test_read_status : answers (step (next faulted (.read32 0x004))) (fun t => t.replies == [.word 0x12]) = true := by
  decide

theorem test_read_geom : answers (step (next tiny (.read32 0x02C))) (fun t => t.replies == [.word 0x00001020]) = true := by
  decide

theorem test_byte_written_is_read : answers (step (next (tiny.memWrite 63 [0xAB]) (.read8 0x103F)))
    (fun t => t.replies == [.byte 0xAB]) = true := by decide

theorem test_reset : answers (step (next (faulted.memWrite 3 [1]) .reset))
    (fun t => t.status == Status.reset && t.ecmd == 0 && t.bmem == [] && t.params == Config.cfgTiny) = true := by decide

theorem test_program : answers (Sys2Proof.core.run 4 (tiny.withProgram [.seti 1 (-7), .neg 2 1]))
    (fun t => t.val 1 == -7 && t.val 2 == 7 && t.pending == []) = true := by decide

/-! ### Witnesses: for every obligation with hypotheses, a concrete state and operands that meet them, for each clause at the
bounds of its range -/

/-- A hypothesis `o = .next t`, for some `t` of which a check holds. -/
theorem exists_next {o : Host.Outcome State Fault Refusal} {check : State → Bool} (h : answers o check = true) :
    ∃ t, o = .next t ∧ check t = true := by
  cases o with
  | next t => exact ⟨t, rfl, h⟩
  | fault r => cases h
  | refused r => cases h

theorem witness_DecodeInvertsEncode :
    (Instr.expmod .stored 15 15 15 15 15).WellFormed ∧ ¬ (Instr.expmod .reserved 0 0 0 0 0).WellFormed := by decide

theorem witness_EncodeInvertsDecode : decode 0x30041232 = .command (.expmod .stored 0 4 1 2 3) := by decide

theorem illegalWord_0 : IllegalWord 0 := .inl (by simp [tableR83])
theorem illegalWord_field : IllegalWord 0x05411000 :=
  .inr (.inl ⟨(0x05, 0xFF0F0FFF, 0x05000000), by decide, by decide, by decide⟩)
theorem illegalWord_mode : IllegalWord 0x30041233 := .inr (.inr (by decide))

theorem witness_IllegalWordsRaiseBadInput :
    IllegalWord 0 ∧ IllegalWord 0x05411000 ∧ IllegalWord 0x30041233 ∧ tiny.status.fault = false :=
  ⟨illegalWord_0, illegalWord_field, illegalWord_mode, rfl⟩

theorem witness_UnusedFieldsAreIgnored :
    (∃ t, exec (.div true false 3 9 1 2) (two 7 2) = .next t ∧ (t.status.err == 0) = true) ∧
      canonical (.div true false 3 9 1 2) ≠ .div true false 3 9 1 2 :=
  ⟨exists_next (by decide), by decide⟩

theorem witness_StepRunsTheDecodedCommand :
    (next tiny (.write32 0x000 0x22301200)).status.busy = false ∧
      (next tiny (.write32 0x000 0x22301200)).status.fault = false ∧ decode 0x22301200 = .command (.add 3 1 2) ∧
      (next tiny (.write32 0x000 0x22301200)).pending = [.write32 0x000 0x22301200] := by decide

/-- An action that answers a next state, and one that stops. -/
theorem witness_EachStepPerformsOneAction :
    tiny.pending = [] ∧ (next tiny (.read32 0x004)).pending = [.read32 0x004] ∧
      (∃ t, step (next tiny (.read32 0x004)) = .next t ∧ (t.replies == [.word 0]) = true) ∧
      (next tiny (.read32 0x034)).pending = [.read32 0x034] ∧ step (next tiny (.read32 0x034)) = .fault .noSuchOffset :=
  ⟨rfl, rfl, exists_next (by decide), rfl, rfl⟩

theorem witness_CommandsAreDroppedWhileFaulted :
    (next faulted (.write32 0x000 0x22301200)).status.busy = false ∧
      (next faulted (.write32 0x000 0x22301200)).status.fault = true ∧
      (next faulted (.write32 0x000 0x22301200)).pending = [.write32 0x000 0x22301200] ∧
      (next faulted (.read32 0x000)).pending = [.read32 ScalarReg.cmd.offset] ∧
      (next faulted (.read32 0x030)).pending = [.read32 ScalarReg.bufsz.offset] ∧
      (next faulted (.write32 0x01C 5)).pending = [.write32 ScalarReg.blen.offset 5] ∧
      (next faulted (.write8 0x1000 5)).pending = [.write8 (0x1000 + 0) 5] ∧
      (next faulted (.write8 0x103F 5)).pending = [.write8 (0x1000 + 63) 5] ∧
      (next faulted (.read8 0x103F)).pending = [.read8 (0x1000 + 63)] ∧ 63 < faulted.params.bufBytes := by decide

theorem witness_AcknowledgeClearsOnlyFault :
    (next faulted (.write32 0x008 0xFFFFFFFF)).status.busy = false ∧
      (next faulted (.write32 0x008 0xFFFFFFFF)).pending = [.write32 0x008 0xFFFFFFFF] ∧
      (0xFFFFFFFF : Word).getLsbD 0 = true ∧ (next faulted (.write32 0x008 0xFFFFFFFE)).pending = [.write32 0x008 0xFFFFFFFE] ∧
      (0xFFFFFFFE : Word).getLsbD 0 = false ∧ tiny.status.fault = false := by decide

theorem witness_FaultIsClearedOnlyByAckOrReset :
    faulted.status.fault = true ∧
      (∃ t, step (next faulted (.write32 0x008 1)) = .next t ∧ (!t.status.fault) = true) ∧
      ∃ t, step (next faulted .reset) = .next t ∧ (!t.status.fault) = true :=
  ⟨rfl, exists_next (by decide), exists_next (by decide)⟩

theorem witness_ScalarReadsAnswerTheMap :
    tiny.status.busy = false ∧ ∀ o ∈ [0x000, 0x004, 0x008, 0x00C, 0x010, 0x014, 0x018, 0x01C, 0x020, 0x024, 0x028, 0x02C, 0x030],
      (next tiny (.read32 o)).pending = [.read32 o] := by decide

theorem witness_ScalarWritesFollowAccessRights :
    tiny.status.busy = false ∧ ∀ o ∈ [0x010, 0x014, 0x018, 0x01C, 0x004, 0x00C, 0x020, 0x024, 0x028, 0x02C, 0x030],
      (next tiny (.write32 o 7)).pending = [.write32 o 7] := by decide

theorem witness_HostBytesReadBack : tiny.status.busy = false ∧ 0 < tiny.params.bufBytes ∧ 63 < tiny.params.bufBytes := by decide

/-- One offset at each end of each range, on CFG_TINY (`0x1000 + BUF_BYTES = 0x1040`), a busy unit, and a defined move of each
kind at the ends of its range. -/
theorem witness_UndefinedMovesStopByName :
    tiny.status.busy = false ∧ tiny.params.bufBytes = 64 ∧
      (∀ o ∈ [0x034, 0xFFF], 0x034 ≤ o ∧ o < 0x1000) ∧ 0x1000 + tiny.params.bufBytes ≤ 0x1040 ∧
      (∀ o ∈ [0x001, 0x033], o < 0x034 ∧ o % 4 ≠ 0) ∧
      (∀ o ∈ [0x1000, 0x103F], 0x1000 ≤ o ∧ o < 0x1000 + tiny.params.bufBytes) ∧
      (∀ o ∈ [0x000, 0x033], o < 0x034) ∧ tiny.issued.status.busy = true ∧
      (∀ o ∈ [0x000, 0x003, 0x005, 0x1000], o ≠ 0x004) ∧
      ∀ a ∈ [Action.write32 0x000 0, .write32 0x030 0, .read32 0x000, .read32 0x030, .write8 0x1000 0, .write8 0x103F 0,
        .read8 0x1000, .read8 0x103F, .reset], a.Defined tiny.params := by
  refine ⟨by decide, by decide, by decide, by decide, by decide, by decide, by decide, by decide, by decide, ?_⟩
  simp [Action.Defined, tiny, Config.cfgTiny]

/-- On a busy unit a write at STATUS's offset and byte accesses there are refused too; the read of STATUS is not (R225). -/
theorem test_only_the_status_read_is_answered_while_busy :
    tiny.issued.perform (.write32 0x004 0) = .refused .accessWhileBusy ∧
      tiny.issued.perform (.write8 0x004 0) = .refused .accessWhileBusy ∧
      tiny.issued.perform (.read8 0x004) = .refused .accessWhileBusy ∧
      answers (tiny.issued.perform (.read32 0x004)) (fun t => t.replies == [.word 1]) = true := by
  refine ⟨rfl, rfl, rfl, by decide⟩

theorem witness_ResetGivesTheResetValues : (next faulted .reset).pending = [.reset] := by decide

theorem inv_two : (two (-7) 2).Inv := by decide

theorem witness_EveryStepKeepsTheInvariant :
    (next (two (-7) 2) (.write32 0x000 0x22301200)).Inv ∧
      ∃ t, step (next (two (-7) 2) (.write32 0x000 0x22301200)) = .next t ∧ (t.val 3 == -5) = true :=
  ⟨by decide, exists_next (by decide)⟩

theorem witness_DefinedMovesNeverStopTheMachine :
    (two (-7) 2).Inv ∧ ∀ a ∈ [Action.write32 0x000 0x22301200, .write32 0x030 1, .read32 0x000, .read32 0x030, .write8 0x1000 1,
      .write8 0x103F 1, .read8 0x1000, .read8 0x103F, .reset], a.Defined (two (-7) 2).params :=
  ⟨inv_two, by simp [Action.Defined, two, tiny, State.commit, State.setReg, Config.cfgTiny]⟩

theorem witness_CommandsChangeOnlyWhatTheirRulesName :
    (∃ t, exec (.add 3 1 2) (two (-7) 2) = .next t ∧ (t.status.err == 0) = true) ∧
      ∃ t, exec (.mod 3 1 2) (two 7 0) = .next t ∧ (t.status.err != 0) = true :=
  ⟨exists_next (by decide), exists_next (by decide)⟩

theorem witness_FaultsLeaveOnlyTheirRecord :
    ∃ t, exec (.subabs 3 1 2) (two 2 (-7)) = .next t ∧ (t.status.err != 0) = true := exists_next (by decide)

/-- A command with two conditions of R191 at once: two outputs in one register and a zero divisor. -/
theorem witness_FaultsHaveExactlyTheCausesOfR191 :
    (Instr.div true true 3 3 1 2).WellFormed ∧
      exec (.div true true 3 3 1 2) (two 7 0) = .next ((two 7 0).faultRecord (encode (.div true true 3 3 1 2)) .badInput) ∧
      CauseR191 (two 7 0) (.div true true 3 3 1 2) .badInput ∧ CauseR191 (two 7 0) (.div true true 3 3 1 2) .divByZero ∧
      IllegalWord 0 ∧ tiny.status.fault = false := by
  refine ⟨rfl, rfl, ⟨rfl, rfl, rfl⟩, ?_, illegalWord_0, rfl⟩
  show (two 7 0).val 2 = 0
  decide

theorem witness_ErrorCodesAreThoseOfR190 : ∃ t, exec (.mod 3 1 2) (two 7 0) = .next t ∧ (t.status.err == 6) = true :=
  exists_next (by decide)

theorem witness_ParametersNeverChange : ∃ t, step (next faulted .reset) = .next t ∧ (fun _ => true) t = true :=
  exists_next (by decide)

theorem witness_CapacityChangesInThreeWays :
    (∃ t, exec (.init 1) (two 7 2) = .next t ∧ ((t.reg 1).cap == 0) = true) ∧
      (∃ t, exec (.grow 1) (withCnt (two 7 2) 4) = .next t ∧ ((t.reg 1).cap == 4) = true) ∧
      ∃ t, exec (.mul 3 1 2) (two (2 ^ 32 - 1) (2 ^ 32 - 1)) = .next t ∧ ((t.reg 3).cap == 2) = true :=
  ⟨exists_next (by decide), exists_next (by decide), exists_next (by decide)⟩

/-- Two units that differ only in the capacity of M1. -/
theorem witness_CapacityIsNotObservable :
    (∀ i, (tiny.setReg 1 ⟨.minus, [7, 0, 0]⟩).val i = (tiny.setReg 1 ⟨.minus, [7]⟩).val i) ∧
      tiny.setReg 1 ⟨.minus, [7, 0, 0]⟩ =
        { tiny.setReg 1 ⟨.minus, [7]⟩ with m := (tiny.setReg 1 ⟨.minus, [7, 0, 0]⟩).m } ∧
      ((tiny.setReg 1 ⟨.minus, [7, 0, 0]⟩).reg 1).cap ≠ ((tiny.setReg 1 ⟨.minus, [7]⟩).reg 1).cap ∧
      ∃ t, (tiny.setReg 1 ⟨.minus, [7]⟩).perform (.write32 0x000 0x13100000) = .next t ∧ (t.status.err == 0) = true :=
  ⟨by decide, rfl, by decide, exists_next (by decide)⟩

theorem witness_SetiMovAndNegMeanWhatR93Says :
    (two (-7) 2).Inv ∧ (two (-7) 2).status.fault = false ∧ (-2 ^ 31 : Int) ≤ -2 ^ 31 ∧ (-2 ^ 31 : Int) < 2 ^ 31 ∧
      (-2 ^ 31 : Int) ≤ 2 ^ 31 - 1 ∧ (2 ^ 31 - 1 : Int) < 2 ^ 31 := ⟨inv_two, by decide, by decide, by decide, by decide, by decide⟩

theorem witness_NumberFunctionsMeetR10 : (0 : Int) ≤ 0 ∧ (-1 : Int) < 0 ∧ (7 : Nat) ≠ 0 ∧ (-2 : Int) ≠ 0 ∧ (-2 : Int) < 0 ∧ (0 : Int) < 2 := by decide

theorem witness_CommitStoresTheValue : tiny.Fits (-(2 ^ 128 - 1)) ∧ (3 : Nat) < ((tiny.commit 1 (-(2 ^ 128 - 1))).reg 1).cap := by
  decide

theorem witness_InitAndFreeEmptyTheRegister : Instr.free 15 ∈ [Instr.init 15, .free 15] := by decide

theorem witness_GrowRaisesOnlyTheCapacity :
    (withCnt tiny 4).cnt.toNat ≤ (withCnt tiny 4).params.maxLimbs ∧
      (withCnt tiny 5).params.maxLimbs < (withCnt tiny 5).cnt.toNat := by decide

theorem witness_CopyStoresTheSourceValue : ((two (-7) 2).reg 1).Wf (two (-7) 2).params := by decide

/-- A buffer that ends at the last byte and a value of exactly MAX_LIMBS limbs; one limb more; one byte past the end. -/
theorem witness_ImportReadsTheBufferBigEndian :
    (withBuf tiny 62 2).baddr.toNat + (withBuf tiny 62 2).blen.toNat ≤ (withBuf tiny 62 2).params.bufBytes ∧
      limbCount (2 ^ 128 - 1) ≤ tiny.params.maxLimbs ∧ tiny.params.maxLimbs < limbCount (2 ^ 128) ∧
      beNat ((tiny.memWrite 0 (1 :: List.replicate 16 0)).memRead 0 17) = 2 ^ 128 ∧
      (withBuf tiny 63 2).params.bufBytes < (withBuf tiny 63 2).baddr.toNat + (withBuf tiny 63 2).blen.toNat := by decide

theorem witness_ExportWritesTheMagnitudeBigEndian :
    (withBuf (tiny.commit 0 256) 0 0).Inv ∧ (withBuf (tiny.commit 0 256) 0 0).blen.toNat = 0 ∧
      (withBuf (tiny.commit 0 256) 63 2).params.bufBytes < 63 + 2 ∧ byteCount ((tiny.commit 0 256).mag 0) = 2 ∧
      (withBuf (tiny.commit 0 256) 62 2).baddr.toNat + (withBuf (tiny.commit 0 256) 62 2).blen.toNat ≤
        (withBuf (tiny.commit 0 256) 62 2).params.bufBytes ∧
      (withBuf (tiny.commit 0 256) 62 1).blen.toNat < byteCount ((tiny.commit 0 256).mag 0) ∧
      byteCount ((tiny.commit 0 256).mag 0) ≤ (withBuf (tiny.commit 0 256) 62 2).blen.toNat ∧
      (withBuf (tiny.commit 0 256) 62 2).Inv := by decide

theorem witness_ExportThenImportGivesTheMagnitude :
    (withBuf (tiny.commit 0 (-256)) 62 2).Inv ∧
      byteCount ((withBuf (tiny.commit 0 (-256)) 62 2).mag 0) ≤ (withBuf (tiny.commit 0 (-256)) 62 2).blen.toNat ∧
      (withBuf (tiny.commit 0 (-256)) 62 2).baddr.toNat + (withBuf (tiny.commit 0 (-256)) 62 2).blen.toNat ≤
        (withBuf (tiny.commit 0 (-256)) 62 2).params.bufBytes ∧
      (withBuf tiny 64 0).Inv ∧ byteCount ((withBuf tiny 64 0).mag 0) ≤ (withBuf tiny 64 0).blen.toNat ∧
      (withBuf tiny 64 0).baddr.toNat + (withBuf tiny 64 0).blen.toNat ≤ (withBuf tiny 64 0).params.bufBytes := by decide

theorem witness_BitlenAndSizeReportTheMagnitude : (two (-7) 2).Inv := inv_two

theorem witness_ShlMultipliesOrRaisesAlloc :
    limbCount ((withCnt (two 1 0) 127).mag 1 * 2 ^ (withCnt (two 1 0) 127).cnt.toNat) ≤ (two 1 0).params.maxLimbs ∧
      (two 1 0).params.maxLimbs < limbCount ((withCnt (two 1 0) 128).mag 1 * 2 ^ (withCnt (two 1 0) 128).cnt.toNat) := by decide

theorem witness_ComparisonLaws :
    (two 7 (-2)).mag 1 = (two (-7) 2).mag 1 ∧ (two 7 (-2)).mag 2 = (two (-7) 2).mag 2 ∧
      (∃ u, exec (.cmpabs 1 2) (two 7 (-2)) = .next u ∧ (u.status.cmp == 0b01) = true) ∧
      (0 ≤ (two 0 7).val 1 ∧ 0 ≤ (two 0 7).val 2) ∧
      (withImm (two 7 (-7)) 0xFFFFFFF9).val 2 = (withImm (two 7 (-7)) 0xFFFFFFF9).imm.toInt :=
  ⟨by decide, by decide, exists_next (by decide), by decide, by decide⟩

theorem witness_AddabsAddsMagnitudes :
    (2 ^ 128 - 1 : Int) = |(two (-(2 ^ 128 - 2)) 1).val 1| + |(two (-(2 ^ 128 - 2)) 1).val 2| ∧
      limbCount (2 ^ 128 - 1 : Int).natAbs ≤ tiny.params.maxLimbs ∧
      (2 ^ 128 : Int) = |(two (-(2 ^ 128 - 1)) 1).val 1| + |(two (-(2 ^ 128 - 1)) 1).val 2| ∧
      tiny.params.maxLimbs < limbCount (2 ^ 128 : Int).natAbs := by decide

theorem witness_SubabsSubtractsOrderedMagnitudes :
    |(two 7 (-7)).val 2| ≤ |(two 7 (-7)).val 1| ∧ |(two 6 (-7)).val 1| < |(two 6 (-7)).val 2| := by decide

theorem witness_AddAndSubAreExact :
    limbCount ((two (2 ^ 128 - 2) 1).val 1 + (two (2 ^ 128 - 2) 1).val 2).natAbs ≤ tiny.params.maxLimbs ∧
      tiny.params.maxLimbs < limbCount ((two (2 ^ 128 - 1) 1).val 1 + (two (2 ^ 128 - 1) 1).val 2).natAbs ∧
      limbCount ((two (-(2 ^ 128 - 2)) 1).val 1 - (two (-(2 ^ 128 - 2)) 1).val 2).natAbs ≤ tiny.params.maxLimbs ∧
      tiny.params.maxLimbs < limbCount ((two (-(2 ^ 128 - 1)) 1).val 1 - (two (-(2 ^ 128 - 1)) 1).val 2).natAbs := by decide

theorem witness_AddAndSubAreInverse :
    (two (-7) 2).Inv ∧
      (∃ t, exec (.add 3 1 2) (two (-7) 2) = .next t ∧ (t.status.err == 0 && t.val 2 == (two (-7) 2).val 2) = true) ∧
      ∃ t, exec (.sub 3 1 2) (two (-7) 2) = .next t ∧ (t.status.err == 0 && t.val 2 == (two (-7) 2).val 2) = true :=
  ⟨inv_two, exists_next (by decide), exists_next (by decide)⟩

theorem witness_MulAndMulsAreExact :
    limbCount ((two (2 ^ 127) (-1)).val 1 * (two (2 ^ 127) (-1)).val 2).natAbs ≤ tiny.params.maxLimbs ∧
      tiny.params.maxLimbs < limbCount ((two (2 ^ 127) 2).val 1 * (two (2 ^ 127) 2).val 2).natAbs ∧
      limbCount ((two (2 ^ 127) 0).val 1 * (withImm (two (2 ^ 127) 0) 1).imm.toInt).natAbs ≤ tiny.params.maxLimbs ∧
      tiny.params.maxLimbs < limbCount ((two (2 ^ 127) 0).val 1 * (withImm (two (2 ^ 127) 0) 2).imm.toInt).natAbs := by decide

theorem witness_DivAndDivsTruncate :
    (true = true ∧ true = true ∧ (3 : RegNo) = 3) ∧ ¬ (true = true ∧ true = true ∧ (3 : RegNo) = 4) ∧ (two 7 0).val 2 = 0 ∧
      (two 7 (-2)).val 2 ≠ 0 ∧ (withImm (two 7 0) 0).imm.toInt = 0 ∧ (withImm (two 7 0) 0x80000000).imm.toInt ≠ 0 := by decide

theorem witness_ModAndModsFloor :
    (two 7 0).val 2 = 0 ∧ (two 7 (-1)).val 2 < 0 ∧ 0 < (two 7 1).val 2 ∧ (withImm tiny 0).imm.toInt = 0 ∧
      (withImm tiny 0xFFFFFFFF).imm.toInt < 0 ∧ 0 < (withImm tiny 1).imm.toInt ∧ 0 < (withImm tiny 0x7FFFFFFF).imm.toInt := by decide

theorem witness_DivisionAndModuloAgree : (3 : RegNo) ≠ 4 ∧ (two (-7) 2).val 2 ≠ 0 ∧ 0 < (two (-7) 2).val 2 := by decide

/-- All three modes, with a one-limb modulus on a unit of 4 limbs: the largest the ceiling admits. -/
theorem witness_ExpmodComputesThePower :
    (power 436).val 2 = (13 : Nat) ∧ (power 436).val 3 = (497 : Nat) ∧ 497 % 2 = 1 ∧
      2 * (limbCount 497 + 1) ≤ (power 436).params.maxLimbs ∧
      (∀ m ∈ [RRMode.absent, .supplied, .stored], m ≠ .reserved ∧ ¬ (m = .stored ∧ (4 : RegNo) = 0)) ∧
      (power 436).val 4 = ((2 ^ 32) ^ (2 * limbCount 497) % 497 : Nat) := by decide

/-- A state for each clause: store mode into the result's register and into another; a modulus that is zero, even, and an exponent
below zero; a two-limb modulus on a unit of 4 limbs; and a one-limb modulus, with the right and with a wrong constant in M4. -/
theorem witness_ExpmodChecksItsPreconditions :
    (∀ fl ∈ [3, 4, 15], 3 ≤ fl ∧ fl < 16) ∧
      (RRMode.stored = .stored ∧ (0 : RegNo) = 0) ∧ ¬ (RRMode.stored = .stored ∧ (4 : RegNo) = 0) ∧
      (∀ m ∈ [RRMode.absent, .supplied], ¬ (m = .stored ∧ (0 : RegNo) = 0)) ∧
      ((power 0).commit 3 0).val 3 ≤ 0 ∧ ((power 0).commit 3 498).val 3 % 2 = 0 ∧ ((power 0).commit 2 (-1)).val 2 < 0 ∧
      ((power 0).commit 3 (2 ^ 32 + 1)).val 3 = (2 ^ 32 + 1 : Nat) ∧ (2 ^ 32 + 1) % 2 = 1 ∧
      ((power 0).commit 3 (2 ^ 32 + 1)).val 2 = (13 : Nat) ∧ (power 0).params.maxLimbs < 2 * (limbCount (2 ^ 32 + 1) + 1) ∧
      (power 436).val 3 = (497 : Nat) ∧ 497 % 2 = 1 ∧ 2 * (limbCount 497 + 1) ≤ (power 436).params.maxLimbs ∧
      (power 436).val 4 = ((2 ^ 32) ^ (2 * limbCount 497) % 497 : Nat) ∧
      (power 435).val 4 ≠ ((2 ^ 32) ^ (2 * limbCount 497) % 497 : Nat) := by decide

theorem witness_ExpmodWithAWrongConstantStillCompletes :
    (power 435).val 2 = (13 : Nat) ∧ (power 435).val 3 = (497 : Nat) ∧ 497 % 2 = 1 ∧
      2 * (limbCount 497 + 1) ≤ (power 435).params.maxLimbs ∧
      (power 435).val 4 ≠ ((2 ^ 32) ^ (2 * limbCount 497) % 497 : Nat) := by decide

theorem witness_EngineAddsAndSubtractsExactly : natOfLimbs [1] ≤ natOfLimbs [0, 1] := by decide

theorem witness_EngineDividesExactly : 0 < 2 ^ 32 - 1 ∧ 2 ^ 32 - 1 ≤ 2 ^ 96 := by decide

theorem witness_MontgomeryProductIsCorrect : 497 % 2 = 1 ∧ 496 < 497 ∧ 1 % 2 = 1 ∧ 0 < 1 := by decide

theorem witness_EngineExponentiatesLikeTheRule : 1 ≤ 1 ∧ 1 ≤ 6 ∧ 497 % 2 = 1 := by decide

end Sys2Proof.Tests
end

section
/-! O29: the functions of Machine/Numbers.lean and the engine's `signOf` meet their definitions in R10. -/

namespace Sys2Proof.Machine

/-! ### The sign and the truncating quotient -/

theorem signOf_of_nonneg {v : Int} (h : 0 ≤ v) : signOf v = 1 := if_neg (not_lt.2 h)

theorem signOf_of_neg {v : Int} (h : v < 0) : signOf v = -1 := if_pos h

theorem signOf_eq_one_or_neg_one (v : Int) : signOf v = 1 ∨ signOf v = -1 :=
  (le_or_gt 0 v).imp signOf_of_nonneg signOf_of_neg

theorem signOf_mul_natAbs (v : Int) : signOf v * (v.natAbs : Int) = v := by
  rcases le_or_gt 0 v with h | h
  · rw [signOf_of_nonneg h]; omega
  · rw [signOf_of_neg h]; omega

/-- R10's form of the quotient. It holds for `b = 0` too, where both sides are 0. -/
theorem tdiv_eq_signs_mul_natAbs_div (a b : Int) :
    tdiv a b = signOf a * signOf b * ((a.natAbs / b.natAbs : Nat) : Int) := by
  have hsplit : tdiv a b = (signOf a * (a.natAbs : Int)).tdiv (signOf b * (b.natAbs : Int)) := by
    rw [signOf_mul_natAbs, signOf_mul_natAbs, tdiv]
  rw [hsplit]
  rcases signOf_eq_one_or_neg_one a with ha | ha <;> rcases signOf_eq_one_or_neg_one b with hb | hb <;>
    simp only [ha, hb, one_mul, neg_mul, mul_neg, neg_neg, Int.neg_tdiv, Int.tdiv_neg, Int.ofNat_tdiv]

/-! ### The floor remainder's range, by the sign of the divisor -/

theorem fmod_range_of_pos (a : Int) {b : Int} (hb : 0 < b) : 0 ≤ fmod a b ∧ fmod a b < b := by
  rw [fmod, ← Int.fmod_def]
  exact ⟨Int.fmod_nonneg_of_pos a hb, Int.fmod_lt_of_pos a hb⟩

theorem fmod_range_of_neg (a : Int) {b : Int} (hb : b < 0) : b < fmod a b ∧ fmod a b ≤ 0 := by
  rw [fmod, ← Int.fmod_def]
  exact ((Int.fdiv_fmod_unique' hb).1 ⟨rfl, rfl⟩).2

/-! ### Lengths in bits, limbs and bytes -/

theorem bitlen_bounds {m : Nat} (h : m ≠ 0) : 2 ^ (bitlen m - 1) ≤ m ∧ m < 2 ^ bitlen m := by
  have hpos : bitlen m ≠ 0 := mt (bitlen_eq_zero m).1 h
  exact ⟨(lt_bitlen_iff m _).1 (by omega), (bitlen_le_iff m _).1 le_rfl⟩

/-- `limbs(m)` is the least number of limbs that hold `bitlen(m)` bits: the ceiling of R10. -/
theorem limbCount_le_iff_bitlen_le (m n : Nat) : limbCount m ≤ n ↔ bitlen m ≤ 32 * n := by
  have hbase : Config.base = 2 ^ 32 := rfl
  rw [limbCount_le_iff, bitlen_le_iff, pow_mul, hbase]

/-- `bytes(m)` is the least number of bytes that hold `bitlen(m)` bits: the ceiling of R10. -/
theorem byteCount_le_iff_bitlen_le (m n : Nat) : byteCount m ≤ n ↔ bitlen m ≤ 8 * n := by
  have hbyte : (256 : Nat) = 2 ^ 8 := rfl
  rw [byteCount_le_iff, bitlen_le_iff, pow_mul, hbyte]

/-! ### The three-way comparison -/

theorem cmp3_of_lt {x y : Int} (h : x < y) : cmp3 x y = -1 := if_pos h

theorem cmp3_self (x : Int) : cmp3 x x = 0 := by simp [cmp3]

theorem cmp3_of_gt {x y : Int} (h : y < x) : cmp3 x y = 1 := by
  rw [cmp3, if_neg h.not_gt, if_neg h.ne']

end Sys2Proof.Machine

namespace Sys2Proof

open Sys2Proof.Machine

/-- Settles O29: each function by its own lemma; the quotient of `fmod` is the floor quotient. -/
theorem numberFunctionsMeetR10 : Obligations.NumberFunctionsMeetR10 := by
  refine ⟨rfl, fun v => ⟨signOf_of_nonneg, signOf_of_neg⟩, fun m => ?lengths, fun a b _ => ?division, fun x y => ?comparison⟩
  case lengths =>
    exact ⟨(bitlen_eq_zero m).2, bitlen_bounds,
      (limbCount_le_iff_bitlen_le m _).1 le_rfl, fun n => (limbCount_le_iff_bitlen_le m n).2,
      (byteCount_le_iff_bitlen_le m _).1 le_rfl, fun n => (byteCount_le_iff_bitlen_le m n).2⟩
  case division =>
    exact ⟨tdiv_eq_signs_mul_natAbs_div a b, rfl, Int.fdiv a b, rfl, fmod_range_of_pos a, fmod_range_of_neg a⟩
  case comparison =>
    exact ⟨cmp3_of_lt, fun h => h ▸ cmp3_self x, cmp3_of_gt⟩

end Sys2Proof
end

section
/-! SUPPORT. What a step, an issue and a command can answer, said once from the inversions of Laws: every statement about
all steps below is read off these, O25 first. -/

namespace Sys2Proof.Machine

/-! ### The step and the port -/

/-- The port answers a next state only by performing the access. -/
theorem access_of_perform {s t : State} {a : Action} (h : s.perform a = .next t) : s.access a = .next t := by
  unfold State.perform at h
  split at h
  · cases h
  · exact h

/-- THE INVERSION OF `step`: an idle step, or the oldest action's access with that action used up. -/
theorem step_cases {s t : State} (h : step s = .next t) :
    (s.pending = [] ∧ t = s) ∨
      ∃ a rest, s.pending = a :: rest ∧ State.access { s with pending := rest } a = .next t := by
  cases hp : s.pending with
  | nil =>
    simp only [step, hp] at h
    cases h
    exact .inl ⟨rfl, rfl⟩
  | cons a rest => exact .inr ⟨a, rest, rfl, access_of_perform (step_cons s a rest hp ▸ h)⟩

/-! ### What an outcome ensures -/

/-- Where this outcome is a next state, that state has the property `Q`. -/
def Ensures (Q : State → Prop) (o : Host.Outcome State Fault Refusal) : Prop := ∀ t, o = .next t → Q t

section Ensures

variable {Q : State → Prop} {s : State}

theorem ensures_raise {c : Word} {e : ErrCode} (h : Q (s.faultRecord c e)) : Ensures Q (s.raise c e) := by
  intro t ht
  cases ht
  exact h

theorem ensures_done (h : Q { s with status := s.status.completed }) : Ensures Q s.done := by
  intro t ht
  cases ht
  exact h

theorem ensures_ite {c : Prop} [Decidable c] {o o' : Host.Outcome State Fault Refusal} (h : c → Ensures Q o)
    (h' : ¬ c → Ensures Q o') : Ensures Q (if c then o else o') := by
  split
  · next hc => exact h hc
  · next hc => exact h' hc

end Ensures

/-! ### Commands and their issue -/

@[simp] theorem code_eq_zero (e : ErrCode) : e.code = 0 ↔ e = .ok := by cases e <;> decide

/-- Completion changes ERR and BUSY only, so it keeps whatever the command kept (R194). -/
theorem completes_of_done {s t u : State} {w : Touch} (hk : s.Keeps w u) (h : u.done = .next t) : s.Completes w t := by
  cases h
  exact ⟨rfl, rfl, { hk with }⟩

/-- A command answers its fault record or completes within what it may write (R193, R195). -/
theorem exec_next_cases {i : Instr} {s t : State} (h : exec i s = .next t) :
    (∃ e : ErrCode, e ≠ .ok ∧ t = s.faultRecord (encode i) e) ∨ s.Completes (touched s i) t := by
  rcases exec_ends i s with ⟨e, he, hr⟩ | ⟨u, hd, hk⟩
  · exact .inl ⟨e, he, (Host.Outcome.next.inj (h.symm.trans hr))⟩
  · exact .inr (completes_of_done hk (hd.symm.trans h))

/-- A command that ends with ERR = 0 has completed. -/
theorem completes_of_err_eq_zero {i : Instr} {s t : State} (h : exec i s = .next t) (he : t.status.err = 0) :
    s.Completes (touched s i) t := by
  rcases exec_next_cases h with ⟨e, hne, rfl⟩ | hc
  · exact absurd ((code_eq_zero e).1 he) hne
  · exact hc

/-- No command stops the machine (R195). -/
theorem exec_next (i : Instr) (s : State) : ∃ t, exec i s = .next t := by
  rcases exec_ends i s with ⟨e, -, h⟩ | ⟨u, h, -⟩ <;> exact ⟨_, h⟩

theorem issue_of_fault {s : State} (w : Word) (h : s.status.fault = true) : s.issue w = .next s := if_pos h

/-- THE INVERSION OF `issue`: the word is dropped, or it faults, or the command it decodes to is executed (R192, R196). -/
theorem issue_cases {s t : State} {w : Word} (h : s.issue w = .next t) :
    (s.status.fault = true ∧ t = s) ∨
      s.status.fault = false ∧ (t = s.issued.faultRecord w .badInput ∨ ∃ i, exec i s.issued = .next t) := by
  cases hf : s.status.fault with
  | true => exact .inl ⟨rfl, Host.Outcome.next.inj (h.symm.trans (issue_of_fault w hf))⟩
  | false =>
    refine .inr ⟨rfl, ?_⟩
    simp only [State.issue, hf, Bool.false_eq_true, if_false] at h
    cases hd : decode w with
    | illegal why => rw [hd] at h; cases h; exact .inl rfl
    | command i => rw [hd] at h; exact .inr ⟨i, h⟩

/-- Writing a word to CMD never stops the machine. -/
theorem issue_next (s : State) (w : Word) : ∃ t, s.issue w = .next t := by
  unfold State.issue
  split
  · exact ⟨_, rfl⟩
  · cases decode w with
    | illegal why => exact ⟨_, rfl⟩
    | command i => exact exec_next i _

/-! ### What no access changes -/

theorem exec_keeps_params_pending {i : Instr} {s t : State} (h : exec i s = .next t) :
    t.params = s.params ∧ t.pending = s.pending := by
  rcases exec_next_cases h with ⟨e, -, rfl⟩ | hc
  · exact ⟨rfl, rfl⟩
  · exact ⟨hc.keeps.params, hc.keeps.pending⟩

theorem access_keeps_params_pending {s t : State} {a : Action} (h : s.access a = .next t) :
    t.params = s.params ∧ t.pending = s.pending := by
  rcases access_cases s t a h with ⟨w, -, hi⟩ | ⟨v, -, -, rfl⟩ | ⟨_, _, _, _, rfl⟩ | ⟨_, _, _, rfl⟩ | ⟨_, rfl⟩ | ⟨-, rfl⟩
  case inl =>
    rcases issue_cases hi with ⟨-, rfl⟩ | ⟨-, rfl | ⟨i, hx⟩⟩
    · exact ⟨rfl, rfl⟩
    · exact ⟨rfl, rfl⟩
    · exact exec_keeps_params_pending (s := s.issued) hx
  all_goals exact ⟨rfl, rfl⟩

/-- Every step keeps the parameters and uses up the oldest action. -/
theorem step_keeps_params_pending {s t : State} (h : step s = .next t) :
    t.params = s.params ∧ t.pending = s.pending.tail := by
  rcases step_cases h with ⟨hp, rfl⟩ | ⟨a, rest, hp, ha⟩
  · exact ⟨rfl, by rw [hp, List.tail_nil]⟩
  · rw [hp]
    exact access_keeps_params_pending ha

/-! ### Defined moves answer -/

theorem writeScalar_next (s : State) (v : Word) (r : ScalarReg) : ∃ t, s.writeScalar v r = .next t := by
  cases r
  case cmd => exact issue_next s v
  all_goals exact ⟨_, rfl⟩

/-- Every move R47 gives the host or the platform answers a next state on an idle unit. -/
theorem perform_defined_next {s : State} {a : Action} (hb : s.status.busy = false) (ha : a.Defined s.params) :
    ∃ t, s.perform a = .next t := by
  rw [perform_idle s a hb]
  cases a with
  | write32 o v =>
    obtain ⟨r, rfl⟩ := exists_offset_eq o ha.1 ha.2
    rw [access_write32]
    exact writeScalar_next s v r
  | read32 o =>
    obtain ⟨r, rfl⟩ := exists_offset_eq o ha.1 ha.2
    exact ⟨_, access_read32 s r⟩
  | write8 o v =>
    obtain ⟨k, rfl⟩ := Nat.exists_eq_add_of_le ha.1
    exact ⟨_, access_write8 s k v (Nat.lt_of_add_lt_add_left ha.2)⟩
  | read8 o =>
    obtain ⟨k, rfl⟩ := Nat.exists_eq_add_of_le ha.1
    exact ⟨_, access_read8 s k (Nat.lt_of_add_lt_add_left ha.2)⟩
  | reset => exact ⟨_, rfl⟩

end Sys2Proof.Machine

namespace Sys2Proof

open Sys2Proof.Machine

/-- Settles O25: reset keeps the parameters, and they are outside what any command or access writes. -/
theorem parametersNeverChange : Obligations.ParametersNeverChange :=
  fun _ _ h => (step_keeps_params_pending h).1

end Sys2Proof
end

section
/-! SUPPORT. What a completed command leaves in each register it may write (R24, R25): an emptied register, a grown one, or
a commit of a value that fits the ceiling. -/

namespace Sys2Proof.Machine

/-- What `State.Inv` asks of everything but BUSY, ERR and FAULT: the part of it that holds while a command is executed. -/
structure State.Sound (s : State) : Prop where
  params : s.params.Valid
  regs : ∀ i : RegNo, (s.reg i).Wf s.params
  rising : Memory.wf s.bmem
  inside : ∀ c ∈ s.bmem, c.1 < s.params.bufBytes
  cmp : s.status.cmp ≠ 2

theorem inv_iff (s : State) : s.Inv ↔ s.Sound ∧ s.status.busy = false ∧ s.status.err.toNat < 8 ∧ s.status.err ≠ 3 ∧
    (s.status.fault = true → s.status.err ≠ 0) := by
  constructor
  · rintro ⟨hp, hr, hm, hb, hbusy, hc, herr⟩
    exact ⟨⟨hp, hr, hm, hb, hc⟩, hbusy, herr⟩
  · rintro ⟨⟨hp, hr, hm, hb, hc⟩, hbusy, herr⟩
    exact ⟨hp, hr, hm, hb, hbusy, hc, herr⟩

/-! ### Which values fit -/

section Fits

variable {s : State} (hs : s.Sound)
include hs

/-- A value no larger in magnitude than a register's fits. -/
theorem State.Sound.fits_of_le_mag {v : Int} {i : RegNo} (h : v.natAbs ≤ s.mag i) : s.Fits v :=
  calc limbCount v.natAbs ≤ limbCount (s.reg i).mag := limbCount_mono h
    _ ≤ (s.reg i).cap := MReg.limbCount_mag_le _
    _ ≤ s.params.maxLimbs := (hs.regs i).1

theorem State.Sound.fits_of_le_val {v : Int} {i : RegNo} (h : v.natAbs ≤ (s.val i).natAbs) : s.Fits v :=
  hs.fits_of_le_mag (h.trans (MReg.val_natAbs _).le)

/-- A value no larger in magnitude than the small operand fits: it needs one limb of at least four. -/
theorem State.Sound.fits_of_le_small {v : Int} (h : v.natAbs ≤ s.small.natAbs) : s.Fits v := by
  have hsmall : s.small.natAbs < Config.base ^ 1 := by
    have hle := BitVec.le_toInt s.imm
    have hlt := BitVec.toInt_lt (x := s.imm)
    simp only [State.small, sextW, Config.base]
    omega
  have hone : limbCount v.natAbs ≤ 1 := (limbCount_le_iff _ _).2 (h.trans_lt hsmall)
  exact hone.trans (le_trans (by decide) hs.params.1)

end Fits

theorem fmod_natAbs_le {a b : Int} (hb : 0 < b) : (fmod a b).natAbs ≤ b.natAbs := by
  obtain ⟨h0, hlt⟩ := fmod_range_of_pos a hb
  omega

theorem expMod_natAbs_le (a : Int) (e : Nat) {n : Int} (hn : 0 < n) : (expMod a e n.toNat).natAbs ≤ n.natAbs := by
  have hpos : 0 < n.toNat := by omega
  rw [expMod_eq a e n.toNat hpos]
  have h0 := Int.emod_nonneg (a ^ e) (b := n.toNat) (by omega)
  have hlt := Int.emod_lt_of_pos (a ^ e) (b := n.toNat) (by omega)
  omega

theorem rrConst_natAbs_le {n : Int} (hn : 0 < n) : (rrConst n.toNat : Int).natAbs ≤ n.natAbs := by
  have hlt : rrConst n.toNat < n.toNat := Nat.mod_lt _ (by omega)
  omega

/-! ### The registers of a completed command -/

/-- `q` is what a commit leaves in `r`, of a value that fits the ceiling where the invariant holds (R24). -/
def State.CommitOf (s : State) (r : RegNo) (q : MReg) : Prop :=
  ∃ v : Int, (s.Sound → s.Fits v) ∧ q = (s.reg r).commit v

/-- What a completed command may leave in a register of its write set: the three ways of R25. -/
def State.WayOfR25 (s : State) (r : RegNo) (q : MReg) : Instr → Prop
  | .init _ => q = MReg.empty
  | .free _ => q = MReg.empty
  | .grow _ => s.count ≤ s.params.maxLimbs ∧ q = (s.reg r).grow s.count
  | _ => s.CommitOf r q

/-- Register `r` holds something with the property `P` wherever this outcome is a successful completion. -/
def Leaves (r : RegNo) (P : MReg → Prop) : Host.Outcome State Fault Refusal → Prop :=
  Ensures fun t => t.status.err = 0 → P (t.reg r)

section Leaves

variable {s : State} {r : RegNo} {P : MReg → Prop}

theorem leaves_raise (c : Word) (e : ErrCode) (he : e ≠ .ok) : Leaves r P (s.raise c e) :=
  ensures_raise fun herr => absurd ((code_eq_zero e).1 herr) he

theorem leaves_done {u : State} (h : P (u.reg r)) : Leaves r P u.done := ensures_done fun _ => h

theorem leaves_ite {c : Prop} [Decidable c] {o o' : Host.Outcome State Fault Refusal} (h : c → Leaves r P o)
    (h' : ¬ c → Leaves r P o') : Leaves r P (if c then o else o') := ensures_ite h h'

theorem leaves_commit_done {v : Int} (hv : s.Sound → s.Fits v) : Leaves r (s.CommitOf r) (s.commit r v).done :=
  leaves_done ⟨v, hv, commit_reg_self s r v⟩

theorem leaves_finish (c : Word) (v : Int) : Leaves r (s.CommitOf r) (s.finish c r v) :=
  leaves_ite (fun h => leaves_commit_done fun _ => h) fun _ => leaves_raise c _ (by decide)

/-- Of two optional commits to different registers, each enabled one is in its register. -/
theorem leaves_commits (b c : Bool) (i j : RegNo) (v x : Int) (hr : (b = true ∧ r = i) ∨ (c = true ∧ r = j))
    (hne : ¬ (b = true ∧ c = true ∧ i = j)) (hv : s.Sound → s.Fits v) (hx : s.Sound → s.Fits x) :
    Leaves r (s.CommitOf r) ((s.commitIf b i v).commitIf c j x).done := by
  apply leaves_done
  rcases hr with ⟨rfl, rfl⟩ | ⟨rfl, rfl⟩
  · refine ⟨v, hv, ?_⟩
    rw [commitIf_reg_ne, commitIf_true, commit_reg_self]
    exact fun hc hij => hne ⟨rfl, hc, hij⟩
  · refine ⟨x, hx, ?_⟩
    rw [commitIf_true, commit_reg_self, commitIf_reg_ne]
    exact fun hb hji => hne ⟨hb, rfl, hji.symm⟩

theorem leaves_divide (c : Word) (qen ren : Bool) (rd re ra : RegNo) (b : Int)
    (hr : (qen = true ∧ r = rd) ∨ (ren = true ∧ r = re))
    (hb : s.Sound → ∀ v : Int, v.natAbs ≤ b.natAbs → s.Fits v) :
    Leaves r (s.CommitOf r) (s.divide c qen ren rd re (s.val ra) b) := by
  refine leaves_ite (fun _ => leaves_raise c _ (by decide)) fun hne => ?_
  refine leaves_ite (fun _ => leaves_raise c _ (by decide)) fun hb0 => ?_
  exact leaves_commits qen ren rd re _ _ hr hne (fun hs => hs.fits_of_le_val (tdiv_natAbs_le _ _))
    fun hs => hb hs _ (tmod_natAbs_lt _ _ hb0).le

theorem leaves_expmodCommit (mode : RRMode) (rd re ra rc : RegNo) (e : Nat) (hn : 0 < s.val rc)
    (hne : ¬ (mode = .stored ∧ re = rd)) (hr : r = rd ∨ (mode = .stored ∧ r = re)) :
    Leaves r (s.CommitOf r) (s.expmodCommit mode rd re ra e (s.val rc).toNat) := by
  refine leaves_ite (fun hm => leaves_done ?_) fun _ => ?_
  · obtain rfl : r = rd := hr.resolve_right fun h => by rw [h.1] at hm; exact absurd hm.1 (by decide)
    exact ⟨_, fun _ => drawInt_fits s, commit_reg_self s r _⟩
  · exact leaves_commits true (mode = .stored) rd re _ _ (by simpa using hr) (by simpa [eq_comm] using hne)
      (fun hs => hs.fits_of_le_val (expMod_natAbs_le _ _ hn)) fun hs => hs.fits_of_le_val (rrConst_natAbs_le hn)

end Leaves

theorem execSubabs_leaves (s : State) (rd ra rb : RegNo) : Leaves rd (s.CommitOf rd) (execSubabs rd ra rb s) := by
  refine leaves_ite (fun _ => leaves_raise _ _ (by decide)) fun h => leaves_commit_done fun hs => ?_
  exact hs.fits_of_le_mag (i := ra) (by omega)

theorem execMod_leaves (s : State) (rd ra rb : RegNo) : Leaves rd (s.CommitOf rd) (execMod rd ra rb s) := by
  refine leaves_ite (fun _ => leaves_raise _ _ (by decide)) fun h0 => ?_
  refine leaves_ite (fun _ => leaves_raise _ _ (by decide)) fun h1 => leaves_commit_done fun hs => ?_
  exact hs.fits_of_le_val (fmod_natAbs_le (by omega))

theorem execShl_leaves (s : State) (rd : RegNo) : Leaves rd (s.CommitOf rd) (execShl rd s) := by
  refine leaves_ite (fun h => leaves_commit_done fun _ => ?_) fun _ => leaves_raise _ _ (by decide)
  have habs : (if s.mag rd = 0 then (0 : Int) else s.val rd * 2 ^ s.count).natAbs = s.mag rd * 2 ^ s.count := by
    split
    · next h0 => simp [h0]
    · rw [Int.natAbs_mul, Int.natAbs_pow, State.val, MReg.val_natAbs]
      rfl
  rw [State.Fits, habs]
  exact (shiftFits_iff s _ _).1 h

@[simp] theorem sign_toInt_natAbs (g : Sign) : g.toInt.natAbs = 1 := by cases g <;> rfl

theorem execShr_leaves (s : State) (rd : RegNo) : Leaves rd (s.CommitOf rd) (execShr rd s) := by
  refine leaves_commit_done fun hs => hs.fits_of_le_mag (i := rd) ?_
  rw [Int.natAbs_mul, sign_toInt_natAbs, one_mul, Int.natAbs_natCast, Nat.shiftRight_eq_div_pow]
  exact Nat.div_le_self _ _

theorem execExpmod_leaves (s : State) (mode : RRMode) (r rd re ra rb rc : RegNo)
    (hr : r = rd ∨ (mode = .stored ∧ r = re)) :
    Leaves r (s.CommitOf r) (execExpmod mode rd re ra rb rc s) := by
  refine leaves_ite (fun _ => leaves_raise _ _ (by decide)) fun _ => ?_
  refine leaves_ite (fun _ => leaves_raise _ _ (by decide)) fun hne => ?_
  refine leaves_ite (fun _ => leaves_raise _ _ (by decide)) fun hn => ?_
  refine leaves_ite (fun _ => leaves_raise _ _ (by decide)) fun _ => ?_
  refine leaves_ite (fun _ => leaves_raise _ _ (by decide)) fun _ => ?_
  exact leaves_expmodCommit mode rd re ra rc _ (by omega) hne hr

/-- THE REGISTERS AFTER A COMMAND: a completed command leaves each register of its write set in one of the ways of R25. -/
theorem exec_leaves (i : Instr) (s : State) (r : RegNo) (hr : r ∈ (touched s i).regs) :
    Leaves r (fun q => s.WayOfR25 r q i) (exec i s) := by
  cases i with
  | init rd | free rd =>
    obtain rfl : r = rd := by simpa [touched] using hr
    exact leaves_done (setReg_reg_self s r _)
  | grow rd =>
    obtain rfl : r = rd := by simpa [touched] using hr
    exact leaves_ite (fun h => leaves_done ⟨h, setReg_reg_self s r _⟩) fun _ => leaves_raise _ _ (by decide)
  | sets rd =>
    obtain rfl : r = rd := by simpa [touched] using hr
    exact leaves_commit_done fun hs => hs.fits_of_le_small le_rfl
  | copy rd ra =>
    obtain rfl : r = rd := by simpa [touched] using hr
    exact leaves_commit_done fun hs => hs.fits_of_le_val le_rfl
  | importBuf rd =>
    obtain rfl : r = rd := by simpa [touched] using hr
    exact leaves_ite (fun _ => leaves_finish _ _) fun _ => leaves_raise _ _ (by decide)
  | shl rd =>
    obtain rfl : r = rd := by simpa [touched] using hr
    exact execShl_leaves s r
  | shr rd =>
    obtain rfl : r = rd := by simpa [touched] using hr
    exact execShr_leaves s r
  | addabs rd ra rb | add rd ra rb | sub rd ra rb | mul rd ra rb | muls rd ra =>
    obtain rfl : r = rd := by simpa [touched] using hr
    exact leaves_finish _ _
  | subabs rd ra rb =>
    obtain rfl : r = rd := by simpa [touched] using hr
    exact execSubabs_leaves s r ra rb
  | div qen ren rd re ra rb =>
    exact leaves_divide _ qen ren rd re ra _ (by simpa [touched] using hr) fun hs _ => hs.fits_of_le_val
  | divs qen ren rd re ra =>
    exact leaves_divide _ qen ren rd re ra _ (by simpa [touched] using hr) fun hs _ => hs.fits_of_le_small
  | mod rd ra rb =>
    obtain rfl : r = rd := by simpa [touched] using hr
    exact execMod_leaves s r ra rb
  | expmod mode rd re ra rb rc =>
    exact execExpmod_leaves s mode r rd re ra rb rc (by simpa [touched] using hr)
  | exportBuf | bitlen | size | cmpabs | cmp | cmps | mods => simp [touched] at hr

end Sys2Proof.Machine
end

section
/-! O17, O18, O19, O26: the capacities after a command, and the invariant at reset and along steps and runs. -/

namespace Sys2Proof.Machine

/-! ### Registers in the ways of R25 -/

theorem MReg.empty_wf (p : Config.Params) : MReg.empty.Wf p := ⟨Nat.zero_le _, fun _ => rfl⟩

theorem MReg.commit_wf {p : Config.Params} {r : MReg} {v : Int} (hr : r.Wf p) (hv : limbCount v.natAbs ≤ p.maxLimbs) :
    (r.commit v).Wf p := by
  refine ⟨by rw [MReg.commit_cap]; exact max_le hr.1 hv, fun h => ?_⟩
  have h0 : v = 0 := by simpa using h
  subst h0
  rfl

theorem MReg.grow_wf {p : Config.Params} {r : MReg} {n : Nat} (hr : r.Wf p) (hn : n ≤ p.maxLimbs) : (r.grow n).Wf p :=
  ⟨by rw [MReg.grow_cap]; exact max_le hr.1 hn, fun h => hr.2 (by rwa [MReg.grow_mag] at h)⟩

theorem State.Sound.wayOfR25_wf {s : State} (hs : s.Sound) {r : RegNo} {q : MReg} {i : Instr} (h : s.WayOfR25 r q i) :
    q.Wf s.params := by
  cases i
  case init | free => rw [show q = MReg.empty from h]; exact MReg.empty_wf _
  case grow => obtain ⟨hn, rfl⟩ := h; exact MReg.grow_wf (hs.regs r) hn
  all_goals obtain ⟨v, hv, rfl⟩ := h; exact MReg.commit_wf (hs.regs r) (hv hs)

theorem State.CommitOf.cap {s : State} {r : RegNo} {q : MReg} (h : s.CommitOf r q) :
    q.cap = max (s.reg r).cap (limbCount q.mag) := by
  obtain ⟨v, -, rfl⟩ := h
  rw [MReg.commit_cap, MReg.commit_mag]

end Sys2Proof.Machine

namespace Sys2Proof

open Sys2Proof.Machine

/-- Settles O26: a fault leaves the registers, a completed command those outside its write set, and the others it leaves in one
of the three ways. -/
theorem capacityChangesInThreeWays : Obligations.CapacityChangesInThreeWays := by
  intro i s t r h
  by_cases he : t.status.err = 0
  · by_cases hr : r ∈ (touched s i).regs
    · rw [if_neg (by simp [he, hr])]
      have hway : s.WayOfR25 r (t.reg r) i := exec_leaves i s r hr t h he
      cases i
      case init | free => rw [show t.reg r = MReg.empty from hway]; rfl
      case grow => rw [hway.2]; exact MReg.grow_cap _ _
      all_goals exact hway.cap
    · rw [if_pos (.inr hr), (completes_of_err_eq_zero h he).keeps.regs r hr]
  · rw [if_pos (.inl he)]
    rcases exec_next_cases h with ⟨e, -, rfl⟩ | hc
    · rfl
    · exact absurd hc.err he

end Sys2Proof

namespace Sys2Proof.Machine

/-! ### The invariant: a command keeps its sound part -/

theorem cmpBits_cmp3_ne (x y : Int) : cmpBits (cmp3 x y) ≠ 2 := by
  unfold cmp3
  split
  · decide
  · split <;> decide

/-- A command leaves in CMP what it held, or a three-way result (R32). -/
theorem exec_cmp_ne {i : Instr} {s t : State} (hs : s.status.cmp ≠ 2) (h : exec i s = .next t)
    (hc : s.Completes (touched s i) t) : t.status.cmp ≠ 2 := by
  cases i
  case cmpabs | cmp | cmps => cases h; exact cmpBits_cmp3_ne _ _
  all_goals rw [hc.keeps.cmp rfl]; exact hs

/-- The bytes listed in BMEM are in rising order below `n`. -/
def Memory.Canonical (n : Nat) (mem : Memory) : Prop := Memory.wf mem ∧ ∀ c ∈ mem, c.1 < n

theorem Memory.Canonical.memWrite {s : State} {n a : Nat} {bs : List Byte} (h : Memory.Canonical n s.bmem)
    (hbs : a + bs.length ≤ n) : Memory.Canonical n (s.memWrite a bs).bmem :=
  ⟨wf_memWrite s a bs h.1, Memory.bounded_writeBytes _ _ _ _ h.2 hbs⟩

/-- EXPORT writes inside the buffer, which it has found in range (R107). -/
theorem execExport_canonical {s : State} (ra : RegNo) (h : Memory.Canonical s.params.bufBytes s.bmem) :
    Ensures (fun t => Memory.Canonical s.params.bufBytes t.bmem) (execExport ra s) := by
  refine ensures_ite (fun _ => ensures_done h) fun _ => ensures_ite (fun _ => ensures_raise h) fun hrange => ?_
  refine ensures_ite (fun _ => ensures_raise h) fun _ => ensures_done (h.memWrite ?_)
  rw [natBe_length]
  exact not_not.1 hrange

/-- EXPORT alone writes bytes of BMEM. -/
theorem exec_canonical {i : Instr} {s t : State} (hm : Memory.Canonical s.params.bufBytes s.bmem)
    (h : exec i s = .next t) (hc : s.Completes (touched s i) t) : Memory.Canonical s.params.bufBytes t.bmem := by
  cases i
  case exportBuf ra => exact execExport_canonical ra hm t h
  all_goals rw [hc.keeps.memory rfl]; exact hm

/-- A completed command keeps the sound part of the invariant. -/
theorem exec_completes_sound {i : Instr} {s t : State} (hs : s.Sound) (h : exec i s = .next t)
    (hc : s.Completes (touched s i) t) : t.Sound := by
  have hp : t.params = s.params := hc.keeps.params
  obtain ⟨hrising, hinside⟩ := exec_canonical ⟨hs.rising, hs.inside⟩ h hc
  refine ⟨hp ▸ hs.params, fun r => ?_, hrising, hp ▸ hinside, exec_cmp_ne hs.cmp h hc⟩
  rw [hp]
  by_cases hr : r ∈ (touched s i).regs
  · exact hs.wayOfR25_wf (exec_leaves i s r hr t h hc.err)
  · rw [hc.keeps.regs r hr]
    exact hs.regs r

/-! ### The invariant: fault entry, issue, access, step -/

/-- INVALID_CHAR is the one code of R190 that nothing raises (U6). -/
def AvoidsInvalidChar : Host.Outcome State Fault Refusal → Prop := Ensures fun t => t.status.err ≠ ErrCode.invalidChar.code

theorem raise_avoids (s : State) (c : Word) {e : ErrCode} (h : e.code ≠ ErrCode.invalidChar.code) :
    AvoidsInvalidChar (s.raise c e) := ensures_raise h

theorem done_avoids (s : State) : AvoidsInvalidChar s.done := ensures_done (show ErrCode.ok.code ≠ _ by decide)

theorem finish_avoids (s : State) (c : Word) (rd : RegNo) (v : Int) : AvoidsInvalidChar (s.finish c rd v) :=
  ensures_ite (fun _ => done_avoids _) fun _ => raise_avoids s c (by decide)

theorem divide_avoids (s : State) (c : Word) (qen ren : Bool) (rd re : RegNo) (a b : Int) :
    AvoidsInvalidChar (s.divide c qen ren rd re a b) :=
  ensures_ite (fun _ => raise_avoids s c (by decide)) fun _ =>
    ensures_ite (fun _ => raise_avoids s c (by decide)) fun _ => done_avoids _

theorem execExpmod_avoids (s : State) (mode : RRMode) (rd re ra rb rc : RegNo) :
    AvoidsInvalidChar (execExpmod mode rd re ra rb rc s) := by
  iterate 5 refine ensures_ite (fun _ => raise_avoids s _ (by decide)) fun _ => ?_
  exact ensures_ite (fun _ => done_avoids _) fun _ => done_avoids _

theorem exec_avoids (i : Instr) (s : State) : AvoidsInvalidChar (exec i s) := by
  cases i with
  | init | free | sets | copy | bitlen | size | shr | cmpabs | cmp | cmps => exact done_avoids _
  | addabs | add | sub | mul | muls => exact finish_avoids _ _ _ _
  | grow | shl => exact ensures_ite (fun _ => done_avoids _) fun _ => raise_avoids s _ (by decide)
  | subabs => exact ensures_ite (fun _ => raise_avoids s _ (by decide)) fun _ => done_avoids _
  | importBuf => exact ensures_ite (fun _ => finish_avoids _ _ _ _) fun _ => raise_avoids s _ (by decide)
  | exportBuf =>
    exact ensures_ite (fun _ => done_avoids _) fun _ => ensures_ite (fun _ => raise_avoids s _ (by decide)) fun _ =>
      ensures_ite (fun _ => raise_avoids s _ (by decide)) fun _ => done_avoids _
  | mod | mods =>
    exact ensures_ite (fun _ => raise_avoids s _ (by decide)) fun _ =>
      ensures_ite (fun _ => raise_avoids s _ (by decide)) fun _ => done_avoids _
  | div | divs => exact divide_avoids _ _ _ _ _ _ _ _
  | expmod mode rd re ra rb rc => exact execExpmod_avoids s mode rd re ra rb rc

theorem code_toNat_lt (e : ErrCode) : e.code.toNat < 8 := by cases e <;> decide

/-- Fault entry makes a sound state one with the invariant, BUSY or not (R195). -/
theorem faultRecord_inv {s : State} (hs : s.Sound) (c : Word) {e : ErrCode} (hne : e ≠ .ok)
    (hprod : e.code ≠ ErrCode.invalidChar.code) : (s.faultRecord c e).Inv :=
  (inv_iff _).2 ⟨⟨hs.params, hs.regs, hs.rising, hs.inside, hs.cmp⟩, rfl, code_toNat_lt e, hprod,
    fun _ h => hne ((code_eq_zero e).1 h)⟩

/-- A command accepted in a sound state ends in one with the invariant. -/
theorem exec_inv {i : Instr} {s t : State} (hs : s.Sound) (hf : s.status.fault = false) (h : exec i s = .next t) : t.Inv := by
  rcases exec_next_cases h with ⟨e, hne, rfl⟩ | hc
  · exact faultRecord_inv hs _ hne (exec_avoids i s _ h)
  · refine (inv_iff t).2 ⟨exec_completes_sound hs h hc, hc.busy, by simp [hc.err], by simp [hc.err], fun ht => ?_⟩
    rw [hc.keeps.fault, hf] at ht
    cases ht

theorem issued_sound {s : State} (hs : s.Sound) : s.issued.Sound := ⟨hs.params, hs.regs, hs.rising, hs.inside, hs.cmp⟩

theorem issue_inv {s t : State} {w : Word} (hs : s.Inv) (h : s.issue w = .next t) : t.Inv := by
  have hsound : s.issued.Sound := issued_sound ((inv_iff s).1 hs).1
  rcases issue_cases h with ⟨-, rfl⟩ | ⟨hf, rfl | ⟨i, hx⟩⟩
  · exact hs
  · exact faultRecord_inv hsound w (by decide) (by decide)
  · exact exec_inv hsound hf hx

theorem reset_reg (i : RegNo) : State.reset.reg i = MReg.empty := by simp [State.reg, State.reset]

theorem applyReset_reg (s : State) (i : RegNo) : s.applyReset.reg i = MReg.empty := reset_reg i

theorem applyReset_inv {s : State} (hp : s.params.Valid) : s.applyReset.Inv := by
  have hlegal : Status.reset.Legal := by decide
  refine ⟨hp, fun i => ?_, wf_reset, List.forall_mem_nil _, hlegal⟩
  rw [applyReset_reg]
  exact MReg.empty_wf _

theorem access_inv {s t : State} {a : Action} (hs : s.Inv) (h : s.access a = .next t) : t.Inv := by
  obtain ⟨hp, hr, hm, hb, hbusy, hcmp, hlt, hne, hf⟩ := hs
  rcases access_cases s t a h with
    ⟨w, -, hi⟩ | ⟨v, -, -, rfl⟩ | ⟨_, _, _, _, rfl⟩ | ⟨addr, v, haddr, rfl⟩ | ⟨_, rfl⟩ | ⟨-, rfl⟩
  case inr.inl => exact ⟨hp, hr, hm, hb, hbusy, hcmp, hlt, hne, fun hack => by cases hack⟩
  case inr.inr.inr.inl =>
    obtain ⟨hm', hb'⟩ := Memory.Canonical.memWrite (bs := [v]) ⟨hm, hb⟩ haddr
    exact ⟨hp, hr, hm', hb', hbusy, hcmp, hlt, hne, hf⟩
  case inr.inr.inr.inr.inr => exact applyReset_inv hp
  case inl => exact issue_inv ⟨hp, hr, hm, hb, hbusy, hcmp, hlt, hne, hf⟩ hi
  all_goals exact ⟨hp, hr, hm, hb, hbusy, hcmp, hlt, hne, hf⟩

theorem step_inv {s t : State} (hs : s.Inv) (h : step s = .next t) : t.Inv := by
  rcases step_cases h with ⟨-, rfl⟩ | ⟨a, rest, -, ha⟩
  · exact hs
  · exact access_inv (s := { s with pending := rest }) hs ha

theorem params_valid : Config.params.Valid := by
  have hlimbs := Config.limbsAboveFour.isLt
  have hbytes := Config.bytesAboveOne.isLt
  simp only [Config.Params.Valid, Config.params, Config.limbBits]
  omega

/-! ### Runs of defined moves -/

/-- A state with the invariant whose pending moves are all defined takes a step. -/
theorem step_next_of_defined {s : State} (hs : s.Inv) (hd : ∀ a ∈ s.pending, a.Defined s.params) :
    ∃ t, step s = .next t := by
  obtain ⟨hsound, hbusy, -⟩ := (inv_iff s).1 hs
  cases hp : s.pending with
  | nil => exact ⟨s, by simp only [step, hp]⟩
  | cons a rest =>
    rw [step_cons s a rest hp]
    exact perform_defined_next (s := { s with pending := rest }) hbusy (hd a (by simp [hp]))

theorem run_zero (s : State) : Sys2Proof.core.run 0 s = .next s := rfl

theorem run_succ_of_step {s u : State} (n : Nat) (h : step s = .next u) :
    Sys2Proof.core.run (n + 1) s = Sys2Proof.core.run n u := by
  have hcore : Sys2Proof.core.step s = .next u := h
  simp only [Host.Core.run, hcore]

end Sys2Proof.Machine

namespace Sys2Proof

open Sys2Proof.Machine

/-- Settles O18: the step is idle or an access, and every kind of access keeps the invariant. -/
theorem everyStepKeepsTheInvariant : Obligations.EveryStepKeepsTheInvariant := fun _ _ => step_inv

/-- Settles O19, by induction on the number of steps: each performs one defined move and keeps the invariant and the
parameters, so the remaining moves are still defined. -/
theorem definedMovesNeverStopTheMachine : Obligations.DefinedMovesNeverStopTheMachine := by
  intro n
  induction n with
  | zero => exact fun s hs _ => ⟨s, run_zero s, hs, rfl⟩
  | succ n ih =>
    intro s hs hd
    obtain ⟨u, hu⟩ := step_next_of_defined hs hd
    obtain ⟨hparams, hpending⟩ := step_keeps_params_pending hu
    have hdu : ∀ a ∈ u.pending, a.Defined u.params := fun a ha =>
      hparams ▸ hd a (List.mem_of_mem_tail (hpending ▸ ha))
    obtain ⟨t, ht, hinv, hrest⟩ := ih u (step_inv hs hu) hdu
    exact ⟨t, (run_succ_of_step n hu).trans ht, hinv, by rw [hrest, hpending, List.drop_tail]⟩

/-- Settles O17: the parameters are within R7 whatever the unit's build chose, and the rest is R51's values. -/
theorem resetStateSatisfiesInvariant : Obligations.ResetStateSatisfiesInvariant :=
  applyReset_inv (s := State.reset) params_valid

end Sys2Proof
end

section
/-! O27: units alike but for their registers' storage, the registers holding the same values, stay so under every action. -/

namespace Sys2Proof.Machine

/-- `s'` is `s` but for the storage of its registers, which hold the same values (R28, R50). -/
def State.Alike (s s' : State) : Prop := (∀ i, s'.val i = s.val i) ∧ s' = { s with m := s'.m }

/-- Whatever next state `o` is, `o'` is one alike to it. -/
def AlikeEnds (o o' : Host.Outcome State Fault Refusal) : Prop := ∀ t, o = .next t → ∃ t', o' = .next t' ∧ t.Alike t'

theorem alikeEnds_fault (r : Fault) (o' : Host.Outcome State Fault Refusal) : AlikeEnds (.fault r) o' := nofun

theorem alikeEnds_refused (r : Refusal) (o' : Host.Outcome State Fault Refusal) : AlikeEnds (.refused r) o' := nofun

/-- Both sides take the same branch. -/
theorem alikeEnds_ite {c c' : Prop} [Decidable c] [Decidable c'] {o₁ o₂ o₁' o₂' : Host.Outcome State Fault Refusal}
    (hc : c' ↔ c) (h₁ : AlikeEnds o₁ o₁') (h₂ : AlikeEnds o₂ o₂') :
    AlikeEnds (if c then o₁ else o₂) (if c' then o₁' else o₂') := by
  by_cases h : c
  · rwa [if_pos h, if_pos (hc.2 h)]
  · rwa [if_neg h, if_neg (mt hc.1 h)]

namespace State.Alike

section

variable {s s' : State} (h : s.Alike s')
include h

theorem next : AlikeEnds (.next s) (.next s') := by
  intro t ht
  cases ht
  exact ⟨s', rfl, h⟩

/-! ### What a command reads is the same in alike states -/

/-- States alike agree on whatever does not look at the registers. -/
theorem agree {α : Type} (f : State → α) (hf : ∀ m, f { s with m := m } = f s) : f s' = f s :=
  (congrArg f h.2).trans (hf _)

theorem val_eq (i : RegNo) : s'.val i = s.val i := h.1 i

theorem mag_eq (i : RegNo) : s'.mag i = s.mag i := by
  rw [State.mag, State.mag, ← MReg.val_natAbs, ← MReg.val_natAbs]
  exact congrArg Int.natAbs (h.1 i)

theorem status_eq : s'.status = s.status := h.agree State.status fun _ => rfl
theorem params_eq : s'.params = s.params := h.agree State.params fun _ => rfl
theorem small_eq : s'.small = s.small := h.agree State.small fun _ => rfl
theorem count_eq : s'.count = s.count := h.agree State.count fun _ => rfl
theorem bufAddr_eq : s'.bufAddr = s.bufAddr := h.agree State.bufAddr fun _ => rfl
theorem bufLen_eq : s'.bufLen = s.bufLen := h.agree State.bufLen fun _ => rfl
theorem byteAt_eq (a : Nat) : s'.byteAt a = s.byteAt a := h.agree (State.byteAt · a) fun _ => rfl
theorem memRead_eq (a n : Nat) : s'.memRead a n = s.memRead a n := h.agree (State.memRead · a n) fun _ => rfl
theorem drawInt_eq : s'.drawInt = s.drawInt := h.agree State.drawInt fun _ => rfl
theorem draws_eq : s'.draws = s.draws := h.agree State.draws fun _ => rfl
theorem replies_eq : s'.replies = s.replies := h.agree State.replies fun _ => rfl
theorem readScalar_eq (r : ScalarReg) : s'.readScalar r = s.readScalar r := h.agree (State.readScalar · r) fun _ => rfl
theorem placeAt_eq (o : Nat) : s'.placeAt o = s.placeAt o := h.agree (State.placeAt · o) fun _ => rfl

/-! ### Updates keep states alike -/

/-- The same update of other fields on both sides, one that commutes with the replacement of the registers. -/
theorem update {f : State → State} (hm : ∀ u, (f u).m = u.m) (hf : ∀ m, f { s with m := m } = { f s with m := m }) :
    (f s).Alike (f s') := by
  have heq : f s' = { f s with m := s'.m } := by
    conv_lhs => rw [h.2]
    exact hf s'.m
  refine ⟨fun i => ?_, by rw [heq]⟩
  simpa only [State.val, State.reg, hm] using h.1 i

theorem setReg (i : RegNo) {q q' : MReg} (hq : q'.val = q.val) : (s.setReg i q).Alike (s'.setReg i q') := by
  refine ⟨fun j => ?_, ?_⟩
  · by_cases hj : j = i
    · simpa [State.val, hj] using hq
    · simpa [State.val, setReg_reg_ne, hj] using h.1 j
  · conv_lhs => rw [h.2]
    rfl

theorem commit (i : RegNo) (v : Int) : (s.commit i v).Alike (s'.commit i v) := h.setReg i (by simp)

theorem commitIf (b : Bool) (i : RegNo) (v : Int) : (s.commitIf b i v).Alike (s'.commitIf b i v) := by
  cases b
  · exact h
  · exact h.commit i v

theorem done : AlikeEnds s.done s'.done :=
  (h.update (f := fun u => { u with status := u.status.completed }) (fun _ => rfl) fun _ => rfl).next

theorem raise (c : Word) (e : ErrCode) : AlikeEnds (s.raise c e) (s'.raise c e) :=
  (h.update (f := fun u => { u with status := u.status.faulted e, ecmd := c }) (fun _ => rfl) fun _ => rfl).next

theorem setCmp_done (r : Int) : AlikeEnds (s.setCmp r).done (s'.setCmp r).done :=
  (h.update (f := (State.setCmp · r)) (fun _ => rfl) fun _ => rfl).done

theorem memWrite (a : Nat) (bs : List Byte) : (s.memWrite a bs).Alike (s'.memWrite a bs) :=
  h.update (f := (State.memWrite · a bs)) (fun _ => rfl) fun _ => rfl

theorem blen_done (v : Word) : AlikeEnds (State.done { s with blen := v }) (State.done { s' with blen := v }) :=
  (h.update (f := fun u => { u with blen := v }) (fun _ => rfl) fun _ => rfl).done

theorem resn_done (v : Word) : AlikeEnds (State.done { s with resn := v }) (State.done { s' with resn := v }) :=
  (h.update (f := fun u => { u with resn := v }) (fun _ => rfl) fun _ => rfl).done

theorem resw_done (v : Word) : AlikeEnds (State.done { s with resw := v }) (State.done { s' with resw := v }) :=
  (h.update (f := fun u => { u with resw := v }) (fun _ => rfl) fun _ => rfl).done

/-! ### The shared ends of commands -/

theorem finish (c : Word) (rd : RegNo) (v : Int) : AlikeEnds (s.finish c rd v) (s'.finish c rd v) :=
  alikeEnds_ite (by rw [State.Fits, h.params_eq]) (h.commit rd v).done (h.raise c _)

theorem divide (c : Word) (qen ren : Bool) (rd re : RegNo) (a b : Int) :
    AlikeEnds (s.divide c qen ren rd re a b) (s'.divide c qen ren rd re a b) :=
  alikeEnds_ite Iff.rfl (h.raise c _)
    (alikeEnds_ite Iff.rfl (h.raise c _) ((h.commitIf qen rd _).commitIf ren re _).done)

theorem draw (rd : RegNo) : AlikeEnds (State.done { s.commit rd s.drawInt with draws := s.draws + 1 })
    (State.done { s'.commit rd s'.drawInt with draws := s'.draws + 1 }) := by
  rw [h.drawInt_eq, h.draws_eq]
  exact ((h.commit rd _).update (f := fun u => { u with draws := s.draws + 1 }) (fun _ => rfl) fun _ => rfl).done

theorem expmodCommit (mode : RRMode) (rd re ra : RegNo) (e n : Nat) :
    AlikeEnds (s.expmodCommit mode rd re ra e n) (s'.expmodCommit mode rd re ra e n) := by
  refine alikeEnds_ite (by rw [h.val_eq]) (h.draw rd) ?_
  rw [h.val_eq]
  exact ((h.commit rd _).commitIf _ re _).done

end

end State.Alike

/-- SHR's result depends on the value alone, whatever the sign of a zero (R123). -/
theorem sign_mul_shiftRight_eq (r : MReg) (c : Nat) :
    r.sign.toInt * ((r.mag >>> c : Nat) : Int) = r.val.sign * ((r.val.natAbs >>> c : Nat) : Int) := by
  rw [MReg.val_natAbs]
  by_cases h0 : r.mag = 0
  · simp [h0]
  · have hsign : r.val.sign = r.sign.toInt := by
      rw [MReg.val, Int.sign_mul, Int.sign_natCast_of_ne_zero h0, mul_one]
      cases r.sign <;> rfl
    rw [hsign]

section Commands

variable {s s' : State} (h : s.Alike s')
include h

theorem execShr_alike (rd : RegNo) : AlikeEnds (execShr rd s) (execShr rd s') := by
  have hval : (s'.reg rd).val = (s.reg rd).val := h.1 rd
  simp only [execShr, State.mag, sign_mul_shiftRight_eq, hval, h.count_eq]
  exact (h.commit rd _).done

theorem bufInRange_alike : s'.BufInRange ↔ s.BufInRange := by
  rw [State.BufInRange, h.bufAddr_eq, h.bufLen_eq, h.params_eq]

theorem execExport_alike (ra : RegNo) : AlikeEnds (execExport ra s) (execExport ra s') := by
  simp only [execExport, h.mag_eq, h.bufAddr_eq, h.bufLen_eq]
  refine alikeEnds_ite Iff.rfl (h.blen_done _) (alikeEnds_ite (not_congr (bufInRange_alike h)) (h.raise _ _) ?_)
  exact alikeEnds_ite Iff.rfl (h.raise _ _) (h.memWrite _ _).done

theorem execMods_alike (ra : RegNo) : AlikeEnds (execMods ra s) (execMods ra s') := by
  simp only [execMods, h.val_eq, h.small_eq]
  exact alikeEnds_ite Iff.rfl (h.raise _ _) (alikeEnds_ite Iff.rfl (h.raise _ _) (h.resw_done _))

theorem execExpmod_alike (mode : RRMode) (rd re ra rb rc : RegNo) :
    AlikeEnds (execExpmod mode rd re ra rb rc s) (execExpmod mode rd re ra rb rc s') := by
  simp only [execExpmod, h.val_eq, h.params_eq]
  iterate 5 refine alikeEnds_ite Iff.rfl (h.raise _ _) ?_
  exact h.expmodCommit mode rd re ra _ _

/-- A command reads registers by their values only. -/
theorem exec_alike (i : Instr) : AlikeEnds (exec i s) (exec i s') := by
  cases i with
  | init rd | free rd => exact (h.setReg rd rfl).done
  | grow rd =>
    refine alikeEnds_ite (by rw [h.count_eq, h.params_eq]) (h.setReg rd ?_).done (h.raise _ _)
    rw [MReg.grow_val, MReg.grow_val]
    exact h.1 rd
  | sets rd => simp only [exec, execSets, h.small_eq]; exact (h.commit rd _).done
  | copy rd ra => simp only [exec, execCopy, h.val_eq]; exact (h.commit rd _).done
  | importBuf rd =>
    simp only [exec, execImport, h.memRead_eq, h.bufAddr_eq, h.bufLen_eq]
    exact alikeEnds_ite (bufInRange_alike h) (h.finish _ rd _) (h.raise _ _)
  | exportBuf ra => exact execExport_alike h ra
  | bitlen ra => simp only [exec, execBitlen, h.mag_eq]; exact h.resn_done _
  | size ra => simp only [exec, execSize, h.mag_eq]; exact h.resn_done _
  | shl rd =>
    simp only [exec, execShl, State.ShiftFits, h.mag_eq, h.val_eq, h.count_eq, h.params_eq]
    exact alikeEnds_ite Iff.rfl (h.commit rd _).done (h.raise _ _)
  | shr rd => exact execShr_alike h rd
  | cmpabs ra rb => simp only [exec, execCmpabs, h.mag_eq]; exact h.setCmp_done _
  | cmp ra rb => simp only [exec, execCmp, h.val_eq]; exact h.setCmp_done _
  | cmps ra => simp only [exec, execCmps, h.val_eq, h.small_eq]; exact h.setCmp_done _
  | addabs rd ra rb => simp only [exec, execAddabs, h.mag_eq]; exact h.finish _ rd _
  | subabs rd ra rb =>
    simp only [exec, execSubabs, h.mag_eq]
    exact alikeEnds_ite Iff.rfl (h.raise _ _) (h.commit rd _).done
  | add rd ra rb => simp only [exec, execAdd, h.val_eq]; exact h.finish _ rd _
  | sub rd ra rb => simp only [exec, execSub, h.val_eq]; exact h.finish _ rd _
  | mul rd ra rb => simp only [exec, execMul, h.val_eq]; exact h.finish _ rd _
  | muls rd ra => simp only [exec, execMuls, h.val_eq, h.small_eq]; exact h.finish _ rd _
  | div qen ren rd re ra rb => simp only [exec, execDiv, h.val_eq]; exact h.divide _ qen ren rd re _ _
  | divs qen ren rd re ra => simp only [exec, execDivs, h.val_eq, h.small_eq]; exact h.divide _ qen ren rd re _ _
  | mod rd ra rb =>
    simp only [exec, execMod, h.val_eq]
    exact alikeEnds_ite Iff.rfl (h.raise _ _) (alikeEnds_ite Iff.rfl (h.raise _ _) (h.commit rd _).done)
  | mods ra => exact execMods_alike h ra
  | expmod mode rd re ra rb rc => exact execExpmod_alike h mode rd re ra rb rc

/-! ### Issue and access -/

theorem issued_alike : s.issued.Alike s'.issued := h.update (fun _ => rfl) fun _ => rfl

theorem issue_alike (w : Word) : AlikeEnds (s.issue w) (s'.issue w) := by
  refine alikeEnds_ite (by rw [h.status_eq]) h.next ?_
  cases decode w with
  | illegal why => exact (issued_alike h).raise w _
  | command i => exact exec_alike (issued_alike h) i

theorem writeScalar_alike (v : Word) (r : ScalarReg) : AlikeEnds (s.writeScalar v r) (s'.writeScalar v r) := by
  cases r
  case cmd => exact issue_alike h v
  case ctrl =>
    by_cases hv : v.getLsbD 0 = true
    · simp only [State.writeScalar, if_pos hv]
      exact (h.update (f := State.ack) (fun _ => rfl) fun _ => rfl).next
    · simp only [State.writeScalar, if_neg hv]
      exact h.next
  case imm => exact (h.update (f := fun u => { u with imm := v }) (fun _ => rfl) fun _ => rfl).next
  case cnt => exact (h.update (f := fun u => { u with cnt := v }) (fun _ => rfl) fun _ => rfl).next
  case baddr => exact (h.update (f := fun u => { u with baddr := v }) (fun _ => rfl) fun _ => rfl).next
  case blen => exact (h.update (f := fun u => { u with blen := v }) (fun _ => rfl) fun _ => rfl).next
  all_goals exact h.next

theorem reply_alike (r : Reply) : AlikeEnds (.next { s with replies := r :: s.replies })
    (.next { s' with replies := r :: s'.replies }) :=
  (h.update (f := fun u => { u with replies := r :: u.replies }) (fun _ => rfl) fun _ => rfl).next

theorem applyReset_alike : s.applyReset.Alike s'.applyReset := by
  refine ⟨fun i => ?_, ?_⟩
  · rw [State.val, State.val, applyReset_reg, applyReset_reg]
  · conv_lhs => rw [h.2]
    rfl

/-- An access finds the same place in both states, so each kind of access leaves them alike. -/
theorem access_alike (a : Action) : AlikeEnds (s.access a) (s'.access a) := by
  cases a with
  | write32 o v =>
    simp only [State.access, h.placeAt_eq]
    cases s.placeAt o with
    | scalar r => exact writeScalar_alike h v r
    | insideWord | bmem => exact alikeEnds_refused _ _
    | nowhere => exact alikeEnds_fault _ _
  | read32 o =>
    simp only [State.access, h.placeAt_eq, h.readScalar_eq]
    cases s.placeAt o with
    | scalar r => exact reply_alike h _
    | insideWord | bmem => exact alikeEnds_refused _ _
    | nowhere => exact alikeEnds_fault _ _
  | write8 o v =>
    simp only [State.access, h.placeAt_eq]
    cases s.placeAt o with
    | bmem addr => exact (h.memWrite addr [v]).next
    | scalar | insideWord => exact alikeEnds_refused _ _
    | nowhere => exact alikeEnds_fault _ _
  | read8 o =>
    simp only [State.access, h.placeAt_eq, h.byteAt_eq]
    cases s.placeAt o with
    | bmem addr => exact reply_alike h _
    | scalar | insideWord => exact alikeEnds_refused _ _
    | nowhere => exact alikeEnds_fault _ _
  | reset => exact (applyReset_alike h).next

theorem perform_alike (a : Action) : AlikeEnds (s.perform a) (s'.perform a) :=
  alikeEnds_ite (by rw [h.status_eq]) (alikeEnds_refused _ _) (access_alike h a)

end Commands

end Sys2Proof.Machine

namespace Sys2Proof

open Sys2Proof.Machine

/-- Settles O27: every command reads registers by their values only, and every update keeps alike states alike. -/
theorem capacityIsNotObservable : Obligations.CapacityIsNotObservable := by
  intro s s' hval heq a t ht
  obtain ⟨t', ht', hv, he⟩ := perform_alike (s' := s') ⟨hval, heq⟩ a t ht
  exact ⟨t', ht', hv, he⟩

end Sys2Proof
end

section
/-! O6, O10 to O16, O30: the window's reads and writes, the commands' issue, acknowledge and reset, and the commit primitive. -/

namespace Sys2Proof.Machine

/-! ### Commands -/

theorem tableWord_toNat (w : Word) : tableWord 32 w.toNat = w :=
  BitVec.eq_of_toNat_eq (by rw [tableWord, Nat.mod_eq_of_lt w.isLt, BitVec.ofNat_toNat, BitVec.setWidth_eq])

theorem issue_command {s : State} {w : Word} {i : Instr} (hf : s.status.fault = false) (hd : decode w = .command i) :
    s.issue w = exec i s.issued := by
  simp only [State.issue, hf, hd, Bool.false_eq_true, if_false]

theorem step_write32 {s : State} {r : ScalarReg} {v : Word} {rest : List Action} (hb : s.status.busy = false)
    (hp : s.pending = .write32 r.offset v :: rest) : step s = State.writeScalar { s with pending := rest } v r := by
  rw [step_idle s _ rest hb hp, access_write32]

theorem step_read32 {s : State} {r : ScalarReg} {rest : List Action} (hb : s.status.busy = false)
    (hp : s.pending = .read32 r.offset :: rest) :
    step s = .next { s with pending := rest, replies := .word (s.readScalar r) :: s.replies } := by
  rw [step_idle s _ rest hb hp, access_read32]
  cases r <;> rfl

/-- A command word written to CMD of an idle, unfaulted unit is executed with BUSY set (R36). -/
theorem step_command {s : State} {w : Word} {i : Instr} {rest : List Action} (hb : s.status.busy = false)
    (hf : s.status.fault = false) (hd : decode w = .command i) (hp : s.pending = .write32 0x000 w :: rest) :
    step s = exec i (State.issued { s with pending := rest }) :=
  (step_write32 (r := .cmd) hb hp).trans (issue_command hf hd)

/-! ### FAULT -/

/-- While FAULT = 1 only the acknowledge and reset end with FAULT = 0. -/
theorem access_clears_fault {s t : State} {a : Action} (h : s.access a = .next t) (hs : s.status.fault = true)
    (ht : t.status.fault = false) : a = .reset ∨ ∃ v : Word, v.getLsbD 0 = true ∧ a = .write32 0x008 v := by
  have hst : ¬ t.status = s.status := fun heq => by rw [heq, hs] at ht; cases ht
  rcases access_cases s t a h with
    ⟨w, -, hi⟩ | ⟨v, rfl, hv, -⟩ | ⟨_, _, _, _, rfl⟩ | ⟨_, _, _, rfl⟩ | ⟨_, rfl⟩ | ⟨rfl, -⟩
  case inl =>
    rw [issue_of_fault w hs] at hi
    cases hi
    exact absurd rfl hst
  case inr.inl => exact .inr ⟨v, hv, rfl⟩
  case inr.inr.inr.inr.inr => exact .inl rfl
  all_goals exact absurd rfl hst

/-! ### STATUS as a number -/

/-- STATUS is the number its fields make (R35). -/
theorem status_word_toNat (st : Status) :
    st.word.toNat = st.err.toNat * 2 ^ 4 + st.cmp.toNat * 2 ^ 2 + st.fault.toNat * 2 + st.busy.toNat := by
  simp only [Status.word, append_toNat, BitVec.toNat_ofBool, BitVec.toNat_zero]
  omega

theorem status_word_field (st : Status) (k n : Nat) : (st.word.extractLsb' k n).toNat =
    (st.err.toNat * 2 ^ 4 + st.cmp.toNat * 2 ^ 2 + st.fault.toNat * 2 + st.busy.toNat) / 2 ^ k % 2 ^ n := by
  rw [BitVec.extractLsb'_toNat, status_word_toNat, Nat.shiftRight_eq_div_pow]

theorem status_word_bit (st : Status) (k : Nat) : st.word.getLsbD k =
    decide ((st.err.toNat * 2 ^ 4 + st.cmp.toNat * 2 ^ 2 + st.fault.toNat * 2 + st.busy.toNat) / 2 ^ k % 2 = 1) := by
  rw [BitVec.getLsbD, status_word_toNat, Nat.testBit_eq_decide_div_mod_eq]

theorem decide_eq_of_toNat {b : Bool} {n : Nat} (h : n = b.toNat) : decide (n = 1) = b := by
  subst h
  cases b <;> rfl

/-! ### Places that stop an access -/

theorem access_nowhere {s : State} {o : Nat} (h : s.placeAt o = .nowhere) (w : Word) (b : Byte) :
    ∀ a ∈ [Action.write32 o w, .read32 o, .write8 o b, .read8 o], s.access a = .fault .noSuchOffset := by
  simp [State.access, h]

theorem access32_undefinedWidth {s : State} {o : Nat} (h : s.placeAt o = .insideWord ∨ ∃ k, s.placeAt o = .bmem k)
    (w : Word) : ∀ a ∈ [Action.write32 o w, .read32 o], s.access a = .refused .undefinedWidth := by
  rcases h with h | ⟨k, h⟩ <;> simp [State.access, h]

theorem access8_undefinedWidth {s : State} {o : Nat} (h : s.placeAt o = .insideWord ∨ ∃ r, s.placeAt o = .scalar r)
    (b : Byte) : ∀ a ∈ [Action.write8 o b, .read8 o], s.access a = .refused .undefinedWidth := by
  rcases h with h | ⟨k, h⟩ <;> simp [State.access, h]

/-- Below 0x034 every offset is a scalar register's or inside one (R34). -/
theorem placeAt_below (s : State) {o : Nat} (h : o < 0x034) :
    s.placeAt o = .insideWord ∨ ∃ r, s.placeAt o = .scalar r := by
  by_cases h4 : o % 4 = 0
  · obtain ⟨r, rfl⟩ := exists_offset_eq o h4 (by omega)
    exact .inr ⟨r, placeAt_offset s r⟩
  · exact .inl (placeAt_insideWord s o h h4)

theorem perform_busy {s : State} {a : Action} (hb : s.status.busy = true) (ha : a.allowedWhileBusy = false) :
    s.perform a = .refused .accessWhileBusy := by
  simp [State.perform, hb, ha]

theorem perform_allowedWhileBusy (s : State) {a : Action} (ha : a.allowedWhileBusy = true) : s.perform a = s.access a := by
  simp [State.perform, ha]

/-! ### Reset -/

theorem empty_val : MReg.empty.val = 0 := rfl

theorem reset_status_word : Status.reset.word = 0 := by decide

/-- Reset empties every register (R51). -/
theorem reset_reg_values (i : RegNo) :
    (State.reset.reg i).cap = 0 ∧ (State.reset.reg i).sign = .plus ∧ State.reset.val i = 0 := by
  rw [State.val, reset_reg]
  exact ⟨rfl, rfl, empty_val⟩

/-! ### The commit primitive -/

/-- Every limb the commit primitive writes (R24). -/
theorem MReg.commit_limb (r : MReg) (v : Int) {j : Nat} (hj : j < (r.commit v).cap) :
    (r.commit v).limbs[j]? = some (BitVec.ofNat 32 (v.natAbs / Config.base ^ j)) := by
  rw [List.getElem?_eq_getElem hj]
  exact congrArg some (limbsOfNat_getElem _ _ j (by simpa using hj))

end Sys2Proof.Machine

namespace Sys2Proof

open Sys2Proof.Machine

/-- Settles O10: a step that clears FAULT is no idle step, so it is an access that clears FAULT. -/
theorem faultIsClearedOnlyByAckOrReset : Obligations.FaultIsClearedOnlyByAckOrReset := by
  intro s t h hs ht
  rcases step_cases h with ⟨-, rfl⟩ | ⟨a, rest, hp, ha⟩
  · rw [hs] at ht
    cases ht
  · rcases access_clears_fault ha hs ht with rfl | ⟨v, hv, rfl⟩
    · exact ⟨rest, .inl hp⟩
    · exact ⟨rest, .inr ⟨v, hv, hp⟩⟩

/-- Settles O30: each part is the commit's rule for that part of the register. -/
theorem commitStoresTheValue : Obligations.CommitStoresTheValue := by
  intro s i v _
  refine ⟨?cap, fun j hj => ?limb, ?sign, commit_val s i v, fun k => commit_reg_ne s i k v⟩
  case cap => rw [commit_reg_self, MReg.commit_cap]
  case limb =>
    rw [commit_reg_self] at hj ⊢
    rw [MReg.commit_limb _ _ hj]
    refine congrArg some (BitVec.eq_of_toNat_eq ?_)
    simp [pow_mul, Config.base]
  case sign => rw [commit_reg_self, MReg.commit_sign, Sign.ofInt]

/-- Settles O6: the write to CMD issues the word, and `withFetchWord` puts that write first. -/
theorem stepRunsTheDecodedCommand : Obligations.StepRunsTheDecodedCommand := by
  intro s w i hb hf hd
  refine ⟨fun rest hp => step_command hb hf hd hp, ?_⟩
  rw [State.withFetchWord, tableWord_toNat]
  exact step_command (s := { s with pending := .write32 0x000 w :: s.pending }) hb hf hd rfl

/-- Settles O11: the thirteen pairs are the scalar registers' offsets and what a read of each answers. -/
theorem scalarReadsAnswerTheMap : Obligations.ScalarReadsAnswerTheMap := by
  intro s rest hb p hp hpend
  have hpairs : p ∈ [ScalarReg.cmd, .status, .ctrl, .ecmd, .imm, .cnt, .baddr, .blen, .resn, .resw, .maxlimbs, .geom,
      .bufsz].map fun r => (r.offset, s.readScalar r) := hp
  obtain ⟨r, -, rfl⟩ := List.mem_map.1 hpairs
  exact step_read32 hb hpend

/-- Settles O12: four registers take the value, seven ignore it. -/
theorem scalarWritesFollowAccessRights : Obligations.ScalarWritesFollowAccessRights := by
  intro s v rest hb
  refine ⟨fun hp => step_write32 (r := .imm) hb hp, fun hp => step_write32 (r := .cnt) hb hp,
    fun hp => step_write32 (r := .baddr) hb hp, fun hp => step_write32 (r := .blen) hb hp, fun o ho hp => ?_⟩
  have hoffsets : o ∈ [ScalarReg.status, .ecmd, .resn, .resw, .maxlimbs, .geom, .bufsz].map ScalarReg.offset := ho
  obtain ⟨r, hr, rfl⟩ := List.mem_map.1 hoffsets
  rw [step_write32 hb hp]
  simp only [List.mem_cons, List.not_mem_nil, or_false] at hr
  rcases hr with rfl | rfl | rfl | rfl | rfl | rfl | rfl <;> rfl

/-- Settles O13: each field is a digit of the number the word is. -/
theorem statusWordAndOutputsShowTheFields : Obligations.StatusWordAndOutputsShowTheFields := by
  intro s
  have hbusy := s.status.busy.toNat_lt
  have hfault := s.status.fault.toNat_lt
  have hcmp := s.status.cmp.isLt
  have herr := s.status.err.isLt
  refine ⟨rfl, ?busy, ?fault, ?cmp, ?err, ?rest, rfl, rfl⟩
  case busy => rw [status_word_bit]; exact decide_eq_of_toNat (by omega)
  case fault => rw [status_word_bit]; exact decide_eq_of_toNat (by omega)
  case cmp => exact BitVec.eq_of_toNat_eq (by rw [status_word_field]; omega)
  case err => exact BitVec.eq_of_toNat_eq (by rw [status_word_field]; omega)
  case rest => exact BitVec.eq_of_toNat_eq (by rw [status_word_field, BitVec.ofNat_eq_ofNat, BitVec.toNat_zero]; omega)

/-- Settles O14: the host's write is a MemWrite of one byte. -/
theorem hostBytesReadBack : Obligations.HostBytesReadBack := by
  intro s a v hb ha
  constructor
  · refine ⟨s.memWrite a [v], (perform_idle s _ hb).trans (access_write8 s a v ha), ?_, fun x hx => ?_, rfl⟩
    · simp [byteAt_memWrite]
    · rw [byteAt_memWrite, if_neg]
      simp only [List.length_singleton]
      omega
  · exact (perform_idle s _ hb).trans (access_read8 s a ha)

/-- Settles O15: the place of the offset decides on an idle unit, the kind of access on a busy one. -/
theorem undefinedMovesStopByName : Obligations.UndefinedMovesStopByName := by
  intro s o w b
  refine ⟨fun hb ho a ha => ?nowhere, fun hb ho a ha => ?word, fun hb ho a ha => ?byte, fun hb => ⟨fun a ha => ?busy, ?read⟩,
    fun hb a => perform_defined_next hb, fun hb a ha => ?allowed⟩
  case nowhere => rw [perform_idle s a hb]; exact access_nowhere (placeAt_nowhere s o ho) w b a ha
  case word =>
    rw [perform_idle s a hb]
    refine access32_undefinedWidth (ho.imp (fun h => placeAt_insideWord s o h.1 h.2) fun h => ?_) w a ha
    obtain ⟨k, rfl⟩ := Nat.exists_eq_add_of_le h.1
    exact ⟨k, placeAt_bmem s k (Nat.lt_of_add_lt_add_left h.2)⟩
  case byte => rw [perform_idle s a hb]; exact access8_undefinedWidth (placeAt_below s ho) b a ha
  case busy =>
    simp only [List.mem_cons, List.not_mem_nil, or_false] at ha
    rcases ha with rfl | rfl | rfl <;> exact perform_busy hb rfl
  case read => exact fun ho => perform_busy hb (by simpa [Action.allowedWhileBusy] using ho)
  case allowed =>
    simp only [List.mem_cons, List.not_mem_nil, or_false] at ha
    rcases ha with rfl | rfl
    · exact ⟨_, (perform_allowedWhileBusy s rfl).trans (access_read32 s .status)⟩
    · exact ⟨_, perform_allowedWhileBusy s rfl⟩

/-- Settles O16: reset is never refused, and its state is the reset state with the unit's own parameters. -/
theorem resetGivesTheResetValues : Obligations.ResetGivesTheResetValues := by
  refine ⟨fun s rest hp => ?_, reset_reg_values, reset_status_word, rfl, rfl, rfl, rfl, rfl, rfl, rfl, rfl, rfl, rfl⟩
  have hstep : step s = .next (State.applyReset { s with pending := rest }) :=
    (step_cons s .reset rest hp).trans (perform_allowedWhileBusy _ rfl)
  exact ⟨_, hstep, reset_reg_values, reset_status_word, rfl, rfl, rfl, rfl, rfl, rfl, rfl, rfl, rfl, rfl⟩

end Sys2Proof
end

section
/-! SUPPORT. The idle step, the counterpart of `step_cons`; the total order of R69 is read off the two. -/

namespace Sys2Proof.Machine

/-- A step with no action pending leaves the unit as it is (R17). -/
theorem step_nil {s : State} (h : s.pending = []) : step s = .next s := by
  simp only [step, h]

end Sys2Proof.Machine

namespace Sys2Proof

open Sys2Proof.Machine

/-- Settles O7: a step with an action pending performs it, and no access changes the actions after it. -/
theorem eachStepPerformsOneAction : Obligations.EachStepPerformsOneAction := by
  refine fun s => ⟨step_nil, fun a rest hp => ⟨step_cons s a rest hp, fun t ht => ?_⟩⟩
  obtain ⟨-, hpending⟩ := step_keeps_params_pending ht
  rw [hpending, hp, List.tail_cons]

end Sys2Proof
end

section
/-! O1, O2, O4: the decoder and the encoder are inverse on legal words, by the opcode of a command and the fields its mask
leaves open. -/

namespace Sys2Proof

/-- The opcode of a command (R83). -/
def Instr.op : Instr → Op
  | .init _ => .init
  | .free _ => .free
  | .grow _ => .grow
  | .sets _ => .sets
  | .copy _ _ => .copy
  | .importBuf _ => .importBuf
  | .exportBuf _ => .exportBuf
  | .bitlen _ => .bitlen
  | .size _ => .size
  | .shl _ => .shl
  | .shr _ => .shr
  | .cmpabs _ _ => .cmpabs
  | .cmp _ _ => .cmp
  | .cmps _ => .cmps
  | .addabs _ _ _ => .addabs
  | .subabs _ _ _ => .subabs
  | .add _ _ _ => .add
  | .sub _ _ _ => .sub
  | .mul _ _ _ => .mul
  | .muls _ _ => .muls
  | .div _ _ _ _ _ _ => .div
  | .divs _ _ _ _ _ => .divs
  | .mod _ _ _ => .mod
  | .mods _ => .mods
  | .expmod _ _ _ _ _ _ => .expmod

/-! ### From the command to its word -/

theorem opField_encode (i : Instr) : opField (encode i) = i.op.code := by
  cases i <;> exact opField_assemble ..

/-- The opcode and the fields of a command's word stand for the command. -/
theorem build_fieldsOf_encode (i : Instr) : i.op.build (fieldsOf (encode i)) = i := by
  cases i <;> simp [Instr.op, Op.build, encode]

open Laws.EncodingMatchesTable in
theorem encodingMatchesTable : ∀ i : Instr, Statement i
  | .init rd => init rd
  | .free rd => free rd
  | .grow rd => grow rd
  | .sets rd => sets rd
  | .copy rd ra => copy rd ra
  | .importBuf rd => importBuf rd
  | .exportBuf ra => exportBuf ra
  | .bitlen ra => bitlen ra
  | .size ra => size ra
  | .shl rd => shl rd
  | .shr rd => shr rd
  | .cmpabs ra rb => cmpabs ra rb
  | .cmp ra rb => cmp ra rb
  | .cmps ra => cmps ra
  | .addabs rd ra rb => addabs rd ra rb
  | .subabs rd ra rb => subabs rd ra rb
  | .add rd ra rb => add rd ra rb
  | .sub rd ra rb => sub rd ra rb
  | .mul rd ra rb => mul rd ra rb
  | .muls rd ra => muls rd ra
  | .div qen ren rd re ra rb => div rd re ra rb qen ren
  | .divs qen ren rd re ra => divs rd re ra qen ren
  | .mod rd ra rb => mod rd ra rb
  | .mods ra => mods ra
  | .expmod mode rd re ra rb rc => expmod rd re ra rb rc mode

theorem Op.code_injective {o o' : Op} (h : o.code = o'.code) : o = o' :=
  Option.some.inj (((Op.ofCode_eq_some _ o).2 h).symm.trans ((Op.ofCode_eq_some _ o').2 rfl))

/-- Each row of R83 is the number, the *mask* and the *match* of an opcode. -/
theorem exists_op_of_row {row : BitVec 8 × Word × Word} (h : row ∈ Machine.tableR83) :
    ∃ o : Op, row = (o.code, o.mask, o.pattern) := by
  have htable : Machine.tableR83 = [Op.init, .free, .grow, .sets, .copy, .importBuf, .exportBuf, .bitlen, .size, .shl, .shr,
      .cmpabs, .cmp, .cmps, .addabs, .subabs, .add, .sub, .mul, .muls, .div, .divs, .mod, .mods, .expmod].map
      fun o => (o.code, o.mask, o.pattern) := rfl
  obtain ⟨o, -, rfl⟩ := List.mem_map.1 (htable ▸ h)
  exact ⟨o, rfl⟩

/-- Every command's word passes the mask test of its opcode. -/
theorem encode_and_mask (i : Instr) : encode i &&& i.op.mask = i.op.pattern := by
  obtain ⟨row, hrow, hcode, htest⟩ := encodingMatchesTable i
  obtain ⟨o, rfl⟩ := exists_op_of_row hrow
  obtain rfl : o = i.op := Op.code_injective (hcode.trans (opField_encode i))
  exact htest

/-- The one ill-formed command is EXPMOD with the reserved mode in its word (R86, R87 (c)). -/
theorem not_wellFormed_iff (i : Instr) :
    ¬ i.WellFormed ↔ i.op = .expmod ∧ rrModeOfField (fieldsOf (encode i)).fl = .reserved := by
  cases i <;> simp [Instr.WellFormed, Instr.wellFormed, Instr.op, encode]

/-! ### The decoder -/

/-- What `decode` answers for a word that passes its opcode's mask test (R88). -/
theorem decode_of_mask {w : Word} {o : Op} (hcode : o.code = opField w) (hmask : w &&& o.mask = o.pattern) :
    decode w = if o = .expmod ∧ rrModeOfField (fieldsOf w).fl = .reserved then .illegal .reservedRRMode
      else .command (o.build (fieldsOf w)) := by
  rw [decode, (Op.ofCode_eq_some _ _).2 hcode]
  exact if_neg (not_not.2 hmask)

/-- THE INVERSION OF `decode` (R88): a word that decodes to a command has an opcode, passes its mask test, is no EXPMOD with the
reserved mode, and gives the command its fields. -/
theorem decode_command_cases {w : Word} {i : Instr} (h : decode w = .command i) :
    ∃ o : Op, o.code = opField w ∧ w &&& o.mask = o.pattern ∧
      ¬ (o = .expmod ∧ rrModeOfField (fieldsOf w).fl = .reserved) ∧ i = o.build (fieldsOf w) := by
  unfold decode at h
  cases hop : Op.ofCode (opField w) with
  | none => simp [hop] at h
  | some o =>
    simp only [hop, ne_eq, ite_not] at h
    split at h
    · next hmask =>
      split at h
      · cases h
      · next hmode =>
        cases h
        exact ⟨o, (Op.ofCode_eq_some _ _).1 hop, hmask, hmode, rfl⟩
    · cases h

/-! ### From a legal word to its command -/

/-- A word that passes an opcode's mask test has zero in each bit of a field that the mask asks for. -/
theorem field_and_mask {w : Word} {o : Op} (hmask : w &&& o.mask = o.pattern) {k : Nat}
    (hk : k ∈ [0, 4, 8, 12, 16, 20]) : w.extractLsb' k 4 &&& o.mask.extractLsb' k 4 = 0 := by
  have hpattern : ∀ o : Op, ∀ k ∈ [0, 4, 8, 12, 16, 20], o.pattern.extractLsb' k 4 = 0 := by
    intro o; cases o <;> decide
  rw [← BitVec.extractLsb'_and, hmask, hpattern o k hk]

/-- A field that the mask asks for as a whole is 0. -/
theorem field_eq_zero {w : Word} {o : Op} (hmask : w &&& o.mask = o.pattern) {k : Nat}
    (hk : k ∈ [0, 4, 8, 12, 16, 20]) (hfield : o.mask.extractLsb' k 4 = BitVec.allOnes 4) : w.extractLsb' k 4 = 0 := by
  have hzero := field_and_mask hmask hk
  rwa [hfield, BitVec.and_allOnes] at hzero

theorem regOfField_eq_zero {w : Word} {o : Op} (hmask : w &&& o.mask = o.pattern) {k : Nat}
    (hk : k ∈ [0, 4, 8, 12, 16, 20]) (hfield : o.mask.extractLsb' k 4 = BitVec.allOnes 4) :
    regOfField (w.extractLsb' k 4) = 0 :=
  congrArg regOfField (field_eq_zero hmask hk hfield)

theorem divFlags_getLsbD {fl : BitVec 4} (h : fl &&& 12 = 0) : divFlags (fl.getLsbD 0) (fl.getLsbD 1) = fl := by
  revert fl; decide

theorem rrModeField_rrModeOfField {fl : BitVec 4} (h : fl &&& 12 = 0) : rrModeField (rrModeOfField fl) = fl := by
  revert fl; decide

/-- No field is lost between a word that passes its opcode's mask test and the command built from it. -/
theorem encode_build_fieldsOf {w : Word} {o : Op} (hcode : o.code = opField w) (hmask : w &&& o.mask = o.pattern) :
    encode (o.build (fieldsOf w)) = w := by
  have hrd : o.mask.extractLsb' 20 4 = 15 → (fieldsOf w).rd = 0 := regOfField_eq_zero hmask (by decide)
  have hre : o.mask.extractLsb' 16 4 = 15 → (fieldsOf w).re = 0 := regOfField_eq_zero hmask (by decide)
  have hra : o.mask.extractLsb' 12 4 = 15 → (fieldsOf w).ra = 0 := regOfField_eq_zero hmask (by decide)
  have hrb : o.mask.extractLsb' 8 4 = 15 → (fieldsOf w).rb = 0 := regOfField_eq_zero hmask (by decide)
  have hrc : o.mask.extractLsb' 4 4 = 15 → (fieldsOf w).rc = 0 := regOfField_eq_zero hmask (by decide)
  have hfl : o.mask.extractLsb' 0 4 = 15 → (fieldsOf w).fl = 0 := field_eq_zero hmask (by decide)
  have hflags : (fieldsOf w).fl &&& o.mask.extractLsb' 0 4 = 0 := field_and_mask hmask (by decide)
  conv_rhs => rw [← assemble_fieldsOf w, ← hcode]
  cases o with
  | init | free | grow | sets | importBuf | shl | shr => rw [hre rfl, hra rfl, hrb rfl, hrc rfl, hfl rfl]; rfl
  | copy | muls => rw [hre rfl, hrb rfl, hrc rfl, hfl rfl]; rfl
  | exportBuf | bitlen | size | cmps | mods => rw [hrd rfl, hre rfl, hrb rfl, hrc rfl, hfl rfl]; rfl
  | cmpabs | cmp => rw [hrd rfl, hre rfl, hrc rfl, hfl rfl]; rfl
  | addabs | subabs | add | sub | mul | mod => rw [hre rfl, hrc rfl, hfl rfl]; rfl
  | div => rw [Op.build, encode, divFlags_getLsbD hflags, hrc rfl]; rfl
  | divs => rw [Op.build, encode, divFlags_getLsbD hflags, hrb rfl, hrc rfl]; rfl
  | expmod => rw [Op.build, encode, rrModeField_rrModeOfField hflags]; rfl

@[simp] theorem op_build (o : Op) (f : Fields) : (o.build f).op = o := by cases o <;> rfl

/-- Settles O1: a command's word carries its opcode and fields and passes the mask test, so only EXPMOD's mode is left to
reject. -/
theorem decodeInvertsEncode : Obligations.DecodeInvertsEncode := by
  intro i
  rw [decode_of_mask (opField_encode i).symm (encode_and_mask i), build_fieldsOf_encode, not_wellFormed_iff,
    ← not_not (a := i.WellFormed), not_wellFormed_iff]
  exact ⟨fun h => if_neg h, fun h => if_pos h⟩

/-- Settles O2: the word is legal, so the fields the command drops are zero. -/
theorem encodeInvertsDecode : Obligations.EncodeInvertsDecode := by
  intro w i h
  obtain ⟨o, hcode, hmask, hmode, rfl⟩ := decode_command_cases h
  have hword := encode_build_fieldsOf hcode hmask
  refine ⟨hword, not_not.1 fun hwf => ?_⟩
  rw [not_wellFormed_iff, hword, op_build] at hwf
  exact hmode hwf

/-- Settles O4: the decoder run on fifteen words. -/
theorem wordsOfTheSpecDecode : Obligations.WordsOfTheSpecDecode := by
  unfold Obligations.WordsOfTheSpecDecode
  decide

end Sys2Proof
end

section
/-! O5: the register fields that a flag makes unused (R85, R86) enter a command's checks and commits only through that flag;
a fault is left out of the claim, because ECMD records the whole word. -/

namespace Sys2Proof.Machine

/-- Where `o` is a successful completion, `o'` answers the same next state. -/
def SameIfDone (o o' : Host.Outcome State Fault Refusal) : Prop :=
  Ensures (fun t => t.status.err = 0 → o' = .next t) o

theorem sameIfDone_refl (o : Host.Outcome State Fault Refusal) : SameIfDone o o := fun _ h _ => h

theorem sameIfDone_raise {s : State} {c : Word} {e : ErrCode} {o' : Host.Outcome State Fault Refusal} (he : e ≠ .ok) :
    SameIfDone (s.raise c e) o' :=
  ensures_raise fun herr => absurd ((code_eq_zero e).1 herr) he

theorem sameIfDone_ite {p p' : Prop} [Decidable p] [Decidable p'] {o₁ o₂ o₁' o₂' : Host.Outcome State Fault Refusal}
    (hp : p ↔ p') (h₁ : SameIfDone o₁ o₁') (h₂ : SameIfDone o₂ o₂') :
    SameIfDone (if p then o₁ else o₂) (if p' then o₁' else o₂') := by
  by_cases h : p
  · rwa [if_pos h, if_pos (hp.1 h)]
  · rwa [if_neg h, if_neg (mt hp.2 h)]

/-- An output that is not enabled is not committed, whichever register its field names (R85). -/
theorem commitIf_unused (s : State) (b : Bool) (i j : RegNo) (v : Int) :
    s.commitIf b (if b then i else j) v = s.commitIf b i v := by
  cases b <;> rfl

theorem sameIfDone_divide (s : State) (c c' : Word) (qen ren : Bool) (rd re i j : RegNo) (a b : Int) :
    SameIfDone (s.divide c qen ren rd re a b)
      (s.divide c' qen ren (if qen then rd else i) (if ren then re else j) a b) := by
  have hclash : (qen = true ∧ ren = true ∧ rd = re) ↔
      (qen = true ∧ ren = true ∧ (if qen then rd else i) = if ren then re else j) := by
    constructor <;> (rintro ⟨rfl, rfl, heq⟩; exact ⟨rfl, rfl, heq⟩)
  refine sameIfDone_ite hclash (sameIfDone_raise (by decide)) ?_
  refine sameIfDone_ite Iff.rfl (sameIfDone_raise (by decide)) ?_
  rw [commitIf_unused, commitIf_unused]
  exact sameIfDone_refl _

/-- Without an `RR` operand EXPMOD's end does not depend on `re` (R86). -/
theorem expmodCommit_absent (s : State) (rd re re' ra : RegNo) (e n : Nat) :
    s.expmodCommit .absent rd re ra e n = s.expmodCommit .absent rd re' ra e n := rfl

theorem sameIfDone_execExpmod_absent (s : State) (rd re re' ra rb rc : RegNo) :
    SameIfDone (execExpmod .absent rd re ra rb rc s) (execExpmod .absent rd re' ra rb rc s) := by
  refine sameIfDone_ite Iff.rfl (sameIfDone_raise (by decide)) ?_
  refine sameIfDone_ite (by simp) (sameIfDone_raise (by decide)) ?_
  iterate 3 refine sameIfDone_ite Iff.rfl (sameIfDone_raise (by decide)) ?_
  rw [expmodCommit_absent s rd re re']
  exact sameIfDone_refl _

theorem sameIfDone_exec_canonical (i : Instr) (s : State) : SameIfDone (exec i s) (exec (canonical i) s) := by
  cases i with
  | div qen ren rd re ra rb => exact sameIfDone_divide s _ _ qen ren rd re 0 0 (s.val ra) (s.val rb)
  | divs qen ren rd re ra => exact sameIfDone_divide s _ _ qen ren rd re 0 0 (s.val ra) s.small
  | expmod mode rd re ra rb rc =>
    cases mode with
    | absent => exact sameIfDone_execExpmod_absent s rd re 0 ra rb rc
    | supplied | stored | reserved => exact sameIfDone_refl _
  | _ => exact sameIfDone_refl _

end Sys2Proof.Machine

namespace Sys2Proof

open Sys2Proof.Machine

/-- Settles O5: `canonical` changes only the unused fields of DIV, DIVS and EXPMOD without an `RR` operand. -/
theorem unusedFieldsAreIgnored : Obligations.UnusedFieldsAreIgnored :=
  fun i s t h herr => sameIfDone_exec_canonical i s t h herr

end Sys2Proof
end

section
/-! O28: the pseudo-instructions SETI, MOV and NEG of R93, run action by action. -/

namespace Sys2Proof.Machine

/-! ### The host's lines on an idle, unfaulted unit -/

/-- The state in which the last command of a line is executed (R36): nothing is left for the host to do, IMM holds `v`, and BUSY
is set. -/
def State.loaded (s : State) (v : Word) : State := State.issued { s with pending := [], imm := v }

theorem loaded_small (s : State) (v : Word) : (s.loaded v).small = v.toInt := rfl

theorem loaded_sound {s : State} (hs : s.Sound) (v : Word) : (s.loaded v).Sound :=
  issued_sound ⟨hs.params, hs.regs, hs.rising, hs.inside, hs.cmp⟩

section Lines

variable {s t : State} {i : Instr} (hb : s.status.busy = false) (hf : s.status.fault = false)
  (hwf : (canonical i).WellFormed)
include hb hf hwf

/-- A line that is one command executes it (R91). -/
theorem run_issueOf (hp : s.pending = [issueOf i]) (h : exec (canonical i) (s.loaded s.imm) = .next t) :
    Sys2Proof.core.run 1 s = .next t := by
  have hdecode : decode (encode (canonical i)) = .command (canonical i) := (decodeInvertsEncode _).1 hwf
  rw [run_succ_of_step 0 ((step_command hb hf hdecode hp).trans h), run_zero]

/-- A line that is a command after a write of its small operand executes it with that operand (R93). -/
theorem run_writeImm_issueOf {v : Word} (hp : s.pending = [writeReg .imm v, issueOf i])
    (h : exec (canonical i) (s.loaded v) = .next t) : Sys2Proof.core.run 2 s = .next t := by
  have hwrite : step s = .next { s with pending := [issueOf i], imm := v } := step_write32 (r := .imm) hb hp
  rw [run_succ_of_step 1 hwrite]
  exact run_issueOf (s := { s with pending := [issueOf i], imm := v }) hb hf hwf rfl h

end Lines

/-! ### A completed commit -/

/-- The commit primitive leaves what `Committed` says (R24). -/
theorem committed_of_reg {s t : State} {i : RegNo} {v : Int} (h : t.reg i = (s.reg i).commit v) : s.Committed i v t where
  val := by rw [State.val, h, MReg.commit_val]
  sign := by rw [h, MReg.commit_sign, Sign.ofInt]
  cap := by rw [h, MReg.commit_cap]

/-- A line that ends in a completed commit of `x` has set IMM and committed, and changed no other register. -/
theorem loaded_commit_done (s : State) (v : Word) (d : RegNo) (x : Int) :
    ∃ t, ((s.loaded v).commit d x).done = .next t ∧ s.Committed d x t ∧ t.status.err = 0 ∧ t.imm = v ∧
      ∀ i, i ≠ d → t.reg i = s.reg i :=
  ⟨_, rfl, committed_of_reg (commit_reg_self (s.loaded v) d x), rfl, rfl, fun i hi => commit_reg_ne (s.loaded v) d i x hi⟩

theorem execSets_of_small {s : State} {z : Int} (hz : s.small = z) (d : RegNo) : execSets d s = (s.commit d z).done := by
  rw [execSets, hz]

/-- MULS by -1 commits the negated value: it is no longer than the source's, so it fits (R151). -/
theorem execMuls_neg_one {s : State} (hs : s.Sound) (hz : s.small = -1) (d a : RegNo) :
    execMuls d a s = (s.commit d (-s.val a)).done := by
  have hfits : s.Fits (-s.val a) := hs.fits_of_le_val (i := a) (Int.natAbs_neg _).le
  rw [execMuls, hz, mul_neg_one, State.finish, if_pos hfits]

end Sys2Proof.Machine

namespace Sys2Proof

open Sys2Proof.Machine

/-- Settles O28: each line ends in the completed commit of its row's value. -/
theorem setiMovAndNegMeanWhatR93Says : Obligations.SetiMovAndNegMeanWhatR93Says := by
  intro s d a hinv hf
  obtain ⟨hsound, hb, -⟩ := (inv_iff s).1 hinv
  refine ⟨fun z hlo hhi => ?seti, ?mov, ?neg⟩
  case seti =>
    have hz : (BitVec.ofInt 32 z).toInt = z := BitVec.toInt_ofInt_eq_self (by decide) hlo hhi
    obtain ⟨t, hdone, hcommitted, herr, himm, hothers⟩ := loaded_commit_done s (BitVec.ofInt 32 z) d z
    refine ⟨t, ?_, hcommitted, herr, himm ▸ hz, hothers⟩
    exact run_writeImm_issueOf (i := .sets d) hb hf rfl rfl ((execSets_of_small ((loaded_small s _).trans hz) d).trans hdone)
  case mov =>
    obtain ⟨t, hdone, hcommitted, herr, himm, hothers⟩ := loaded_commit_done s s.imm d (s.val a)
    exact ⟨t, run_issueOf (i := .copy d a) hb hf rfl rfl hdone, hcommitted, herr, himm, hothers⟩
  case neg =>
    have hz : (BitVec.ofInt 32 (-1)).toInt = -1 := by decide
    obtain ⟨t, hdone, hcommitted, herr, himm, hothers⟩ := loaded_commit_done s (BitVec.ofInt 32 (-1)) d (-s.val a)
    refine ⟨t, ?_, hcommitted, herr, himm ▸ hz, hothers⟩
    exact run_writeImm_issueOf (i := .muls d a) hb hf rfl rfl
      ((execMuls_neg_one (loaded_sound hsound _) ((loaded_small s _).trans hz) d a).trans hdone)

end Sys2Proof
end

section
/-! SUPPORT. What the storage commands are made of (spec/40_storage.md): their words, the completed write of one register, the
buffer's bytes as a number, and one equation per branch of GROW, IMPORT and EXPORT. -/

namespace Sys2Proof.Machine

/-! ### A command's word and its completion -/

/-- A word that is the encoding of a legal command decodes to it (R88). -/
theorem decode_of_eq_encode {w : Word} {i : Instr} (hw : w = encode i) (hwf : i.WellFormed) : decode w = .command i := by
  rw [hw]
  exact (decodeInvertsEncode i).1 hwf

/-- A completed write of one register leaves it there and changes nothing else (R193, R194). -/
theorem setReg_done (s : State) (i : RegNo) (r : MReg) :
    ∃ t, (s.setReg i r).done = .next t ∧ t.reg i = r ∧ s.Completes { regs := [i] } t :=
  ⟨_, rfl, setReg_reg_self s i r, completes_of_done (keeps_setReg s i r _ (List.mem_singleton_self i)) rfl⟩

/-- A completed commit leaves the value in its register and changes nothing else (R24, R194). -/
theorem commit_done (s : State) (i : RegNo) (v : Int) :
    ∃ t, (s.commit i v).done = .next t ∧ s.Committed i v t ∧ s.Completes { regs := [i] } t := by
  obtain ⟨t, hdone, hreg, hcompletes⟩ := setReg_done s i ((s.reg i).commit v)
  exact ⟨t, hdone, committed_of_reg hreg, hcompletes⟩

/-! ### Registers -/

/-- The sign stored for a well-formed register's value is the one it has: zero has sign `+1` (R23, R24). -/
theorem MReg.Wf.ofInt_val {p : Config.Params} {r : MReg} (h : r.Wf p) : Sign.ofInt r.val = r.sign := by
  obtain ⟨-, hzero⟩ := h
  cases hs : r.sign with
  | plus => simp [Sign.ofInt, MReg.val, hs, Sign.toInt]
  | minus =>
    have hmag : r.mag ≠ 0 := fun h0 => by simp [hzero h0] at hs
    simp [Sign.ofInt, MReg.val, hs, Sign.toInt, Nat.pos_of_ne_zero hmag]

/-- A well-formed register that takes its own value stays as it is, limb by limb (R24). -/
theorem MReg.Wf.commit_own_val {p : Config.Params} {r : MReg} (h : r.Wf p) : r.commit r.val = r := by
  have hlimbs : limbsOfNat (max r.cap (limbCount r.val.natAbs)) r.val.natAbs = r.limbs := by
    rw [MReg.val_natAbs, max_eq_left r.limbCount_mag_le]
    exact limbsOfNat_natOfLimbs r.limbs
  rw [MReg.commit, h.ofInt_val, hlimbs]

/-- GROW keeps every limb the register has (R102). -/
theorem MReg.grow_limb_of_lt (r : MReg) (n : Nat) {j : Nat} (hj : j < r.cap) : (r.grow n).limbs[j]? = r.limbs[j]? :=
  List.getElem?_append_left hj

/-- GROW fills every new limb with zero (R102). -/
theorem MReg.grow_limb_of_ge (r : MReg) (n : Nat) {j : Nat} (hj : r.cap ≤ j) (hlt : j < (r.grow n).cap) :
    (r.grow n).limbs[j]? = some 0 := by
  have hnew : j - r.cap < n - r.cap := by
    rw [MReg.grow_cap] at hlt
    omega
  rw [MReg.grow, List.getElem?_append_right hj]
  exact List.getElem?_replicate_of_lt hnew

/-! ### The buffer's bytes -/

theorem leBytes_getElem (n m : Nat) {j : Nat} (h : j < n) :
    (leBytes n m)[j]'(by simpa using h) = BitVec.ofNat 8 (m / 256 ^ j) := by
  induction n generalizing m j with
  | zero => omega
  | succ n ih =>
    cases j with
    | zero => simp [leBytes]
    | succ j =>
      simp only [leBytes, List.getElem_cons_succ]
      rw [ih _ (by omega), Nat.div_div_eq_div_mul, pow_succ']

/-- Byte `k` of `nat_be(m, n)` (R12, R107). -/
theorem natBe_getElem (m n : Nat) {k : Nat} (h : k < n) :
    (natBe m n)[k]'(by simpa using h) = BitVec.ofNat 8 (m / 256 ^ (n - 1 - k)) := by
  simp only [natBe, List.getElem_reverse, leBytes_length]
  exact leBytes_getElem n m (by omega)

theorem memRead_succ (s : State) (a n : Nat) : s.memRead a (n + 1) = s.byteAt a :: s.memRead (a + 1) n := by
  simp [State.memRead, List.range_succ_eq_map, Function.comp_def, Nat.add_assoc, Nat.add_comm 1]

/-- The number a buffer spells is the sum R106 writes: its first byte weighs the most. -/
theorem beNat_memRead (s : State) (a n : Nat) :
    beNat (s.memRead a n) = ∑ i ∈ Finset.range n, (s.byteAt (a + i)).toNat * 256 ^ (n - 1 - i) := by
  induction n generalizing a with
  | zero => rfl
  | succ n ih =>
    have hrest : ∀ i, (s.byteAt (a + (i + 1))).toNat * 256 ^ (n + 1 - 1 - (i + 1)) =
        (s.byteAt (a + 1 + i)).toNat * 256 ^ (n - 1 - i) := fun i => by
      rw [show a + (i + 1) = a + 1 + i by omega, show n + 1 - 1 - (i + 1) = n - 1 - i by omega]
    rw [memRead_succ, beNat_cons, memRead_length, ih, Finset.sum_range_succ', Finset.sum_congr rfl fun i _ => hrest i,
      Nat.add_comm]
    simp

/-- Byte `k` of a buffer that EXPORT has written (R107). -/
theorem byteAt_memWrite_natBe (s : State) (a m : Nat) {n k : Nat} (h : k < n) :
    (s.memWrite a (natBe m n)).byteAt (a + k) = BitVec.ofNat 8 (m / 256 ^ (n - 1 - k)) := by
  have hinside : a ≤ a + k ∧ a + k < a + (natBe m n).length := by
    rw [natBe_length]
    omega
  rw [byteAt_memWrite, if_pos hinside, Nat.add_sub_cancel_left, List.getD_eq_getElem _ _ (by simpa using h),
    natBe_getElem m n h]

/-- A buffer that EXPORT has written spells the magnitude, when it is long enough (R107, R108). -/
theorem beNat_memRead_memWrite_natBe (s : State) (a : Nat) {m n : Nat} (h : byteCount m ≤ n) :
    beNat ((s.memWrite a (natBe m n)).memRead a n) = m := by
  have hread := memRead_memWrite s a (natBe m n)
  rw [natBe_length] at hread
  rw [hread, beNat_natBe, Nat.mod_eq_of_lt ((byteCount_le_iff m n).1 h)]

/-- A magnitude's byte length fits a 32-bit register (R7, R23). -/
theorem State.Sound.byteCount_lt {s : State} (hs : s.Sound) (i : RegNo) : byteCount (s.mag i) < 2 ^ 32 := by
  obtain ⟨-, hmax, -⟩ := hs.params
  have hlimbs : limbCount (s.mag i) ≤ s.params.maxLimbs := hs.fits_of_le_mag (v := s.mag i) le_rfl
  have hbytes := byteCount_le_four_limbs (s.mag i)
  simp only [Config.limbBits] at hmax
  omega

/-! ### GROW, IMPORT and EXPORT by their branches -/

section Branches

variable {s : State}

theorem execGrow_of_le (rd : RegNo) (h : s.count ≤ s.params.maxLimbs) :
    execGrow rd s = (s.setReg rd ((s.reg rd).grow s.count)).done := if_pos h

theorem execGrow_of_gt (rd : RegNo) (h : s.params.maxLimbs < s.count) :
    execGrow rd s = .next (s.faultRecord (encode (.grow rd)) .alloc) := if_neg (not_le.2 h)

theorem execImport_of_fits (rd : RegNo) (hr : s.BufInRange) (hv : s.Fits (beNat (s.memRead s.bufAddr s.bufLen))) :
    execImport rd s = (s.commit rd (beNat (s.memRead s.bufAddr s.bufLen))).done := by
  rw [execImport, if_pos hr, State.finish, if_pos hv]

theorem execImport_of_not_fits (rd : RegNo) (hr : s.BufInRange)
    (hv : ¬ s.Fits (beNat (s.memRead s.bufAddr s.bufLen))) :
    execImport rd s = .next (s.faultRecord (encode (.importBuf rd)) .alloc) := by
  rw [execImport, if_pos hr, State.finish, if_neg hv]
  rfl

theorem execImport_of_not_inRange (rd : RegNo) (hr : ¬ s.BufInRange) :
    execImport rd s = .next (s.faultRecord (encode (.importBuf rd)) .badInput) := if_neg hr

theorem execExport_query (ra : RegNo) (h0 : s.bufLen = 0) :
    execExport ra s = State.done { s with blen := BitVec.ofNat 32 (byteCount (s.mag ra)) } := if_pos h0

theorem execExport_of_not_inRange (ra : RegNo) (h0 : s.bufLen ≠ 0) (hr : ¬ s.BufInRange) :
    execExport ra s = .next (s.faultRecord (encode (.exportBuf ra)) .badInput) := by
  rw [execExport, if_neg h0, if_pos hr]
  rfl

theorem execExport_of_too_small (ra : RegNo) (h0 : s.bufLen ≠ 0) (hr : s.BufInRange)
    (hlen : s.bufLen < byteCount (s.mag ra)) :
    execExport ra s = .next (s.faultRecord (encode (.exportBuf ra)) .bufferTooSmall) := by
  rw [execExport, if_neg h0, if_neg (not_not.2 hr), if_pos hlen]
  rfl

theorem execExport_writes (ra : RegNo) (h0 : s.bufLen ≠ 0) (hr : s.BufInRange) (hlen : byteCount (s.mag ra) ≤ s.bufLen) :
    execExport ra s = (s.memWrite s.bufAddr (natBe (s.mag ra) s.bufLen)).done := by
  rw [execExport, if_neg h0, if_neg (not_not.2 hr), if_neg (not_lt.2 hlen)]

/-- EXPORT into a buffer in range and long enough leaves the buffer where it is, and it spells the magnitude: with BLEN = 0 the
magnitude is zero and the length reported is 0 again (R107, R108). -/
theorem execExport_leaves_magnitude (ra : RegNo) (hr : s.BufInRange) (hlen : byteCount (s.mag ra) ≤ s.bufLen) :
    ∃ t, execExport ra s = .next t ∧ t.params = s.params ∧ t.bufAddr = s.bufAddr ∧ t.bufLen = s.bufLen ∧
      beNat (t.memRead s.bufAddr s.bufLen) = s.mag ra := by
  by_cases h0 : s.bufLen = 0
  · have hmag : s.mag ra = 0 := by
      rw [h0, byteCount_le_iff] at hlen
      omega
    refine ⟨_, execExport_query ra h0, rfl, rfl, ?_, ?_⟩
    · rw [h0, hmag]
      rfl
    · rw [h0, hmag]
      rfl
  · exact ⟨_, execExport_writes ra h0 hr hlen, rfl, rfl, rfl, beNat_memRead_memWrite_natBe s s.bufAddr hlen⟩

end Branches

end Sys2Proof.Machine
end

section
/-! O31 to O37: the storage commands INIT, FREE, GROW, SETS, COPY, IMPORT and EXPORT, each from its branches' equations. -/

namespace Sys2Proof

open Sys2Proof.Machine

/-- Settles O34: the register takes the source's value, and a well-formed register that takes its own value is unchanged. -/
theorem copyStoresTheSourceValue : Obligations.CopyStoresTheSourceValue := by
  intro s rd ra
  refine ⟨decode_of_eq_encode (commandWord_eq_assemble rd 0 ra 0 0 5 0 (by decide)) rfl, ?_⟩
  obtain ⟨t, hdone, hreg, hcompletes⟩ := setReg_done s rd ((s.reg rd).commit (s.val ra))
  refine ⟨t, hdone, committed_of_reg hreg, hcompletes, ?_⟩
  rintro rfl hwf
  exact hreg.trans hwf.commit_own_val

/-- Settles O35: the sum is the number the buffer spells, and the three outcomes are IMPORT's branches. -/
theorem importReadsTheBufferBigEndian : Obligations.ImportReadsTheBufferBigEndian := by
  intro s rd v hsum
  have hword : commandWord 0x06 rd 0 0 0 0 0 = encode (.importBuf rd) :=
    commandWord_eq_assemble rd 0 0 0 0 6 0 (by decide)
  obtain rfl : v = beNat (s.memRead s.bufAddr s.bufLen) := hsum.trans (beNat_memRead s _ _).symm
  refine ⟨decode_of_eq_encode hword rfl, fun hr hfits => ?commits, fun hr hbig => ?alloc, fun hr => ?badInput⟩
  case commits =>
    obtain ⟨t, hdone, ht⟩ := commit_done s rd (beNat (s.memRead s.bufAddr s.bufLen))
    exact ⟨t, (execImport_of_fits rd hr hfits).trans hdone, ht⟩
  case alloc => rw [hword]; exact execImport_of_not_fits rd hr (not_le.2 hbig)
  case badInput => rw [hword]; exact execImport_of_not_inRange rd (not_le.2 hr)

/-- Settles O36: the four outcomes are EXPORT's branches; the invariant bounds the length reported. -/
theorem exportWritesTheMagnitudeBigEndian : Obligations.ExportWritesTheMagnitudeBigEndian := by
  intro s ra hinv
  have hword : commandWord 0x07 0 0 ra 0 0 0 = encode (.exportBuf ra) :=
    commandWord_eq_assemble 0 0 ra 0 0 7 0 (by decide)
  refine ⟨decode_of_eq_encode hword rfl, fun h0 => ?query, fun h0 hr => ?badInput, fun h0 hr hlen => ?tooSmall,
    fun h0 hr hlen => ?writes⟩
  case query =>
    have hlt := State.Sound.byteCount_lt ((inv_iff s).1 hinv).1 ra
    refine ⟨_, execExport_query ra h0, (BitVec.toNat_ofNat _ _).trans (Nat.mod_eq_of_lt hlt), completes_of_done ?_ rfl⟩
    exact { keeps_self s { blen := true } with blen := nofun }
  case badInput => rw [hword]; exact execExport_of_not_inRange ra h0 (not_le.2 hr)
  case tooSmall => rw [hword]; exact execExport_of_too_small ra h0 hr hlen
  case writes =>
    have hexec : exec (.exportBuf ra) s = _ := execExport_writes ra h0 hr hlen
    have htouched : touched s (.exportBuf ra) = { start := s.baddr.toNat, length := s.blen.toNat } := by
      have hblen : s.blen ≠ 0 := fun h => h0 (congrArg BitVec.toNat h)
      rw [touched, beq_false_of_ne hblen]
    exact ⟨_, hexec, fun k hk => byteAt_memWrite_natBe s s.bufAddr (s.mag ra) hk,
      htouched ▸ completes_of_err_eq_zero hexec rfl⟩

/-- Settles O37: the buffer EXPORT leaves spells the magnitude, which fits the ceiling, so IMPORT commits it. -/
theorem exportThenImportGivesTheMagnitude : Obligations.ExportThenImportGivesTheMagnitude := by
  intro s ra rd hinv hlen hr
  obtain ⟨t, hexport, hparams, haddr, hbuf, hspells⟩ := execExport_leaves_magnitude ra hr hlen
  rw [← haddr, ← hbuf] at hspells
  have hrange : t.BufInRange := by
    rw [State.BufInRange, haddr, hbuf, hparams]
    exact hr
  have hfits : t.Fits (beNat (t.memRead t.bufAddr t.bufLen)) := by
    rw [hspells, State.Fits, hparams]
    exact ((inv_iff s).1 hinv).1.fits_of_le_mag (v := s.mag ra) le_rfl
  obtain ⟨u, hdone, hcommitted, hcompletes⟩ := commit_done t rd (beNat (t.memRead t.bufAddr t.bufLen))
  refine ⟨t, u, hexport, (execImport_of_fits rd hrange hfits).trans hdone, hcompletes.err, ?_⟩
  rw [hcommitted.val, hspells]

/-- Settles O31: both commands complete the write of an empty register. -/
theorem initAndFreeEmptyTheRegister : Obligations.InitAndFreeEmptyTheRegister := by
  intro s rd
  refine ⟨decode_of_eq_encode (commandWord_eq_assemble rd 0 0 0 0 1 0 (by decide)) rfl,
    decode_of_eq_encode (commandWord_eq_assemble rd 0 0 0 0 2 0 (by decide)) rfl, fun i hi => ?_⟩
  have hexec : exec i s = (s.setReg rd MReg.empty).done := by
    simp only [List.mem_cons, List.not_mem_nil, or_false] at hi
    rcases hi with rfl | rfl <;> rfl
  obtain ⟨t, hdone, hreg, hcompletes⟩ := setReg_done s rd MReg.empty
  refine ⟨t, hexec.trans hdone, ?_, ?_, ?_, hcompletes⟩
  · rw [State.val, hreg, empty_val]
  · rw [hreg]; rfl
  · rw [hreg]; rfl

/-- Settles O32: GROW's two branches, and what a grown register holds. -/
theorem growRaisesOnlyTheCapacity : Obligations.GrowRaisesOnlyTheCapacity := by
  intro s rd
  have hword : commandWord 0x03 rd 0 0 0 0 0 = encode (.grow rd) :=
    commandWord_eq_assemble rd 0 0 0 0 3 0 (by decide)
  refine ⟨decode_of_eq_encode hword rfl, fun hle => ?grows, fun hgt => ?alloc⟩
  case grows =>
    obtain ⟨t, hdone, hreg, hcompletes⟩ := setReg_done s rd ((s.reg rd).grow s.count)
    refine ⟨t, (execGrow_of_le rd hle).trans hdone, ?_⟩
    rw [State.val, State.mag, hreg]
    exact ⟨MReg.grow_cap _ _, MReg.grow_val _ _, MReg.grow_mag _ _, MReg.grow_sign _ _,
      fun j hj => MReg.grow_limb_of_lt _ _ hj, fun j hj hlt => MReg.grow_limb_of_ge _ _ hj hlt, hcompletes⟩
  case alloc => rw [hword]; exact execGrow_of_gt rd hgt

/-- Settles O33: SETS is the completed commit of the small operand. -/
theorem setsLoadsTheSmallOperand : Obligations.SetsLoadsTheSmallOperand := fun s rd =>
  ⟨decode_of_eq_encode (commandWord_eq_assemble rd 0 0 0 0 4 0 (by decide)) rfl, commit_done s rd s.small⟩

end Sys2Proof
end

section
/-! SUPPORT. What the comparison and bit commands are made of (spec/41_compare_bits.md): a completed write of RESN or of CMP,
the bits of a three-way result, and what the shifts commit. -/

namespace Sys2Proof.Machine

/-! ### A completed write of RESN or of CMP -/

/-- A completed write of RESN reports a number that fits it and changes nothing else (R194). -/
theorem resn_done (s : State) {n : Nat} (h : n < 2 ^ 32) :
    ∃ t, State.done { s with resn := BitVec.ofNat 32 n } = .next t ∧ t.resn.toNat = n ∧
      s.Completes { resn := true } t := by
  refine ⟨_, rfl, (BitVec.toNat_ofNat _ _).trans (Nat.mod_eq_of_lt h), completes_of_done ?_ rfl⟩
  exact { keeps_self s { resn := true } with resn := nofun }

/-- A magnitude's bit length fits a 32-bit register (R7, R23). -/
theorem State.Sound.bitlen_lt {s : State} (hs : s.Sound) (i : RegNo) : bitlen (s.mag i) < 2 ^ 32 := by
  obtain ⟨-, hmax, -⟩ := hs.params
  have hlimbs : limbCount (s.mag i) ≤ s.params.maxLimbs := hs.fits_of_le_mag (v := s.mag i) le_rfl
  exact ((limbCount_le_iff_bitlen_le _ _).1 hlimbs).trans_lt hmax

/-- A completed write of CMP leaves the result's bits there and changes nothing else (R32, R194). -/
theorem setCmp_done (s : State) (r : Int) :
    ∃ t, (s.setCmp r).done = .next t ∧ s.Completes { cmp := true } t ∧ t.status.cmp = cmpBits r :=
  ⟨_, rfl, completes_of_done (keeps_setCmp s r _ rfl) rfl, rfl⟩

theorem cmp_of_setCmp_done {s t : State} {r : Int} (h : (s.setCmp r).done = .next t) : t.status.cmp = cmpBits r := by
  cases h
  rfl

/-- A command that may write CMP alone leaves the integer registers and the results (R127). -/
theorem State.Completes.registers_of_cmp {s t : State} (h : s.Completes { cmp := true } t) :
    t.m = s.m ∧ t.resn = s.resn ∧ t.resw = s.resw ∧ t.blen = s.blen :=
  ⟨Vector.ext fun i hi => h.keeps.regs ⟨i, hi⟩ List.not_mem_nil, h.keeps.resn rfl, h.keeps.resw rfl, h.keeps.blen rfl⟩

/-! ### Three-way results -/

/-- The bits of a comparison: less, equal, greater (R32). -/
theorem cmpBits_cmp3 (x y : Int) : cmpBits (cmp3 x y) = if x < y then 0b11#2 else if x = y then 0b00#2 else 0b01#2 := by
  simp only [cmp3, apply_ite cmpBits]
  rfl

theorem cmp3_swap (x y : Int) : cmp3 y x = -cmp3 x y := by
  rcases lt_trichotomy x y with hlt | rfl | hgt
  · rw [cmp3_of_lt hlt, cmp3_of_gt hlt, neg_neg]
  · rw [cmp3_self, neg_zero]
  · rw [cmp3_of_lt hgt, cmp3_of_gt hgt]

theorem cmpBits_neg (r : Int) : cmpBits (-r) = -cmpBits r := BitVec.ofInt_neg

/-- A value that is not negative is its magnitude (R22). -/
theorem mag_eq_val_of_nonneg {s : State} {i : RegNo} (h : 0 ≤ s.val i) : (s.mag i : Int) = s.val i :=
  (congrArg Nat.cast (MReg.val_natAbs (s.reg i))).symm.trans (Int.natAbs_of_nonneg h)

section Comparisons

variable (s : State) (ra rb : RegNo)

theorem exec_cmpabs : exec (.cmpabs ra rb) s = (s.setCmp (cmp3 (s.mag ra) (s.mag rb))).done := rfl

theorem exec_cmp : exec (.cmp ra rb) s = (s.setCmp (cmp3 (s.val ra) (s.val rb))).done := rfl

theorem exec_cmps : exec (.cmps ra) s = (s.setCmp (cmp3 (s.val ra) s.imm.toInt)).done := rfl

end Comparisons

/-! ### Shifts -/

section Shifts

variable {s : State} (rd : RegNo)

/-- SHL within the ceiling commits the product; a zero's product is zero without a shift (R122). -/
theorem execShl_of_fits (h : limbCount (s.mag rd * 2 ^ s.count) ≤ s.params.maxLimbs) :
    execShl rd s = (s.commit rd (s.val rd * 2 ^ s.count)).done := by
  have hvalue : (if s.mag rd = 0 then 0 else s.val rd * 2 ^ s.count) = s.val rd * 2 ^ s.count := by
    refine ite_eq_right_iff.2 fun h0 => ?_
    have hval : s.val rd = 0 := Int.natAbs_eq_zero.1 ((MReg.val_natAbs _).trans h0)
    rw [hval, zero_mul]
  rw [execShl, if_pos ((shiftFits_iff s _ _).2 h), hvalue]

theorem execShl_of_not_fits (h : s.params.maxLimbs < limbCount (s.mag rd * 2 ^ s.count)) :
    execShl rd s = .next (s.faultRecord (encode (.shl rd)) .alloc) :=
  if_neg fun hfits => not_le.2 h ((shiftFits_iff s _ _).1 hfits)

theorem execShr_eq :
    execShr rd s = (s.commit rd ((s.reg rd).sign.toInt * (s.mag rd / 2 ^ s.count : Nat))).done := by
  rw [execShr, Nat.shiftRight_eq_div_pow]

end Shifts

theorem natAbs_sign_mul (g : Sign) (q : Nat) : (g.toInt * (q : Int)).natAbs = q := by
  rw [Int.natAbs_mul, sign_toInt_natAbs, one_mul, Int.natAbs_natCast]

/-- A signed magnitude is stored with its sign, zero with sign `+1` (R24). -/
theorem ofInt_sign_mul (g : Sign) (q : Nat) : Sign.ofInt (g.toInt * (q : Int)) = if q = 0 then .plus else g := by
  cases g with
  | plus => simp [Sign.ofInt, Sign.toInt]
  | minus =>
    by_cases hq : q = 0
    · simp [Sign.ofInt, hq]
    · simp [Sign.ofInt, Sign.toInt, hq, Nat.pos_of_ne_zero hq]

/-- A value no longer than the register's own leaves the capacity as it is (R24). -/
theorem MReg.commit_cap_of_le {r : MReg} {v : Int} (h : v.natAbs ≤ r.mag) : (r.commit v).cap = r.cap := by
  rw [MReg.commit_cap, max_eq_left ((limbCount_mono h).trans r.limbCount_mag_le)]

end Sys2Proof.Machine
end

section
/-! O38 to O42: the comparison and bit commands BITLEN, SIZE, SHL, SHR, CMPABS, CMP and CMPS. -/

namespace Sys2Proof

open Sys2Proof.Machine

/-- Settles O39: SHL's two branches, its ceiling test read as the one on the shifted magnitude. -/
theorem shlMultipliesOrRaisesAlloc : Obligations.ShlMultipliesOrRaisesAlloc := by
  intro s rd
  have hword : commandWord 0x12 rd 0 0 0 0 0 = encode (.shl rd) :=
    commandWord_eq_assemble rd 0 0 0 0 0x12 0 (by decide)
  refine ⟨decode_of_eq_encode hword rfl, fun hfits => ?commits, fun hbig => ?alloc⟩
  case commits =>
    obtain ⟨t, hdone, ht⟩ := commit_done s rd (s.val rd * 2 ^ s.cnt.toNat)
    exact ⟨t, (execShl_of_fits rd hfits).trans hdone, ht⟩
  case alloc => rw [hword]; exact execShl_of_not_fits rd hbig

/-- Settles O40: SHR is the completed commit of the shifted magnitude with the old sign, which is no longer than the old one. -/
theorem shrShiftsTheMagnitude : Obligations.ShrShiftsTheMagnitude := by
  intro s rd
  refine ⟨decode_of_eq_encode (commandWord_eq_assemble rd 0 0 0 0 0x13 0 (by decide)) rfl, ?_⟩
  obtain ⟨t, hdone, hreg, hcompletes⟩ := setReg_done s rd
    ((s.reg rd).commit ((s.reg rd).sign.toInt * (s.mag rd / 2 ^ s.count : Nat)))
  refine ⟨t, (execShr_eq rd).trans hdone, ?mag, ?sign, ?cap, hcompletes⟩
  case mag => rw [State.mag, hreg, MReg.commit_mag, natAbs_sign_mul, State.count]
  case sign => rw [hreg, MReg.commit_sign, ofInt_sign_mul, State.count]
  case cap =>
    rw [hreg, MReg.commit_cap_of_le]
    rw [natAbs_sign_mul]
    exact Nat.div_le_self _ _

/-- Settles O42: each law is one of `cmp3` and its bits, and the comparisons write CMP alone. -/
theorem comparisonLaws : Obligations.ComparisonLaws := by
  intro s ra rb
  obtain ⟨abs, habs, habsKeeps, habsCmp⟩ := setCmp_done s (cmp3 (s.mag ra) (s.mag rb))
  obtain ⟨sgn, hsgn, hsgnKeeps, hsgnCmp⟩ := setCmp_done s (cmp3 (s.val ra) (s.val rb))
  obtain ⟨rev, hrev, hrevKeeps, hrevCmp⟩ := setCmp_done s (cmp3 (s.val rb) (s.val ra))
  obtain ⟨small, hsmall, hsmallKeeps, hsmallCmp⟩ := setCmp_done s (cmp3 (s.val ra) s.imm.toInt)
  refine ⟨abs, sgn, rev, small, habs, hsgn, hrev, hsmall, ?swap, ?signBlind, ?nonneg, ?smallOperand, ?unchanged⟩
  case swap => rw [hrevCmp, hsgnCmp, cmp3_swap, cmpBits_neg]
  case signBlind =>
    intro s' u ha hb hu
    rw [exec_cmpabs, ha, hb] at hu
    rw [cmp_of_setCmp_done hu, habsCmp]
  case nonneg =>
    intro ha hb
    rw [habsCmp, hsgnCmp, mag_eq_val_of_nonneg ha, mag_eq_val_of_nonneg hb]
  case smallOperand =>
    intro hz
    rw [hsmallCmp, hsgnCmp, hz]
  case unchanged =>
    simp only [List.forall_mem_cons]
    exact ⟨habsKeeps.registers_of_cmp, hsgnKeeps.registers_of_cmp, hrevKeeps.registers_of_cmp,
      hsmallKeeps.registers_of_cmp, nofun⟩

/-- Settles O38: both commands complete the write of a length to RESN; the invariant bounds it. -/
theorem bitlenAndSizeReportTheMagnitude : Obligations.BitlenAndSizeReportTheMagnitude := by
  intro s ra hinv
  obtain ⟨hsound, -⟩ := (inv_iff s).1 hinv
  exact ⟨decode_of_eq_encode (commandWord_eq_assemble 0 0 ra 0 0 0x10 0 (by decide)) rfl,
    decode_of_eq_encode (commandWord_eq_assemble 0 0 ra 0 0 0x11 0 (by decide)) rfl,
    resn_done s (hsound.bitlen_lt ra), resn_done s (hsound.byteCount_lt ra)⟩

/-- Settles O41: each command completes the write of a comparison's bits to CMP. -/
theorem comparisonsSetCmp : Obligations.ComparisonsSetCmp := by
  intro s ra rb
  refine ⟨decode_of_eq_encode (commandWord_eq_assemble 0 0 ra rb 0 0x14 0 (by decide)) rfl,
    decode_of_eq_encode (commandWord_eq_assemble 0 0 ra rb 0 0x15 0 (by decide)) rfl,
    decode_of_eq_encode (commandWord_eq_assemble 0 0 ra 0 0 0x16 0 (by decide)) rfl, ?cmpabs, ?cmp, ?cmps⟩
  case cmpabs =>
    have hbits := cmpBits_cmp3 (s.mag ra) (s.mag rb)
    simp only [Nat.cast_lt, Nat.cast_inj] at hbits
    rw [exec_cmpabs, ← hbits]
    exact setCmp_done s _
  case cmp =>
    rw [exec_cmp, ← cmpBits_cmp3]
    exact setCmp_done s _
  case cmps =>
    rw [exec_cmps, ← cmpBits_cmp3]
    exact setCmp_done s _

end Sys2Proof
end

section
/-! O56: the engine's comparison from the top limb down (spec/41_compare_bits.md R128) is the comparison of the magnitudes. -/

namespace Sys2Proof.Machine

/-! ### The significant limbs -/

/-- The top limb of a sequence weighs `B` to the number of limbs below it (R22). -/
theorem natOfLimbs_concat (xs : List Limb) (x : Limb) :
    natOfLimbs (xs ++ [x]) = natOfLimbs xs + Config.base ^ xs.length * x.toNat := by
  rw [natOfLimbs_append, natOfLimbs, natOfLimbs, Nat.mul_zero, Nat.add_zero]

theorem natOfLimbs_concat_zero (xs : List Limb) : natOfLimbs (xs ++ [0]) = natOfLimbs xs := natOfLimbs_concat xs 0

theorem topFirst_concat_zero (xs : List Limb) : topFirst (xs ++ [0]) = topFirst xs := by simp [topFirst]

theorem topFirst_concat_of_ne {x : Limb} (h : x ≠ 0) (xs : List Limb) : topFirst (xs ++ [x]) = x :: xs.reverse := by
  have hkept : (x == 0) = false := beq_false_of_ne h
  rw [topFirst, List.reverse_concat', List.dropWhile_cons, hkept, if_neg Bool.false_ne_true]

/-- Skipping zero top limbs does not change the number (R128). -/
theorem natOfLimbs_reverse_topFirst (xs : List Limb) : natOfLimbs (topFirst xs).reverse = natOfLimbs xs := by
  induction xs using List.reverseRecOn with
  | nil => rfl
  | append_singleton xs x ih =>
    by_cases hx : x = 0
    · rw [hx, topFirst_concat_zero, ih, natOfLimbs_concat_zero]
    · rw [topFirst_concat_of_ne hx, List.reverse_cons, List.reverse_reverse]

/-- A sequence whose top limb is not zero has as many limbs as its number needs (R10). -/
theorem limbCount_natOfLimbs_concat {x : Limb} (h : x ≠ 0) (xs : List Limb) :
    limbCount (natOfLimbs (xs ++ [x])) = xs.length + 1 := by
  have hpos : 0 < x.toNat := Nat.pos_of_ne_zero fun h0 => h (BitVec.eq_of_toNat_eq h0)
  have hupper : limbCount (natOfLimbs (xs ++ [x])) ≤ xs.length + 1 := by
    simpa using limbCount_natOfLimbs_le (xs ++ [x])
  have hlower : ¬ limbCount (natOfLimbs (xs ++ [x])) ≤ xs.length := by
    rw [limbCount_le_iff, not_lt, natOfLimbs_concat]
    exact (Nat.le_mul_of_pos_right _ hpos).trans (Nat.le_add_left _ _)
  omega

/-- The significant limbs are as many as the number needs (R10, R128). -/
theorem topFirst_length (xs : List Limb) : (topFirst xs).length = limbCount (natOfLimbs xs) := by
  induction xs using List.reverseRecOn with
  | nil => rfl
  | append_singleton xs x ih =>
    by_cases hx : x = 0
    · rw [hx, topFirst_concat_zero, ih, natOfLimbs_concat_zero]
    · rw [topFirst_concat_of_ne hx, limbCount_natOfLimbs_concat hx, List.length_cons, List.length_reverse]

theorem lt_of_limbCount_lt {m n : Nat} (h : limbCount m < limbCount n) : m < n :=
  lt_of_not_ge fun hle => (limbCount_mono hle).not_gt h

/-! ### The first differing limb -/

theorem cmp3_add_right (x y z : Int) : cmp3 (x + z) (y + z) = cmp3 x y := by
  simp only [cmp3, Int.add_lt_add_iff_right, Int.add_left_inj]

/-- Of two sequences of one length the one with the smaller top limb spells the smaller number, whatever the limbs below. -/
theorem natOfLimbs_concat_lt {xs ys : List Limb} (hlen : xs.length = ys.length) {x y : Limb} (h : x.toNat < y.toNat) :
    natOfLimbs (xs ++ [x]) < natOfLimbs (ys ++ [y]) := by
  rw [natOfLimbs_concat, natOfLimbs_concat, ← hlen]
  calc natOfLimbs xs + Config.base ^ xs.length * x.toNat
      < Config.base ^ xs.length + Config.base ^ xs.length * x.toNat := Nat.add_lt_add_right (natOfLimbs_lt xs) _
    _ = Config.base ^ xs.length * (x.toNat + 1) := by rw [Nat.mul_succ, Nat.add_comm]
    _ ≤ Config.base ^ xs.length * y.toNat := Nat.mul_le_mul_left _ h
    _ ≤ natOfLimbs ys + Config.base ^ xs.length * y.toNat := Nat.le_add_left _ _

/-- For sequences of one length, most significant limb first, the first differing limb decides as the numbers do (R128). -/
theorem compareTopFirst_eq_cmp3 {xs ys : List Limb} (hlen : xs.length = ys.length) :
    compareTopFirst xs ys = cmp3 (natOfLimbs xs.reverse) (natOfLimbs ys.reverse) := by
  induction xs generalizing ys with
  | nil =>
    cases ys with
    | nil => rfl
    | cons y ys => cases hlen
  | cons x xs ih =>
    cases ys with
    | nil => cases hlen
    | cons y ys =>
      have hlen' : xs.length = ys.length := Nat.succ.inj hlen
      have hrev : xs.reverse.length = ys.reverse.length := by simpa using hlen'
      rw [compareTopFirst, List.reverse_cons, List.reverse_cons]
      rcases lt_trichotomy x.toNat y.toNat with hlt | heq | hgt
      · have hne : x ≠ y := fun h => hlt.ne (congrArg BitVec.toNat h)
        rw [if_neg hne, if_pos hlt, cmp3_of_lt (Int.ofNat_lt.2 (natOfLimbs_concat_lt hrev hlt))]
      · obtain rfl : x = y := BitVec.eq_of_toNat_eq heq
        rw [if_pos rfl, ih hlen', natOfLimbs_concat, natOfLimbs_concat, hrev, Nat.cast_add, Nat.cast_add, cmp3_add_right]
      · have hne : x ≠ y := fun h => hgt.ne' (congrArg BitVec.toNat h)
        rw [if_neg hne, if_neg hgt.not_gt, cmp3_of_gt (Int.ofNat_lt.2 (natOfLimbs_concat_lt hrev.symm hgt))]

end Sys2Proof.Machine

namespace Sys2Proof

open Sys2Proof.Machine

/-- Settles O56: the lengths compared are the limb counts of the magnitudes, and for equal ones the first differing limb
decides. -/
theorem engineComparesFromTheTop : Obligations.EngineComparesFromTheTop := by
  intro xs ys
  rw [compareLimbs]
  split_ifs with hless hgreater
  · rw [topFirst_length, topFirst_length] at hless
    exact (cmp3_of_lt (Int.ofNat_lt.2 (lt_of_limbCount_lt hless))).symm
  · rw [topFirst_length, topFirst_length] at hgreater
    exact (cmp3_of_gt (Int.ofNat_lt.2 (lt_of_limbCount_lt hgreater))).symm
  · have hlen : (topFirst xs).length = (topFirst ys).length := le_antisymm (not_lt.1 hgreater) (not_lt.1 hless)
    rw [compareTopFirst_eq_cmp3 hlen, natOfLimbs_reverse_topFirst, natOfLimbs_reverse_topFirst]

end Sys2Proof
end

section
/-! SUPPORT. What the arithmetic commands are made of (spec/42_arithmetic.md): the two outcomes of a command with one result under
the ceiling, the three of a division, the laws of its results, and MOD and MODS by their branches. -/

namespace Sys2Proof.Machine

/-- A register's absolute value is its magnitude (R22). -/
theorem abs_val (s : State) (i : RegNo) : |s.val i| = (s.mag i : Int) :=
  (Int.abs_eq_natAbs _).trans (congrArg Nat.cast (MReg.val_natAbs (s.reg i)))

/-! ### A command with one result -/

/-- A command that ends in `finish` commits its result when that fits the ceiling, and raises ALLOC when it does not
(R24, R140). -/
theorem finish_outcomes {s : State} {i : Instr} {w : Word} {rd : RegNo} {v : Int} (hw : w = encode i)
    (hexec : exec i s = s.finish (encode i) rd v) :
    (limbCount v.natAbs ≤ s.params.maxLimbs →
      ∃ t, exec i s = .next t ∧ s.Committed rd v t ∧ s.Completes { regs := [rd] } t) ∧
    (s.params.maxLimbs < limbCount v.natAbs → exec i s = .next (s.faultRecord w .alloc)) := by
  constructor
  · intro hfits
    obtain ⟨t, hdone, ht⟩ := commit_done s rd v
    exact ⟨t, (hexec.trans (if_pos hfits)).trans hdone, ht⟩
  · intro hbig
    rw [hw]
    exact hexec.trans (if_neg (not_le.2 hbig))

/-- A command that ends in `finish` with ERR = 0 has committed its result. -/
theorem val_of_finish {s t : State} {c : Word} {rd : RegNo} {v : Int} (h : s.finish c rd v = .next t)
    (herr : t.status.err = 0) : t.val rd = v := by
  rcases finish_cases s c rd v with ⟨-, hdone⟩ | ⟨-, hraise⟩
  · cases h.symm.trans hdone
    exact commit_val s rd v
  · cases h.symm.trans hraise
    exact absurd ((code_eq_zero .alloc).1 herr) nofun

/-- A result that fits is committed by a command that ends in `finish`, with ERR = 0. -/
theorem finish_completes {s : State} (c : Word) (rd : RegNo) {v : Int} (hfits : s.Fits v) :
    ∃ u, s.finish c rd v = .next u ∧ u.status.err = 0 ∧ u.val rd = v := by
  obtain ⟨u, hdone, hcommitted, hcompletes⟩ := commit_done s rd v
  exact ⟨u, (if_pos hfits).trans hdone, hcompletes.err, hcommitted.val⟩

/-- After a command, the values that the registers had before it still fit the ceiling. -/
theorem fits_val_of_exec {s t : State} {i : Instr} (hinv : s.Inv) (h : exec i s = .next t) (r : RegNo) :
    t.Fits (s.val r) := by
  rw [State.Fits, (exec_keeps_params_pending h).1]
  exact ((inv_iff s).1 hinv).1.fits_of_le_val le_rfl

/-- A command that ends in `finish`, after another, gives back the value a register had before both. -/
theorem finish_gives_back {s t : State} {i : Instr} (hinv : s.Inv) (h : exec i s = .next t) {r : RegNo} {v : Int}
    (hback : v = s.val r) (c : Word) (rd : RegNo) :
    ∃ u, t.finish c rd v = .next u ∧ u.status.err = 0 ∧ u.val rd = s.val r :=
  hback ▸ finish_completes c rd (hback ▸ fits_val_of_exec hinv h r)

/-! ### Division -/

/-- Quotient and remainder recompose the dividend (R10). -/
theorem tdiv_mul_add_tmod (a b : Int) : tdiv a b * b + tmod a b = a := by
  rw [tmod, mul_comm b, add_sub_cancel]

theorem tdiv_natAbs (a b : Int) : (tdiv a b).natAbs = a.natAbs / b.natAbs := Int.natAbs_tdiv a b

/-- The truncating remainder is zero or has the dividend's sign (R10). -/
theorem tmod_eq_zero_or_sign (a b : Int) :
    tmod a b = 0 ∨ (0 < tmod a b ∧ 0 < a) ∨ (tmod a b < 0 ∧ a < 0) := by
  rw [tmod_eq]
  rcases le_or_gt 0 a with ha | ha
  · have hr : 0 ≤ a.tmod b := Int.tmod_nonneg b ha
    have hzero : a = 0 → a.tmod b = 0 := fun h => h ▸ Int.zero_tmod b
    omega
  · have hr : 0 ≤ (-a).tmod b := Int.tmod_nonneg b (by omega)
    rw [Int.neg_tmod] at hr
    omega

/-- The flags field of DIV and DIVS as a number (R85). -/
theorem ofNat_eq_divFlags (qen ren : Bool) : BitVec.ofNat 4 (qen.toNat + 2 * ren.toNat) = divFlags qen ren := by
  cases qen <;> cases ren <;> rfl

theorem divFlags_number_lt (qen ren : Bool) : qen.toNat + 2 * ren.toNat < 16 := by
  have hq := Bool.toNat_le qen
  have hr := Bool.toNat_le ren
  omega

/-- The word of a division with these flags (R80, R85). -/
theorem commandWord_eq_assemble_divFlags (op : Nat) (rd re ra rb : RegNo) (qen ren : Bool) :
    commandWord op rd re ra rb 0 (qen.toNat + 2 * ren.toNat) =
      assemble (BitVec.ofNat 8 op) rd re ra rb 0 (divFlags qen ren) := by
  rw [commandWord_eq_assemble rd re ra rb 0 op _ (divFlags_number_lt qen ren), ofNat_eq_divFlags]

section Divide

variable {s : State} {c : Word} {qen ren : Bool} {rd re : RegNo} {a b : Int}

theorem divide_of_clash (h : qen = true ∧ ren = true ∧ rd = re) :
    s.divide c qen ren rd re a b = .next (s.faultRecord c .badInput) := if_pos h

theorem divide_by_zero (h : ¬ (qen = true ∧ ren = true ∧ rd = re)) (hb : b = 0) :
    s.divide c qen ren rd re a b = .next (s.faultRecord c .divByZero) := by
  rw [State.divide, if_neg h, if_pos hb]
  rfl

/-- Past its checks a division leaves each enabled result in its register, and nothing else changes (R153). -/
theorem divide_completes (h : ¬ (qen = true ∧ ren = true ∧ rd = re)) (hb : b ≠ 0) :
    ∃ t, s.divide c qen ren rd re a b = .next t ∧ (qen = true → s.Committed rd (tdiv a b) t) ∧
      (ren = true → s.Committed re (tmod a b) t) ∧
      s.Completes { regs := (if qen then [rd] else []) ++ (if ren then [re] else []) } t := by
  have hdivide : s.divide c qen ren rd re a b = ((s.commitIf qen rd (tdiv a b)).commitIf ren re (tmod a b)).done := by
    rw [State.divide, if_neg h, if_neg hb]
  refine ⟨_, hdivide, ?quotient, ?remainder, completes_of_done (keeps_commitIf_commitIf s _ _ _ _ _ _ _ ?_ ?_) rfl⟩
  case quotient =>
    rintro rfl
    have hkept : ((s.commit rd (tdiv a b)).commitIf ren re (tmod a b)).reg rd = (s.commit rd (tdiv a b)).reg rd :=
      commitIf_reg_ne _ _ _ _ _ fun hr heq => h ⟨rfl, hr, heq⟩
    exact committed_of_reg (hkept.trans (commit_reg_self s rd _))
  case remainder =>
    rintro rfl
    have hkept : (s.commitIf qen rd (tdiv a b)).reg re = s.reg re :=
      commitIf_reg_ne _ _ _ _ _ fun hq heq => h ⟨hq, rfl, heq.symm⟩
    refine committed_of_reg ((commit_reg_self (s.commitIf qen rd (tdiv a b)) re _).trans ?_)
    rw [hkept]
  · simp +contextual
  · simp +contextual

end Divide

/-- A command that ends in `divide` has the three outcomes of R153 and R154, with the laws of the truncating results. -/
theorem divide_outcomes {s : State} {i : Instr} {w : Word} {qen ren : Bool} {rd re : RegNo} {a b : Int}
    (hw : w = encode i) (hexec : exec i s = s.divide (encode i) qen ren rd re a b) :
    ((qen = true ∧ ren = true ∧ rd = re) → exec i s = .next (s.faultRecord w .badInput)) ∧
    (¬ (qen = true ∧ ren = true ∧ rd = re) → b = 0 → exec i s = .next (s.faultRecord w .divByZero)) ∧
    (¬ (qen = true ∧ ren = true ∧ rd = re) → b ≠ 0 → ∃ t q r, exec i s = .next t ∧
      a = q * b + r ∧ r.natAbs < b.natAbs ∧ q.natAbs = a.natAbs / b.natAbs ∧
      (r = 0 ∨ (0 < r ∧ 0 < a) ∨ (r < 0 ∧ a < 0)) ∧
      (qen = true → s.Committed rd q t) ∧ (ren = true → s.Committed re r t) ∧
      s.Completes { regs := (if qen then [rd] else []) ++ (if ren then [re] else []) } t) := by
  subst hw
  refine ⟨fun h => hexec.trans (divide_of_clash h), fun h hb => hexec.trans (divide_by_zero h hb), fun h hb => ?_⟩
  obtain ⟨t, hdivide, ht⟩ := divide_completes (s := s) (c := encode i) (a := a) h hb
  exact ⟨t, tdiv a b, tmod a b, hexec.trans hdivide, (tdiv_mul_add_tmod a b).symm, tmod_natAbs_lt a b hb,
    tdiv_natAbs a b, tmod_eq_zero_or_sign a b, ht⟩

/-! ### The floor remainder -/

theorem eq_mul_fdiv_add_fmod (a b : Int) : a = b * Int.fdiv a b + fmod a b := (add_sub_cancel _ _).symm

/-- For a positive divisor the floor remainder is the truncating one, moved up by the divisor where it is negative (R158). -/
theorem fmod_eq_tmod_or_add (a : Int) {b : Int} (hb : 0 < b) :
    fmod a b = if 0 ≤ tmod a b then tmod a b else tmod a b + b := by
  have hlt := tmod_natAbs_lt a b hb.ne'
  have hcongr : a % b = tmod a b % b := by
    conv_lhs => rw [← tdiv_mul_add_tmod a b, mul_comm, Int.mul_add_emod_self_left]
  rw [fmod_eq_emod a b hb, hcongr]
  split_ifs with hsign
  · exact Int.emod_eq_of_lt hsign (by omega)
  · rw [← Int.add_emod_right]
    exact Int.emod_eq_of_lt (by omega) (by omega)

section Branches

variable {s : State}

theorem execMod_of_zero (rd ra : RegNo) {rb : RegNo} (h : s.val rb = 0) :
    execMod rd ra rb s = .next (s.faultRecord (encode (.mod rd ra rb)) .divByZero) := if_pos h

theorem execMod_of_neg (rd ra : RegNo) {rb : RegNo} (h : s.val rb < 0) :
    execMod rd ra rb s = .next (s.faultRecord (encode (.mod rd ra rb)) .negativeValue) := by
  rw [execMod, if_neg h.ne, if_pos h]
  rfl

theorem execMod_of_pos (rd ra : RegNo) {rb : RegNo} (h : 0 < s.val rb) :
    execMod rd ra rb s = (s.commit rd (fmod (s.val ra) (s.val rb))).done := by
  rw [execMod, if_neg h.ne', if_neg h.not_gt]

theorem execMods_of_zero (ra : RegNo) (h : s.small = 0) :
    execMods ra s = .next (s.faultRecord (encode (.mods ra)) .divByZero) := if_pos h

theorem execMods_of_neg (ra : RegNo) (h : s.small < 0) :
    execMods ra s = .next (s.faultRecord (encode (.mods ra)) .negativeValue) := by
  rw [execMods, if_neg h.ne, if_pos h]
  rfl

theorem execMods_of_pos (ra : RegNo) (h : 0 < s.small) :
    execMods ra s = State.done { s with resw := BitVec.ofInt 32 (fmod (s.val ra) s.small) } := by
  rw [execMods, if_neg h.ne', if_neg h.not_gt]

theorem execSubabs_of_lt (rd : RegNo) {ra rb : RegNo} (h : s.mag ra < s.mag rb) :
    execSubabs rd ra rb s = .next (s.faultRecord (encode (.subabs rd ra rb)) .negativeValue) := if_pos h

theorem execSubabs_of_le (rd : RegNo) {ra rb : RegNo} (h : s.mag rb ≤ s.mag ra) :
    execSubabs rd ra rb s = (s.commit rd ((s.mag ra : Int) - s.mag rb)).done := if_neg h.not_gt

end Branches

/-- A remainder by a positive small operand fits RESW (R46, R157). -/
theorem toNat_ofInt_fmod (a : Int) {z : Word} (h : 0 < z.toInt) :
    ((BitVec.ofInt 32 (fmod a z.toInt)).toNat : Int) = fmod a z.toInt := by
  obtain ⟨hnonneg, hlt⟩ := fmod_range_of_pos a h
  have hmax := BitVec.toInt_lt (x := z)
  rw [BitVec.toNat_ofInt, Int.emod_eq_of_lt hnonneg (by omega), Int.toNat_of_nonneg hnonneg]

end Sys2Proof.Machine
end

section
/-! O43 to O46 and O48 to O51: the arithmetic commands, each from the outcomes of the operation it ends in. -/

namespace Sys2Proof

open Sys2Proof.Machine

/-- Settles O46: the second command's result is a value the first state's register held, so it fits. -/
theorem addAndSubAreInverse : Obligations.AddAndSubAreInverse := by
  intro s t rd re ra rb rc hinv hrc
  refine ⟨fun hexec herr => ?addThenSub, fun hexec herr => ?subThenAdd⟩
  case addThenSub =>
    have hback : t.val rd - t.val rc = s.val ra := by
      rw [val_of_finish hexec herr, hrc, add_sub_cancel_right]
    exact finish_gives_back hinv hexec hback (encode (.sub re rd rc)) re
  case subThenAdd =>
    have hback : t.val rd + t.val rc = s.val ra := by
      rw [val_of_finish hexec herr, hrc, sub_add_cancel]
    exact finish_gives_back hinv hexec hback (encode (.add re rd rc)) re

/-- Settles O49: both commands end in `divide`. -/
theorem divAndDivsTruncate : Obligations.DivAndDivsTruncate := by
  intro s qen ren rd re ra rb
  have hdiv : _ = encode (.div qen ren rd re ra rb) := commandWord_eq_assemble_divFlags 0x26 rd re ra rb qen ren
  have hdivs : _ = encode (.divs qen ren rd re ra) := commandWord_eq_assemble_divFlags 0x27 rd re ra 0 qen ren
  exact ⟨decode_of_eq_encode hdiv rfl, decode_of_eq_encode hdivs rfl, List.forall_mem_cons.2
    ⟨divide_outcomes hdiv rfl, List.forall_mem_singleton.2 (divide_outcomes hdivs rfl)⟩⟩

/-- Settles O50: the three branches of each command; the floor quotient shows the multiple. -/
theorem modAndModsFloor : Obligations.ModAndModsFloor := by
  intro s rd ra rb
  have hmod : commandWord 0x28 rd 0 ra rb 0 0 = encode (.mod rd ra rb) :=
    commandWord_eq_assemble rd 0 ra rb 0 0x28 0 (by decide)
  have hmods : commandWord 0x29 0 0 ra 0 0 0 = encode (.mods ra) :=
    commandWord_eq_assemble 0 0 ra 0 0 0x29 0 (by decide)
  rw [hmod, hmods]
  refine ⟨decode_of_eq_encode rfl rfl, decode_of_eq_encode rfl rfl, execMod_of_zero rd ra, execMod_of_neg rd ra,
    fun hpos => ?mod, execMods_of_zero ra, execMods_of_neg ra, fun hpos => ?mods⟩
  case mod =>
    obtain ⟨hnonneg, hlt⟩ := fmod_range_of_pos (s.val ra) hpos
    obtain ⟨t, hdone, ht⟩ := commit_done s rd (fmod (s.val ra) (s.val rb))
    exact ⟨t, _, _, (execMod_of_pos rd ra hpos).trans hdone, eq_mul_fdiv_add_fmod _ _, hnonneg, hlt, ht⟩
  case mods =>
    have hresw := toNat_ofInt_fmod (s.val ra) hpos
    refine ⟨_, Int.fdiv (s.val ra) s.imm.toInt, execMods_of_pos ra hpos, ?_, ?_, completes_of_done ?_ rfl⟩
    · exact (eq_mul_fdiv_add_fmod _ _).trans (congrArg _ hresw.symm)
    · exact hresw.trans_lt (fmod_range_of_pos _ hpos).2
    · exact { keeps_self s { resw := true } with resw := nofun }

/-- Settles O51: DIV leaves `tdiv` and `tmod`, MOD leaves `fmod`, and for a positive divisor `fmod` is `tmod` or that plus the
divisor. -/
theorem divisionAndModuloAgree : Obligations.DivisionAndModuloAgree := by
  intro s rd re rf ra rb hne hb
  obtain ⟨t, hdiv, hq, hr, -⟩ := divide_completes (s := s) (c := encode (.div true true rd re ra rb)) (qen := true)
    (ren := true) (a := s.val ra) (fun h => hne h.2.2) hb
  have hlt := tmod_natAbs_lt (s.val ra) (s.val rb) hb
  have hsign := tmod_eq_zero_or_sign (s.val ra) (s.val rb)
  refine ⟨t, hdiv, ?_⟩
  rw [(hq rfl).val, (hr rfl).val]
  refine ⟨tdiv_mul_add_tmod _ _, ?_, by omega, fun hpos => ?_⟩
  · rw [Int.abs_eq_natAbs, Int.abs_eq_natAbs]
    exact Int.ofNat_lt.2 hlt
  obtain ⟨u, hdone, hcommitted, -⟩ := commit_done s rf (fmod (s.val ra) (s.val rb))
  obtain ⟨hnonneg, hupper⟩ := fmod_range_of_pos (s.val ra) hpos
  refine ⟨u, (execMod_of_pos rf ra hpos).trans hdone, ?_⟩
  rw [hcommitted.val]
  exact ⟨hnonneg, hupper, fmod_eq_tmod_or_add _ hpos⟩

/-- Settles O43: ADDABS ends in `finish`. -/
theorem addabsAddsMagnitudes : Obligations.AddabsAddsMagnitudes := by
  intro s rd ra rb v hv
  obtain rfl : v = (s.mag ra : Int) + s.mag rb := by rw [hv, abs_val, abs_val]
  have hword : commandWord 0x20 rd 0 ra rb 0 0 = encode (.addabs rd ra rb) :=
    commandWord_eq_assemble rd 0 ra rb 0 0x20 0 (by decide)
  exact ⟨decode_of_eq_encode hword rfl, finish_outcomes hword rfl⟩

/-- Settles O44: the two branches of SUBABS. -/
theorem subabsSubtractsOrderedMagnitudes : Obligations.SubabsSubtractsOrderedMagnitudes := by
  intro s rd ra rb
  have hword : commandWord 0x21 rd 0 ra rb 0 0 = encode (.subabs rd ra rb) :=
    commandWord_eq_assemble rd 0 ra rb 0 0x21 0 (by decide)
  rw [abs_val, abs_val, hword]
  refine ⟨decode_of_eq_encode rfl rfl, fun hle => ?commits, fun hlt => execSubabs_of_lt rd (Int.ofNat_lt.1 hlt)⟩
  case commits =>
    obtain ⟨t, hdone, ht⟩ := commit_done s rd ((s.mag ra : Int) - s.mag rb)
    exact ⟨t, (execSubabs_of_le rd (Int.ofNat_le.1 hle)).trans hdone, ht⟩

/-- Settles O45: both commands end in `finish`. -/
theorem addAndSubAreExact : Obligations.AddAndSubAreExact := by
  intro s rd ra rb
  have hadd : commandWord 0x22 rd 0 ra rb 0 0 = encode (.add rd ra rb) :=
    commandWord_eq_assemble rd 0 ra rb 0 0x22 0 (by decide)
  have hsub : commandWord 0x23 rd 0 ra rb 0 0 = encode (.sub rd ra rb) :=
    commandWord_eq_assemble rd 0 ra rb 0 0x23 0 (by decide)
  obtain ⟨haddFits, haddAlloc⟩ := finish_outcomes (s := s) hadd rfl
  exact ⟨decode_of_eq_encode hadd rfl, decode_of_eq_encode hsub rfl, haddFits, haddAlloc, finish_outcomes hsub rfl⟩

/-- Settles O48: both commands end in `finish`, on the product itself. -/
theorem mulAndMulsAreExact : Obligations.MulAndMulsAreExact := by
  intro s rd ra rb
  have hmul : commandWord 0x24 rd 0 ra rb 0 0 = encode (.mul rd ra rb) :=
    commandWord_eq_assemble rd 0 ra rb 0 0x24 0 (by decide)
  have hmuls : commandWord 0x25 rd 0 ra 0 0 0 = encode (.muls rd ra) :=
    commandWord_eq_assemble rd 0 ra 0 0 0x25 0 (by decide)
  obtain ⟨hmulFits, hmulAlloc⟩ := finish_outcomes (s := s) hmul rfl
  exact ⟨decode_of_eq_encode hmul rfl, decode_of_eq_encode hmuls rfl, hmulFits, hmulAlloc, finish_outcomes hmuls rfl⟩

end Sys2Proof
end

section
/-! O47, O55, O57: the engine's sign dispatch (spec/42_arithmetic.md R143) and its limb-wise addition, subtraction and
multiplication (R147, R150) are exact. -/

namespace Sys2Proof.Machine

/-! ### The sign dispatch -/

theorem signOf_eq_neg_of_ne {a b : Int} (h : signOf a ≠ signOf b) : signOf b = -signOf a := by
  have ha := signOf_eq_one_or_neg_one a
  have hb := signOf_eq_one_or_neg_one b
  omega

/-- The dispatch adds the magnitudes of values of one sign and subtracts those of values of different signs (R143). -/
theorem signedSum_eq (a s b : Int) : signedSum a s b = a + s * b := by
  have ha := signOf_mul_natAbs a
  have hb := signOf_mul_natAbs (s * b)
  simp only [signedSum]
  split_ifs with hsame hle
  · rw [mul_add, ha, hsame, hb]
  · rw [signOf_eq_neg_of_ne hsame] at hb
    linarith
  · have hopposite := signOf_eq_neg_of_ne hsame
    rw [hopposite] at hb ⊢
    linarith

/-! ### One limb position -/

/-- A number below `B`, written as a limb, keeps its value (R22). -/
theorem natOfLimbs_ofNat_cons {m : Nat} (h : m < Config.base) (ls : List Limb) :
    natOfLimbs (BitVec.ofNat 32 m :: ls) = m + Config.base * natOfLimbs ls := by
  rw [natOfLimbs, BitVec.toNat_ofNat, Nat.mod_eq_of_lt h]

/-- A limb written and the carry handed on are together the number that was formed (R147, R150). -/
theorem natOfLimbs_mod_cons (m : Nat) (ls : List Limb) :
    natOfLimbs (BitVec.ofNat 32 (m % Config.base) :: ls) = m % Config.base + Config.base * natOfLimbs ls :=
  natOfLimbs_ofNat_cons (Nat.mod_lt m (by decide)) ls

theorem natOfLimbs_ofNat_singleton {m : Nat} (h : m < Config.base) : natOfLimbs [BitVec.ofNat 32 m] = m :=
  natOfLimbs_ofNat_cons h []

/-- A sequence is not longer than its tail by more than its first limb. -/
theorem tail_length_le {xs : List Limb} {n : Nat} (h : xs.length ≤ n + 1) : xs.tail.length ≤ n := by
  rw [List.length_tail]
  omega

/-! ### Addition -/

/-- Over enough limb positions the limbs written spell the sum of both numbers and the carry in (R147). -/
theorem natOfLimbs_addLimbsFrom {n : Nat} {xs ys : List Limb} {carry : Nat} (hx : xs.length ≤ n) (hy : ys.length ≤ n)
    (hcarry : carry ≤ 1) : natOfLimbs (addLimbsFrom n xs ys carry) = natOfLimbs xs + natOfLimbs ys + carry := by
  induction n generalizing xs ys carry with
  | zero =>
    obtain rfl : xs = [] := List.eq_nil_of_length_eq_zero (Nat.le_zero.1 hx)
    obtain rfl : ys = [] := List.eq_nil_of_length_eq_zero (Nat.le_zero.1 hy)
    rw [addLimbsFrom]
    split_ifs with h0
    · rw [h0]
      rfl
    · rw [natOfLimbs_ofNat_singleton (hcarry.trans_lt (by decide)), natOfLimbs, Nat.zero_add]
  | succ n ih =>
    have hxlt := headLimb_lt xs
    have hylt := headLimb_lt ys
    have hnext : (headLimb xs + headLimb ys + carry) / Config.base ≤ 1 := by
      simp only [Config.base] at hxlt hylt ⊢
      omega
    have hsum := Nat.mod_add_div (headLimb xs + headLimb ys + carry) Config.base
    rw [addLimbsFrom, natOfLimbs_mod_cons, ih (tail_length_le hx) (tail_length_le hy) hnext, natOfLimbs_head_tail xs,
      natOfLimbs_head_tail ys]
    linarith

theorem natOfLimbs_addLimbs (xs ys : List Limb) : natOfLimbs (addLimbs xs ys) = natOfLimbs xs + natOfLimbs ys :=
  natOfLimbs_addLimbsFrom (le_max_left _ _) (le_max_right _ _) (Nat.zero_le 1)

/-! ### Subtraction -/

/-- Over enough limb positions, where no borrow is left at the end, the limbs written make up the difference (R147). -/
theorem natOfLimbs_subLimbsFrom {n : Nat} {xs ys : List Limb} {borrow : Nat} (hx : xs.length ≤ n) (hy : ys.length ≤ n)
    (hborrow : borrow ≤ 1) (hle : natOfLimbs ys + borrow ≤ natOfLimbs xs) :
    natOfLimbs (subLimbsFrom n xs ys borrow) + (natOfLimbs ys + borrow) = natOfLimbs xs := by
  induction n generalizing xs ys borrow with
  | zero =>
    obtain rfl : xs = [] := List.eq_nil_of_length_eq_zero (Nat.le_zero.1 hx)
    exact (Nat.zero_add _).trans (Nat.le_zero.1 hle)
  | succ n ih =>
    have hxlt := headLimb_lt xs
    have hylt := headLimb_lt ys
    rw [natOfLimbs_head_tail xs, natOfLimbs_head_tail ys] at hle ⊢
    simp only [Config.base] at hxlt hylt hle ⊢
    rw [subLimbsFrom]
    split_ifs with hfits
    · have hrest := ih (tail_length_le hx) (tail_length_le hy) (Nat.zero_le 1) (by omega)
      rw [natOfLimbs_ofNat_cons (by simp only [Config.base]; omega), Config.base]
      omega
    · have hrest := ih (tail_length_le hx) (tail_length_le hy) le_rfl (by omega)
      rw [natOfLimbs_ofNat_cons (by simp only [Config.base]; omega), Config.base]
      omega

theorem natOfLimbs_subLimbs {xs ys : List Limb} (h : natOfLimbs ys ≤ natOfLimbs xs) :
    natOfLimbs (subLimbs xs ys) = natOfLimbs xs - natOfLimbs ys :=
  Nat.eq_sub_of_add_eq (natOfLimbs_subLimbsFrom (le_max_left _ _) (le_max_right _ _) (Nat.zero_le 1) h)

/-! ### Multiplication -/

/-- One row of the product: the limbs written spell the multiple and the carry in (R150). -/
theorem natOfLimbs_mulByLimb (xs : List Limb) {y carry : Nat} (hy : y < Config.base) (hcarry : carry < Config.base) :
    natOfLimbs (mulByLimb xs y carry) = natOfLimbs xs * y + carry := by
  induction xs generalizing carry with
  | nil => rw [mulByLimb, natOfLimbs_ofNat_singleton hcarry, natOfLimbs, Nat.zero_mul, Nat.zero_add]
  | cons x xs ih =>
    have hx : x.toNat < Config.base := x.isLt
    have hnext : (x.toNat * y + carry) / Config.base < Config.base := by
      rw [Nat.div_lt_iff_lt_mul (by decide)]
      calc x.toNat * y + carry < x.toNat * Config.base + Config.base :=
            Nat.add_lt_add_of_le_of_lt (Nat.mul_le_mul_left _ hy.le) hcarry
        _ = (x.toNat + 1) * Config.base := (Nat.succ_mul _ _).symm
        _ ≤ Config.base * Config.base := Nat.mul_le_mul_right _ hx
    have hsum := Nat.mod_add_div (x.toNat * y + carry) Config.base
    rw [mulByLimb, natOfLimbs_mod_cons, ih hnext, natOfLimbs]
    linarith

end Sys2Proof.Machine

namespace Sys2Proof

open Sys2Proof.Machine

/-- Settles O55: both loops run over every limb of both numbers, from no carry and no borrow. -/
theorem engineAddsAndSubtractsExactly : Obligations.EngineAddsAndSubtractsExactly :=
  fun xs ys => ⟨natOfLimbs_addLimbs xs ys, natOfLimbs_subLimbs⟩

/-- Settles O57, by induction on the first factor: each row is exact and the accumulation adds exactly. -/
theorem engineMultipliesExactly : Obligations.EngineMultipliesExactly := by
  intro xs ys
  induction xs with
  | nil => exact (Nat.zero_mul _).symm
  | cons x xs ih =>
    have hrow := natOfLimbs_mulByLimb ys (carry := 0) x.isLt (by decide)
    have hshift : natOfLimbs (0 :: mulLimbs xs ys) = Config.base * natOfLimbs (mulLimbs xs ys) := Nat.zero_add _
    rw [mulLimbs, natOfLimbs_addLimbs, hrow, hshift, ih, natOfLimbs]
    ring

/-- Settles O47: each case of the dispatch recomposes the two values from their signs and magnitudes. -/
theorem signedSumIsExact : Obligations.SignedSumIsExact := by
  intro a b
  rw [signedSum_eq, signedSum_eq, one_mul, neg_one_mul, sub_eq_add_neg]
  exact ⟨rfl, rfl⟩

end Sys2Proof
end

section
/-! O58: the engine's long division (spec/42_arithmetic.md R155) is exact. The key fact is about one quotient limb: estimated from
the top limbs of a normalised divisor and corrected, it is the true one or one more. -/

namespace Sys2Proof.Machine

/-! ### Estimating a quotient from leading parts -/

/-- A quotient times the divisor's leading part is at most the dividend's: the tests of R155 never reject the true limb. -/
theorem quotient_mul_lead_le (x y p c : Nat) : x / (y * c) * (y / p) ≤ x / (p * c) := by
  rcases Nat.eq_zero_or_pos (p * c) with h0 | hpos
  · rcases Nat.mul_eq_zero.1 h0 with rfl | rfl
    · simp
    · simp
  · rw [Nat.le_div_iff_mul_le hpos]
    calc x / (y * c) * (y / p) * (p * c) = x / (y * c) * (y / p * p * c) := by ring
      _ ≤ x / (y * c) * (y * c) := Nat.mul_le_mul_left _ (Nat.mul_le_mul_right c (Nat.div_mul_le_self y p))
      _ ≤ x := Nat.div_mul_le_self _ _

/-- A factor within what the leading parts allow exceeds the true quotient by at most `d`, if it is at most `d` times the divisor's
leading part plus one. -/
theorem le_quotient_add {x y p c f d : Nat} (hy : 0 < y) (hp : 0 < p) (hc : 0 < c) (hf : f * (y / p) ≤ x / (p * c))
    (hd : f ≤ d * (y / p + 1)) : f ≤ x / (y * c) + d := by
  suffices h : (f - d) * (y * c) ≤ x from
    Nat.sub_le_iff_le_add.1 ((Nat.le_div_iff_mul_le (Nat.mul_pos hy hc)).2 h)
  have hround : y ≤ (y / p + 1) * p := by
    rw [mul_comm]
    exact (Nat.lt_mul_div_succ y hp).le
  have hless : (f - d) * (y / p + 1) ≤ f * (y / p) := by
    rw [Nat.sub_mul, Nat.mul_succ]
    omega
  calc (f - d) * (y * c) ≤ (f - d) * ((y / p + 1) * p * c) := Nat.mul_le_mul_left _ (Nat.mul_le_mul_right c hround)
    _ = (f - d) * (y / p + 1) * (p * c) := by ring
    _ ≤ x / (p * c) * (p * c) := Nat.mul_le_mul_right _ (hless.trans hf)
    _ ≤ x := Nat.div_mul_le_self _ _

/-! ### The corrections -/

/-- Corrections stop at a value that no test rejects, if they start there or above. -/
theorem le_correct {again : Nat → Bool} {m : Nat} (hm : again m = false) (fuel : Nat) {f : Nat} (hf : m ≤ f) :
    m ≤ correct fuel again f := by
  induction fuel generalizing f with
  | zero => exact hf
  | succ fuel ih =>
    rw [correct]
    split_ifs with hagain
    · have hne : m ≠ f := fun h => by simp [← h, hm] at hagain
      exact ih (by omega)
    · exact hf

/-- Corrections end at a value, not above the first, that the test does not reject, or all of them were made. -/
theorem correct_cases (again : Nat → Bool) (fuel f : Nat) :
    (again (correct fuel again f) = false ∧ correct fuel again f ≤ f) ∨ correct fuel again f = f - fuel := by
  induction fuel generalizing f with
  | zero => exact .inr rfl
  | succ fuel ih =>
    rw [correct]
    split_ifs with hagain
    · rcases ih (f - 1) with ⟨hstop, hle⟩ | hall
      · exact .inl ⟨hstop, by omega⟩
      · exact .inr (by omega)
    · exact .inl ⟨by simpa using hagain, le_rfl⟩

/-! ### The top limbs as leading parts -/

theorem base_pow_pos (n : Nat) : 0 < Config.base ^ n := Nat.pow_pos (by decide)

/-- A limb that nothing stands above is the number's leading part. -/
theorem limbAt_of_lt {x j : Nat} (h : x < Config.base ^ (j + 1)) : limbAt x j = x / Config.base ^ j := by
  refine Nat.mod_eq_of_lt ?_
  rw [Nat.div_lt_iff_lt_mul (base_pow_pos j), mul_comm, ← pow_succ]
  exact h

/-- A leading part with one limb more. -/
theorem div_pow_succ_mul_add_limbAt (x j : Nat) :
    x / Config.base ^ (j + 1) * Config.base + limbAt x j = x / Config.base ^ j := by
  rw [limbAt, pow_succ, ← Nat.div_div_eq_div_mul, mul_comm]
  exact Nat.div_add_mod _ _

/-- A leading part with one limb more, the limb below index 0 being 0: the number is one limb longer then (R155). -/
theorem div_pow_mul_add_limbBelow (x j : Nat) :
    x / Config.base ^ j * Config.base + limbBelow x j 1 = x * Config.base / Config.base ^ j := by
  cases j with
  | zero => simp [limbBelow]
  | succ j =>
    rw [limbBelow, if_pos (Nat.le_add_left 1 j), Nat.add_sub_cancel, div_pow_succ_mul_add_limbAt, pow_succ,
      Nat.mul_div_mul_right _ _ (by decide)]

/-- The two limbs at the top of the dividend. -/
theorem top_two_limbs {x i : Nat} (h : x < Config.base ^ (i + 2)) :
    limbAt x (i + 1) * Config.base + limbBelow x (i + 1) 1 = x / Config.base ^ i := by
  rw [limbAt_of_lt h, limbBelow, if_pos (Nat.le_add_left 1 i), Nat.add_sub_cancel, div_pow_succ_mul_add_limbAt]

/-- The three limbs at the top of the dividend. -/
theorem top_three_limbs {x i : Nat} (h : x < Config.base ^ (i + 2)) :
    limbAt x (i + 1) * Config.base ^ 2 + limbBelow x (i + 1) 1 * Config.base + limbBelow x (i + 1) 2 =
      x * Config.base / Config.base ^ i := by
  have hthird : limbBelow x (i + 1) 2 = limbBelow x i 1 := by
    simp only [limbBelow, Nat.reduceLeDiff, Nat.reduceSubDiff]
  rw [hthird, pow_two, ← mul_assoc, ← add_mul, top_two_limbs h, div_pow_mul_add_limbBelow]

/-! ### One quotient limb -/

/-- A divisor of `t + 1` limbs whose top limb has its top bit set (R155). -/
structure Normalised (y t : Nat) : Prop where
  upper : y < Config.base ^ (t + 1)
  topBit : 2 ^ 31 ≤ y / Config.base ^ t

/-- The first estimate of R155: the largest limb, or the quotient of the top two limbs by the divisor's top limb. -/
def firstEstimate (x y t i : Nat) : Nat :=
  if limbAt x i = limbAt y t then Config.base - 1
  else (limbAt x i * Config.base + limbBelow x i 1) / limbAt y t

/-- The test of R155 by which an estimate is too large for the top three limbs. -/
def tooLarge (x y t i q : Nat) : Bool :=
  decide (limbAt x i * Config.base ^ 2 + limbBelow x i 1 * Config.base + limbBelow x i 2 <
    q * (limbAt y t * Config.base + limbBelow y t 1))

theorem estimateLimb_eq (x y t i : Nat) :
    estimateLimb x y t i = correct 2 (tooLarge x y t i) (firstEstimate x y t i) := rfl

section OneLimb

variable {x y t k : Nat} (hy : Normalised y t) (hx : x < y * Config.base ^ (k + 1))
include hy

theorem Normalised.pos : 0 < y := by
  by_contra h0
  have htop := hy.topBit
  simp [Nat.eq_zero_of_not_pos h0] at htop

include hx

theorem Normalised.dividend_lt : x < Config.base ^ (t + k + 2) :=
  calc x < y * Config.base ^ (k + 1) := hx
    _ ≤ Config.base ^ (t + 1) * Config.base ^ (k + 1) := Nat.mul_le_mul_right _ hy.upper.le
    _ = Config.base ^ (t + k + 2) := by rw [← pow_add]; congr 1; omega

theorem Normalised.quotient_lt : x / (y * Config.base ^ k) < Config.base := by
  rw [Nat.div_lt_iff_lt_mul (Nat.mul_pos hy.pos (base_pow_pos k)), mul_comm, mul_assoc, ← pow_succ]
  exact hx

/-- The test of R155 passes the estimates that the leading parts of divisor and dividend, of two limbs and of three, allow. -/
theorem Normalised.tooLarge_eq_false_iff (q : Nat) : tooLarge x y t (t + k + 1) q = false ↔
    q * (y * Config.base / Config.base ^ t) ≤ x * Config.base / (Config.base ^ t * Config.base ^ k) := by
  rw [tooLarge, decide_eq_false_iff_not, not_lt, top_three_limbs (hy.dividend_lt hx), limbAt_of_lt hy.upper,
    div_pow_mul_add_limbBelow, pow_add]

/-- The first estimate fits a limb and is within what the top two limbs allow, and it is not below the true limb. -/
theorem Normalised.firstEstimate_bounds : firstEstimate x y t (t + k + 1) < Config.base ∧
    firstEstimate x y t (t + k + 1) * (y / Config.base ^ t) ≤ x / (Config.base ^ t * Config.base ^ k) ∧
    x / (y * Config.base ^ k) ≤ firstEstimate x y t (t + k + 1) := by
  have hquotient := hy.quotient_lt hx
  have hpos : 0 < y / Config.base ^ t := lt_of_lt_of_le (by decide) hy.topBit
  have htop : limbAt x (t + k + 1) = x / (Config.base ^ t * Config.base ^ k) / Config.base := by
    rw [limbAt_of_lt (hy.dividend_lt hx), ← pow_add, Nat.div_div_eq_div_mul, ← pow_succ]
  have hle : x / (Config.base ^ t * Config.base ^ k) / Config.base ≤ y / Config.base ^ t := by
    rw [Nat.div_div_eq_div_mul, mul_assoc, ← pow_succ, mul_comm, ← Nat.div_div_eq_div_mul]
    exact Nat.div_le_div_right (Nat.div_lt_of_lt_mul (mul_comm y _ ▸ hx)).le
  rw [firstEstimate, top_two_limbs (hy.dividend_lt hx), limbAt_of_lt hy.upper, htop, pow_add]
  split_ifs with htie
  · refine ⟨by decide, ?_, Nat.le_pred_of_lt hquotient⟩
    calc (Config.base - 1) * (y / Config.base ^ t) ≤ y / Config.base ^ t * Config.base := by
          rw [mul_comm]
          exact Nat.mul_le_mul_left _ (Nat.sub_le _ _)
      _ ≤ x / (Config.base ^ t * Config.base ^ k) := htie ▸ Nat.div_mul_le_self _ _
  · have hbelow := (Nat.div_lt_iff_lt_mul (by decide)).1 (lt_of_le_of_ne hle htie)
    exact ⟨(Nat.div_lt_iff_lt_mul hpos).2 (mul_comm _ Config.base ▸ hbelow), Nat.div_mul_le_self _ _,
      (Nat.le_div_iff_mul_le hpos).2 (quotient_mul_lead_le x y _ _)⟩

/-- The estimate of R155 is the true quotient limb or one more: the corrections stop above it, or two of them were enough. -/
theorem Normalised.estimateLimb_bounds : x / (y * Config.base ^ k) ≤ estimateLimb x y t (t + k + 1) ∧
    estimateLimb x y t (t + k + 1) ≤ x / (y * Config.base ^ k) + 1 := by
  obtain ⟨hlimb, hwithin, hlower⟩ := hy.firstEstimate_bounds hx
  have htopBit := hy.topBit
  have hlonger : x * Config.base / (y * Config.base * Config.base ^ k) = x / (y * Config.base ^ k) := by
    rw [mul_right_comm, Nat.mul_div_mul_right _ _ (by decide)]
  rw [estimateLimb_eq]
  constructor
  · refine le_correct ((hy.tooLarge_eq_false_iff hx _).2 ?_) 2 hlower
    exact hlonger ▸ quotient_mul_lead_le (x * Config.base) (y * Config.base) _ _
  · rcases correct_cases (tooLarge x y t (t + k + 1)) 2 (firstEstimate x y t (t + k + 1)) with ⟨hstop, hle⟩ | hall
    · have hlead := div_pow_mul_add_limbBelow y t
      rw [← hlonger]
      refine le_quotient_add (Nat.mul_pos hy.pos (by decide)) (base_pow_pos t) (base_pow_pos k)
        ((hy.tooLarge_eq_false_iff hx _).1 hstop) ?_
      simp only [Config.base] at *
      omega
    · have htwo := le_quotient_add (d := 2) hy.pos (base_pow_pos t) (base_pow_pos k) hwithin
        (by simp only [Config.base] at *; omega)
      rw [hall]
      exact (Nat.sub_le_of_le_add htwo).trans (Nat.le_succ _)

end OneLimb

/-! ### The loop -/

/-- A division by `y * c` and then one of its remainder by `y` make up the division by `y`. -/
theorem div_mul_add_mod_div (x y c : Nat) : x / (y * c) * c + x % (y * c) / y = x / y := by
  rw [Nat.mod_mul_right_div_self, ← Nat.div_div_eq_div_mul, mul_comm]
  exact Nat.div_add_mod _ _

/-- One round of the loop takes the true quotient limb, by adding back where the estimate was one too large (R155). -/
theorem Normalised.divideLoop_succ {x y t k : Nat} (hy : Normalised y t) (hx : x < y * Config.base ^ (k + 1)) (q : Nat) :
    divideLoop y t (k + 1) x q =
      divideLoop y t k (x % (y * Config.base ^ k)) (q + x / (y * Config.base ^ k) * Config.base ^ k) := by
  obtain ⟨hlower, hupper⟩ := hy.estimateLimb_bounds hx
  have hdiv := Nat.div_add_mod' x (y * Config.base ^ k)
  have hmod := Nat.mod_lt x (Nat.mul_pos hy.pos (base_pow_pos k))
  rw [divideLoop]
  simp only [← Nat.add_assoc, mul_assoc]
  rcases Nat.le_and_le_add_one_iff.1 ⟨hlower, hupper⟩ with hexact | hover
  · have hrest : x - x / (y * Config.base ^ k) * (y * Config.base ^ k) = x % (y * Config.base ^ k) := by omega
    rw [hexact, if_pos (Nat.div_mul_le_self _ _), hrest]
  · have hneg : ¬ (x / (y * Config.base ^ k) + 1) * (y * Config.base ^ k) ≤ x := by
      rw [Nat.succ_mul]
      omega
    have hrest : x + y * Config.base ^ k - (x / (y * Config.base ^ k) + 1) * (y * Config.base ^ k) =
        x % (y * Config.base ^ k) := by
      rw [Nat.succ_mul]
      omega
    rw [hover, if_neg hneg, hrest, Nat.add_sub_cancel]

/-- The loop divides what is left by the divisor, however many quotient limbs remain (R155). -/
theorem Normalised.divideLoop_eq {x y t k : Nat} (hy : Normalised y t) (hx : x < y * Config.base ^ k) (q : Nat) :
    divideLoop y t k x q = (q + x / y, x % y) := by
  induction k generalizing x q with
  | zero =>
    rw [pow_zero, mul_one] at hx
    rw [divideLoop, Nat.div_eq_of_lt hx, Nat.mod_eq_of_lt hx, Nat.add_zero]
  | succ k ih =>
    rw [hy.divideLoop_succ hx, ih (Nat.mod_lt _ (Nat.mul_pos hy.pos (base_pow_pos k))), Nat.add_assoc,
      div_mul_add_mod_div, Nat.mod_mul_right_mod]

/-! ### Normalisation and the leading quotient limb -/

/-- The shift of R155 that brings the divisor's top bit to the top of a limb. -/
def normalisingShift (y : Nat) : Nat := Config.limbBits - bitlen (limbAt y (limbCount y - 1))

/-- A number that is not zero lies between the powers of its top limb (R10). -/
theorem base_pow_le_and_lt {y : Nat} (hy : 0 < y) :
    Config.base ^ (limbCount y - 1) ≤ y ∧ y < Config.base ^ (limbCount y - 1 + 1) := by
  have hsome : ¬ limbCount y ≤ 0 := by
    rw [limbCount_le_iff, pow_zero]
    omega
  constructor
  · exact not_lt.1 fun h => absurd ((limbCount_le_iff y _).2 h) (by omega)
  · exact (limbCount_le_iff y _).1 (by omega)

/-- Shifted so, a divisor is normalised, with as many limbs as before (R155). -/
theorem normalised_mul_two_pow {y : Nat} (hy : 0 < y) : Normalised (y * 2 ^ normalisingShift y) (limbCount y - 1) := by
  obtain ⟨habove, hbelow⟩ := base_pow_le_and_lt hy
  rw [normalisingShift, limbAt_of_lt hbelow]
  generalize limbCount y - 1 = t at *
  have hpos : 0 < y / Config.base ^ t := Nat.div_pos habove (base_pow_pos t)
  have hlimb : y / Config.base ^ t < 2 ^ 32 := by
    rw [Nat.div_lt_iff_lt_mul (base_pow_pos t), mul_comm]
    exact hbelow
  obtain ⟨hlower, hupper⟩ := bitlen_bounds hpos.ne'
  have hmost := (bitlen_le_iff _ 32).2 hlimb
  have hleast := mt (bitlen_eq_zero (y / Config.base ^ t)).1 hpos.ne'
  generalize bitlen (y / Config.base ^ t) = b at *
  simp only [Config.limbBits]
  constructor
  · have hround : y < 2 ^ b * Config.base ^ t := (Nat.div_lt_iff_lt_mul (base_pow_pos t)).1 hupper
    calc y * 2 ^ (32 - b) < 2 ^ b * Config.base ^ t * 2 ^ (32 - b) := Nat.mul_lt_mul_of_pos_right hround (by positivity)
      _ = 2 ^ (b + (32 - b)) * Config.base ^ t := by ring
      _ = Config.base ^ (t + 1) := by
        rw [Nat.add_sub_cancel' hmost, pow_succ' Config.base]
        rfl
  · have htruncated : 2 ^ (b - 1) * Config.base ^ t ≤ y := (Nat.le_div_iff_mul_le (base_pow_pos t)).1 hlower
    rw [Nat.le_div_iff_mul_le (base_pow_pos t)]
    calc 2 ^ 31 * Config.base ^ t = 2 ^ (b - 1 + (32 - b)) * Config.base ^ t := by congr 2; omega
      _ = 2 ^ (b - 1) * Config.base ^ t * 2 ^ (32 - b) := by ring
      _ ≤ y * 2 ^ (32 - b) := Nat.mul_le_mul_right _ htruncated

/-- R155 after its normalisation: the leading quotient limb, then the loop. -/
def divideNormalised (x y t : Nat) : Nat × Nat :=
  let d := limbCount x - 1 - t
  let lead := y * Config.base ^ d
  let first := if lead ≤ x then (Config.base ^ d, x - lead) else (0, x)
  divideLoop y t d first.2 first.1

/-- R155 is the division of the shifted numbers, the remainder shifted back. -/
theorem divideLimbs_eq (x y : Nat) : divideLimbs x y =
    Prod.map id (· / 2 ^ normalisingShift y)
      (divideNormalised (x * 2 ^ normalisingShift y) (y * 2 ^ normalisingShift y) (limbCount y - 1)) := rfl

/-- The first subtraction of R155 is the division by the divisor shifted to the dividend's length: it goes at most once. -/
theorem lead_step {x lead c : Nat} (h : x < 2 * lead) :
    (if lead ≤ x then (c, x - lead) else (0, x)) = (x / lead * c, x % lead) := by
  split_ifs with hle
  · have hone : x / lead = 1 := Nat.div_eq_of_lt_le (by omega) (by omega)
    rw [hone, one_mul, Nat.mod_eq_sub_mod hle, Nat.mod_eq_of_lt (by omega)]
  · rw [Nat.div_eq_of_lt (not_le.1 hle), Nat.mod_eq_of_lt (not_le.1 hle), zero_mul]

/-- A dividend is less than twice the divisor shifted to its length (R155). -/
theorem Normalised.lt_two_mul_lead {x y t : Nat} (hy : Normalised y t) (h : y ≤ x) :
    x < 2 * (y * Config.base ^ (limbCount x - 1 - t)) := by
  have hlow := (Nat.le_div_iff_mul_le (base_pow_pos t)).1 hy.topBit
  obtain ⟨-, hbelow⟩ := base_pow_le_and_lt (hy.pos.trans_le h)
  have hlength : t ≤ limbCount x - 1 := by
    by_contra hshort
    have hle : Config.base ^ (limbCount x - 1 + 1) ≤ Config.base ^ t := Nat.pow_le_pow_right (by decide) (by omega)
    omega
  calc x < Config.base ^ (limbCount x - 1 + 1) := hbelow
    _ = Config.base * Config.base ^ (t + (limbCount x - 1 - t)) := by rw [Nat.add_sub_cancel' hlength, pow_succ']
    _ = 2 * (2 ^ 31 * Config.base ^ t * Config.base ^ (limbCount x - 1 - t)) := by
      rw [pow_add, mul_assoc (2 ^ 31), ← mul_assoc 2, ← pow_succ']
      rfl
    _ ≤ 2 * (y * Config.base ^ (limbCount x - 1 - t)) := Nat.mul_le_mul_left _ (Nat.mul_le_mul_right _ hlow)

theorem Normalised.divideNormalised_eq {x y t : Nat} (hy : Normalised y t) (h : y ≤ x) :
    divideNormalised x y t = (x / y, x % y) := by
  have hmod := Nat.mod_lt x (Nat.mul_pos hy.pos (base_pow_pos (limbCount x - 1 - t)))
  simp only [divideNormalised, lead_step (hy.lt_two_mul_lead h)]
  rw [hy.divideLoop_eq hmod, div_mul_add_mod_div, Nat.mod_mul_right_mod]

end Sys2Proof.Machine

namespace Sys2Proof

open Sys2Proof.Machine

/-- Settles O58: the division of the normalised numbers is exact, and shifting both numbers leaves the quotient and shifts the
remainder. -/
theorem engineDividesExactly : Obligations.EngineDividesExactly := by
  intro x y hpos hle
  have hshift : 0 < 2 ^ normalisingShift y := Nat.two_pow_pos _
  rw [divideLimbs_eq, (normalised_mul_two_pow hpos).divideNormalised_eq (Nat.mul_le_mul_right _ hle),
    Nat.mul_div_mul_right _ _ hshift, Nat.mul_mod_mul_right, Prod.map, id, Nat.mul_div_cancel _ hshift]

end Sys2Proof
end

section
/-! O59: the engine's Montgomery product (spec/43_modexp.md R176). One pass of its loop keeps the accumulator below `2 * n` and
divides by `B` exactly, so the passes together divide `u * v` by `B^limbs(N)` modulo `N`. -/

namespace Sys2Proof.Machine

/-! ### The word `mm` -/

theorem coprime_two_pow_of_odd {n : Nat} (hn : n % 2 = 1) (k : Nat) : Nat.Coprime n (2 ^ k) :=
  Nat.Coprime.pow_right k (Nat.coprime_two_right.2 (Nat.odd_iff.2 hn))

theorem coprime_base_pow {n : Nat} (hn : n % 2 = 1) (k : Nat) : Nat.Coprime n (Config.base ^ k) :=
  Nat.Coprime.pow_right k (coprime_two_pow_of_odd hn 32)

/-- The power `2^k - 1` of an odd number is its inverse modulo `2^(k+1)`: Euler's theorem with `totient(2^(k+1)) = 2^k`. -/
theorem mul_pow_modEq_one {n : Nat} (hn : n % 2 = 1) (k : Nat) : n * n ^ (2 ^ k - 1) ≡ 1 [MOD 2 ^ (k + 1)] := by
  have htotient : Nat.totient (2 ^ (k + 1)) = 2 ^ k := by rw [Nat.totient_prime_pow_succ Nat.prime_two, Nat.mul_one]
  have heuler := Nat.ModEq.pow_totient (coprime_two_pow_of_odd hn (k + 1))
  rwa [htotient, ← mul_pow_sub_one (Nat.two_pow_pos k).ne'] at heuler

theorem negInverse_lt (n : Nat) : negInverse n < Config.base := Nat.mod_lt _ (by decide)

/-- `N * mm ≡ -1 (mod B)` (R176). -/
theorem mul_negInverse_add_one {n : Nat} (hn : n % 2 = 1) : n * negInverse n + 1 ≡ 0 [MOD Config.base] := by
  have hinv : n * powMod n (2 ^ 31 - 1) Config.base ≡ 1 [MOD Config.base] := by
    rw [powMod_eq]
    exact ((Nat.mod_modEq _ _).mul_left n).trans (mul_pow_modEq_one hn 31)
  have hle : powMod n (2 ^ 31 - 1) Config.base ≤ Config.base := by
    rw [powMod_eq]
    exact (Nat.mod_lt _ (by decide)).le
  calc n * negInverse n + 1
      ≡ n * (Config.base - powMod n (2 ^ 31 - 1) Config.base) + n * powMod n (2 ^ 31 - 1) Config.base [MOD Config.base] :=
        ((Nat.mod_modEq _ _).mul_left n).add hinv.symm
    _ = n * Config.base := by rw [← Nat.mul_add, Nat.sub_add_cancel hle]
    _ ≡ 0 [MOD Config.base] := (Nat.modEq_zero_iff_dvd).2 (Dvd.intro_left n rfl)

/-! ### One pass of the loop -/

/-- The accumulator after one pass of R176's loop on the limb `d` of `u`. -/
def montPass (n mm d v t : Nat) : Nat :=
  (t + d * v + (t + d * v) % Config.base * mm % Config.base * n) / Config.base

theorem montLoop_succ (n mm u v k i t : Nat) :
    montLoop n mm u v (k + 1) i t = montLoop n mm u v k (i + 1) (montPass n mm (limbAt u i) v t) := rfl

/-- The multiple of `N` that a pass adds makes the low limb zero. -/
theorem base_dvd_add_mul {n mm : Nat} (hmm : n * mm + 1 ≡ 0 [MOD Config.base]) (x : Nat) :
    Config.base ∣ x + x % Config.base * mm % Config.base * n := by
  refine Nat.modEq_zero_iff_dvd.1 ?_
  have hq : x % Config.base * mm % Config.base ≡ x * mm [MOD Config.base] :=
    (Nat.mod_modEq _ _).trans ((Nat.mod_modEq _ _).mul_right mm)
  calc x + x % Config.base * mm % Config.base * n
      ≡ x + x * mm * n [MOD Config.base] := (hq.mul_right n).add_left x
    _ = x * (n * mm + 1) := by ring
    _ ≡ 0 [MOD Config.base] := hmm.mul_left x

/-- A pass multiplied back by `B` is the sum it divided, which differs from `t + d * v` by a multiple of `N`. -/
theorem montPass_mul_base {n mm : Nat} (hmm : n * mm + 1 ≡ 0 [MOD Config.base]) (d v t : Nat) :
    montPass n mm d v t * Config.base ≡ t + d * v [MOD n] := by
  rw [montPass, Nat.div_mul_cancel (base_dvd_add_mul hmm _)]
  exact (Nat.modEq_of_dvd' (Nat.le_add_right _ _) (by simp)).symm

theorem montPass_lt {n mm d v t : Nat} (hd : d < Config.base) (hv : v ≤ n) (ht : t < 2 * n) :
    montPass n mm d v t < 2 * n := by
  have hdv : d * v ≤ (Config.base - 1) * n := Nat.mul_le_mul (Nat.le_sub_one_of_lt hd) hv
  have hqn : (t + d * v) % Config.base * mm % Config.base * n ≤ (Config.base - 1) * n :=
    Nat.mul_le_mul_right n (Nat.le_sub_one_of_lt (Nat.mod_lt _ (by decide)))
  rw [montPass, Nat.div_lt_iff_lt_mul (by decide)]
  simp only [Config.base] at *
  omega

/-! ### The loop and the product -/

section Loop

variable {n mm : Nat}

theorem montLoop_lt {v : Nat} (u : Nat) (hv : v ≤ n) (k i : Nat) {t : Nat} (ht : t < 2 * n) :
    montLoop n mm u v k i t < 2 * n := by
  induction k generalizing i t with
  | zero => exact ht
  | succ k ih => exact ih (i + 1) (montPass_lt (Nat.mod_lt _ (by decide)) hv ht)

/-- `k` passes from limb `i` on divide `t` plus `v` times these limbs of `u` by `B^k`, modulo `N`. -/
theorem montLoop_mul_base_pow (hmm : n * mm + 1 ≡ 0 [MOD Config.base]) (u v k i t : Nat) :
    montLoop n mm u v k i t * Config.base ^ k ≡ t + u / Config.base ^ i % Config.base ^ k * v [MOD n] := by
  induction k generalizing i t with
  | zero => simp [montLoop, Nat.mod_one, Nat.ModEq.refl]
  | succ k ih =>
    have hlimbs : u / Config.base ^ i % Config.base ^ (k + 1) =
        limbAt u i + Config.base * (u / Config.base ^ (i + 1) % Config.base ^ k) := by
      rw [pow_succ', Nat.mod_mul, Nat.div_div_eq_div_mul, ← pow_succ, limbAt]
    calc montLoop n mm u v (k + 1) i t * Config.base ^ (k + 1)
        = montLoop n mm u v k (i + 1) (montPass n mm (limbAt u i) v t) * Config.base ^ k * Config.base := by
          rw [montLoop_succ, pow_succ, mul_assoc]
      _ ≡ (montPass n mm (limbAt u i) v t + u / Config.base ^ (i + 1) % Config.base ^ k * v) * Config.base [MOD n] :=
          (ih (i + 1) _).mul_right _
      _ = montPass n mm (limbAt u i) v t * Config.base + Config.base * (u / Config.base ^ (i + 1) % Config.base ^ k) * v := by
          ring
      _ ≡ t + limbAt u i * v + Config.base * (u / Config.base ^ (i + 1) % Config.base ^ k) * v [MOD n] :=
          (montPass_mul_base hmm _ v t).add_right _
      _ = t + u / Config.base ^ i % Config.base ^ (k + 1) * v := by rw [hlimbs]; ring

end Loop

/-- The product is what the loop ends with, or that minus `N` where it is not reduced (R176). -/
theorem montMul_cases (n u v : Nat) : ∃ t, montLoop n (negInverse n) u v (limbCount n) 0 0 = t ∧
    (n ≤ t ∧ montMul n u v = t - n ∨ t < n ∧ montMul n u v = t) := by
  refine ⟨_, rfl, ?_⟩
  by_cases h : n ≤ montLoop n (negInverse n) u v (limbCount n) 0 0
  · exact .inl ⟨h, if_pos h⟩
  · exact .inr ⟨not_le.1 h, if_neg h⟩

/-- The product is reduced, for a second factor up to `N` (R179 multiplies by 1, also for `N = 1`). -/
theorem montMul_lt {n v : Nat} (hn : n % 2 = 1) (u : Nat) (hv : v ≤ n) : montMul n u v < n := by
  have hloop : montLoop n (negInverse n) u v (limbCount n) 0 0 < 2 * n := montLoop_lt u hv _ _ (by omega)
  obtain ⟨t, ht, hcases⟩ := montMul_cases n u v
  omega

/-- `montmul(u, v) * R ≡ u * v (mod N)` (R176). -/
theorem montMul_mul_base_pow {n u : Nat} (hn : n % 2 = 1) (hu : u < n) (v : Nat) :
    montMul n u v * Config.base ^ limbCount n ≡ u * v [MOD n] := by
  have hloop := montLoop_mul_base_pow (mul_negInverse_add_one hn) u v (limbCount n) 0 0
  rw [pow_zero, Nat.div_one, Nat.mod_eq_of_lt (hu.trans (lt_base_limbCount n)), zero_add] at hloop
  obtain ⟨t, ht, ⟨hle, hmul⟩ | ⟨-, hmul⟩⟩ := montMul_cases n u v
  · rw [ht] at hloop
    have hsub : t - n ≡ t [MOD n] := Nat.modEq_of_dvd' (Nat.sub_le _ _) (by rw [Nat.sub_sub_self hle])
    exact hmul ▸ (hsub.mul_right _).trans hloop
  · exact hmul ▸ ht ▸ hloop

end Sys2Proof.Machine

namespace Sys2Proof

open Sys2Proof.Machine

/-- Settles O59: the two facts of the product and the two of its word `mm`. -/
theorem montgomeryProductIsCorrect : Obligations.MontgomeryProductIsCorrect := fun n u v hn hu hv =>
  ⟨montMul_lt hn u hv.le, montMul_mul_base_pow hn hu v, negInverse_lt n, mul_negInverse_add_one hn⟩

end Sys2Proof
end

section
/-! O60: the engine's sliding-window exponentiation (spec/43_modexp.md R177 to R179). Every number it computes on the way is the
Montgomery form of a power of the base, and the scan's accumulator is that of the power by the exponent bits consumed. -/

namespace Sys2Proof.Machine

/-! ### Montgomery form -/

/-- `x` is the Montgomery form of `r`: reduced, and congruent to `r * R` with `R = B^limbs(N)` (R177). -/
def IsMontForm (n x r : Nat) : Prop := x < n ∧ x ≡ r * Config.base ^ limbCount n [MOD n]

section MontForm

variable {n : Nat} (hn : n % 2 = 1)
include hn

/-- What a Montgomery product is congruent to, when the product of its factors has the factor `R`. -/
theorem montMul_modEq {u v r : Nat} (hu : u < n) (h : u * v ≡ r * Config.base ^ limbCount n [MOD n]) :
    montMul n u v ≡ r [MOD n] :=
  Nat.ModEq.cancel_right_of_coprime (coprime_base_pow hn _) ((montMul_mul_base_pow hn hu v).trans h)

/-- Montgomery products multiply what their factors stand for. -/
theorem IsMontForm.mul {x y a b : Nat} (hx : IsMontForm n x a) (hy : IsMontForm n y b) :
    IsMontForm n (montMul n x y) (a * b) := by
  refine ⟨montMul_lt hn x hy.1.le, montMul_modEq hn hx.1 ?_⟩
  calc x * y ≡ a * Config.base ^ limbCount n * (b * Config.base ^ limbCount n) [MOD n] := hx.2.mul hy.2
    _ = a * b * Config.base ^ limbCount n * Config.base ^ limbCount n := by ring

/-- `RR` is the square of `R` modulo `N` (R173). -/
theorem rrConst_lt_and_modEq : rrConst n < n ∧
    rrConst n ≡ Config.base ^ limbCount n * Config.base ^ limbCount n [MOD n] := by
  refine ⟨Nat.mod_lt _ (by omega), ?_⟩
  rw [← pow_add, ← two_mul]
  exact Nat.mod_modEq _ _

/-- A reduced number times `RR` enters Montgomery form (R177). -/
theorem isMontForm_montMul_rrConst {a : Nat} (ha : a < n) : IsMontForm n (montMul n a (rrConst n)) a := by
  obtain ⟨hlt, hrr⟩ := rrConst_lt_and_modEq hn
  refine ⟨montMul_lt hn a hlt.le, montMul_modEq hn ha ?_⟩
  rw [mul_assoc]
  exact hrr.mul_left a

/-- The accumulator starts as the Montgomery form of 1 (R177). -/
theorem isMontForm_one : IsMontForm n (montMul n (rrConst n) 1) 1 := by
  obtain ⟨hlt, hrr⟩ := rrConst_lt_and_modEq hn
  refine ⟨montMul_lt hn _ (by omega), montMul_modEq hn hlt ?_⟩
  rwa [mul_one, one_mul]

/-- A product with 1 leaves Montgomery form, reduced (R179). -/
theorem IsMontForm.montMul_one {x r : Nat} (hx : IsMontForm n x r) : montMul n x 1 = r % n := by
  have hmod : montMul n x 1 ≡ r [MOD n] := montMul_modEq hn hx.1 (by rw [mul_one]; exact hx.2)
  rw [← hmod, Nat.mod_eq_of_lt (montMul_lt hn x (by omega))]

theorem IsMontForm.pow_two_pow {acc r : Nat} (h : IsMontForm n acc r) (times : Nat) :
    IsMontForm n (squareTimes n times acc) (r ^ 2 ^ times) := by
  induction times generalizing acc r with
  | zero => rwa [pow_zero, pow_one]
  | succ times ih =>
    have hsquare : r ^ 2 ^ (times + 1) = (r * r) ^ 2 ^ times := by rw [pow_succ', pow_mul, pow_two]
    rw [hsquare]
    exact ih (h.mul hn h)

/-- Entry `j` of the table stands for the first entry times the `j`-th power of the factor between entries. -/
theorem isMontForm_oddPowers {g g2 a b : Nat} (hg : IsMontForm n g a) (hg2 : IsMontForm n g2 b) {count j : Nat}
    (hj : j < count) : IsMontForm n ((oddPowers n g2 count g).getD j 0) (a * b ^ j) := by
  induction count generalizing g a j with
  | zero => omega
  | succ count ih =>
    cases j with
    | zero => rwa [pow_zero, mul_one]
    | succ j =>
      rw [pow_succ', ← mul_assoc]
      exact ih (hg.mul hn hg2) (by omega)

end MontForm

/-! ### The window -/

/-- The scan for the window's low end stops at a bit that is 1, at or before any such bit in reach. -/
theorem lowestOne_spec {e m : Nat} (hm : e.testBit m = true) {fuel l : Nat} (hlm : l ≤ m) (hfuel : m < l + fuel) :
    l ≤ lowestOne e fuel l ∧ lowestOne e fuel l ≤ m ∧ e.testBit (lowestOne e fuel l) = true := by
  induction fuel generalizing l with
  | zero => omega
  | succ fuel ih =>
    unfold lowestOne
    split
    · next hl => exact ⟨le_rfl, hlm, hl⟩
    · next hl =>
      have hne : l ≠ m := fun h => hl (h ▸ hm)
      obtain ⟨hlow, hhigh, hbit⟩ := ih (l := l + 1) (by omega) (by omega)
      exact ⟨by omega, hhigh, hbit⟩

/-- The exponent's bits from `l` up to `b`, as a number. -/
def window (e l b : Nat) : Nat := e / 2 ^ l % 2 ^ (b - l)

/-- The bits from `l` up are those from `b` up followed by the window between. -/
theorem div_two_pow_eq_window (e : Nat) {l b : Nat} (h : l ≤ b) :
    e / 2 ^ l = e / 2 ^ b * 2 ^ (b - l) + window e l b := by
  have hb : 2 ^ b = 2 ^ l * 2 ^ (b - l) := by rw [← pow_add, Nat.add_sub_cancel' h]
  rw [window, hb, ← Nat.div_div_eq_div_mul, Nat.div_add_mod']

/-- A window whose low bit is 1 is odd. -/
theorem window_odd {e l b : Nat} (hl : l < b) (hbit : e.testBit l = true) : window e l b % 2 = 1 := by
  have hmod : e / 2 ^ l % 2 = 1 := by simpa [Nat.testBit_eq_decide_div_mod_eq] using hbit
  rw [window, Nat.mod_mod_of_dvd _ (dvd_pow_self 2 (by omega)), hmod]

/-- One bit that is 0 is the window 0. -/
theorem window_one_bit {e b : Nat} (hb : b ≠ 0) (hbit : ¬ e.testBit (b - 1) = true) : window e (b - 1) b = 0 := by
  have hmod : ¬ e / 2 ^ (b - 1) % 2 = 1 := by simpa [Nat.testBit_eq_decide_div_mod_eq] using hbit
  rw [window, Nat.sub_sub_self (Nat.pos_of_ne_zero hb), pow_one]
  omega

/-- The width-`k` window below bit `b` whose top bit is 1 ends at a bit that is 1, so it is odd and below `2^k`. -/
theorem window_lowestOne {e k b : Nat} (hk : 1 ≤ k) (hb : b ≠ 0) (hbit : e.testBit (b - 1) = true) :
    lowestOne e k (b - k) < b ∧ window e (lowestOne e k (b - k)) b % 2 = 1 ∧
      window e (lowestOne e k (b - k)) b < 2 ^ k := by
  obtain ⟨hlow, hhigh, hone⟩ := lowestOne_spec hbit (fuel := k) (l := b - k) (by omega) (by omega)
  refine ⟨by omega, window_odd (by omega) hone, (Nat.mod_lt _ (Nat.two_pow_pos _)).trans_le ?_⟩
  exact Nat.pow_le_pow_right (by decide) (by omega)

/-! ### The scan -/

/-- The table of R177 for the width `k` holds the base's power by each odd `u` below `2^k`, in Montgomery form, at `u / 2`. -/
def IsOddPowerTable (n k a : Nat) (table : List Nat) : Prop :=
  ∀ u, u % 2 = 1 → u < 2 ^ k → IsMontForm n (table.getD (u / 2) 0) (a ^ u)

section Scan

variable {n : Nat} (hn : n % 2 = 1)
include hn

theorem isOddPowerTable_oddPowers {k g a : Nat} (hk : 1 ≤ k) (hg : IsMontForm n g a) :
    IsOddPowerTable n k a (oddPowers n (montMul n g g) (2 ^ (k - 1)) g) := by
  intro u hodd hu
  have hpow : a ^ u = a * (a * a) ^ (u / 2) := by
    rw [← pow_two, ← pow_mul, ← pow_succ']
    congr 1
    omega
  have hdouble : 2 ^ k = 2 * 2 ^ (k - 1) := (mul_pow_sub_one (by omega) 2).symm
  rw [hpow]
  exact isMontForm_oddPowers hn hg (hg.mul hn hg) (by omega)

/-- Consuming the bits down to `l`: squarings for their number, then the factor the window stands for. -/
theorem IsMontForm.consume {acc a e l b g : Nat} (hacc : IsMontForm n acc (a ^ (e / 2 ^ b))) (hl : l ≤ b)
    (hg : IsMontForm n g (a ^ window e l b)) :
    IsMontForm n (montMul n (squareTimes n (b - l) acc) g) (a ^ (e / 2 ^ l)) := by
  have hpow : a ^ (e / 2 ^ l) = (a ^ (e / 2 ^ b)) ^ 2 ^ (b - l) * a ^ window e l b := by
    rw [div_two_pow_eq_window e hl, pow_add, pow_mul]
  rw [hpow]
  exact (hacc.pow_two_pow hn _).mul hn hg

/-- A bit that is 0 takes one squaring. -/
theorem IsMontForm.consume_zero {acc a e b : Nat} (hacc : IsMontForm n acc (a ^ (e / 2 ^ b))) (hb : b ≠ 0)
    (hbit : ¬ e.testBit (b - 1) = true) : IsMontForm n (montMul n acc acc) (a ^ (e / 2 ^ (b - 1))) := by
  have hpow : a ^ (e / 2 ^ (b - 1)) = a ^ (e / 2 ^ b) * a ^ (e / 2 ^ b) := by
    rw [div_two_pow_eq_window e (Nat.sub_le b 1), window_one_bit hb hbit, Nat.sub_sub_self (Nat.pos_of_ne_zero hb), add_zero,
      pow_one, mul_two, pow_add]
  rw [hpow]
  exact hacc.mul hn hacc

/-- From the power by the bits already consumed, the scan ends with the power by the whole exponent. -/
theorem isMontForm_scan {k a e : Nat} {table : List Nat} (hk : 1 ≤ k) (htable : IsOddPowerTable n k a table)
    {fuel bits acc : Nat} (hfuel : bits ≤ fuel) (hacc : IsMontForm n acc (a ^ (e / 2 ^ bits))) :
    IsMontForm n (scan n k e table fuel bits acc) (a ^ e) := by
  induction fuel generalizing bits acc with
  | zero =>
    obtain rfl : bits = 0 := by omega
    rwa [pow_zero, Nat.div_one] at hacc
  | succ fuel ih =>
    unfold scan
    split_ifs with hbits hbit
    · rwa [hbits, pow_zero, Nat.div_one] at hacc
    · obtain ⟨hlt, hodd, hwidth⟩ := window_lowestOne hk hbits hbit
      exact ih (by omega) (hacc.consume hn hlt.le (htable _ hodd hwidth))
    · exact ih (by omega) (hacc.consume_zero hn hbits hbit)

end Scan

/-- Leaving Montgomery form, the engine has computed the power of R170. -/
theorem engineExpMod_eq_expMod {k : Nat} (hk : 1 ≤ k) (a : Int) (e : Nat) {n : Nat} (hn : n % 2 = 1) :
    (engineExpMod k a e n (rrConst n) : Int) = expMod a e n := by
  have ha : (fmod a n).toNat < n := by
    obtain ⟨hnonneg, hlt⟩ := fmod_range_of_pos a (b := n) (by omega)
    omega
  have hg := isMontForm_montMul_rrConst hn ha
  have hstart : e / 2 ^ bitlen e = 0 := Nat.div_eq_of_lt ((bitlen_le_iff e _).1 le_rfl)
  have hscan := isMontForm_scan hn hk (isOddPowerTable_oddPowers hn hk hg) (e := e) le_rfl
    (by rw [hstart, pow_zero]; exact isMontForm_one hn)
  rw [expMod, powMod_eq]
  exact congrArg Nat.cast (hscan.montMul_one hn)

end Sys2Proof.Machine

namespace Sys2Proof

open Sys2Proof.Machine

/-- Settles O60: the engine's result is the power by squaring of R170, which is `A^E mod N`. -/
theorem engineExponentiatesLikeTheRule : Obligations.EngineExponentiatesLikeTheRule := fun _ a e n hk hn =>
  (engineExpMod_eq_expMod hk a e hn).trans (expMod_eq a e n (by omega))

end Sys2Proof
end

section
/-! SUPPORT. What EXPMOD is made of (spec/43_modexp.md R170 to R174): its words, one equation per branch of R171, and the two ways
in which it completes past its checks. -/

namespace Sys2Proof.Machine

/-! ### EXPMOD's words -/

/-- The word of EXPMOD in a mode has the mode's number in its flags (R80, R86). -/
theorem commandWord_expmod (mode : RRMode) (rd re ra rb rc : RegNo) :
    commandWord 0x30 rd re ra rb rc (rrModeField mode).toNat = encode (.expmod mode rd re ra rb rc) := by
  rw [commandWord_eq_assemble rd re ra rb rc 0x30 _ (rrModeField mode).isLt, BitVec.ofNat_toNat, BitVec.setWidth_eq]
  rfl

theorem decode_commandWord_expmod {mode : RRMode} (hmode : mode ≠ .reserved) (rd re ra rb rc : RegNo) :
    decode (commandWord 0x30 rd re ra rb rc (rrModeField mode).toNat) = .command (.expmod mode rd re ra rb rc) :=
  decode_of_eq_encode (commandWord_expmod mode rd re ra rb rc) (by simpa [Instr.WellFormed, Instr.wellFormed] using hmode)

/-- The numbers of the legal modes (R86). -/
theorem rrMode_numbers : ∀ p ∈ [(RRMode.absent, 0), (.supplied, 1), (.stored, 2)],
    p.1 ≠ .reserved ∧ p.2 = (rrModeField p.1).toNat := by decide

/-- The flags that pass EXPMOD's mask test and name no reserved mode are 0, 1 and 2 (R86). -/
theorem rrModeFlags_lt_three {fl : BitVec 4} (hmask : fl &&& 12 = 0) (hmode : rrModeOfField fl ≠ .reserved) : fl.toNat < 3 := by
  revert fl; decide

/-- EXPMOD's word is illegal with any other flags (R87 (b), (c)). -/
theorem decode_commandWord_expmod_illegal {fl : Nat} (h3 : 3 ≤ fl) (h16 : fl < 16) (rd re ra rb rc : RegNo) :
    ∃ why, decode (commandWord 0x30 rd re ra rb rc fl) = .illegal why := by
  rw [commandWord_eq_assemble rd re ra rb rc 0x30 fl h16]
  cases hdecode : decode (assemble (BitVec.ofNat 8 0x30) rd re ra rb rc (BitVec.ofNat 4 fl)) with
  | illegal why => exact ⟨why, rfl⟩
  | command i =>
    obtain ⟨o, hcode, hmask, hmode, -⟩ := decode_command_cases hdecode
    rw [opField_assemble] at hcode
    obtain rfl : o = .expmod := Op.code_injective hcode
    have hflags : (fieldsOf (assemble (BitVec.ofNat 8 0x30) rd re ra rb rc (BitVec.ofNat 4 fl))).fl &&& 12 = 0 :=
      field_and_mask hmask (by decide)
    rw [fieldsOf_assemble] at hflags hmode
    have hlt := rrModeFlags_lt_three hflags fun h => hmode ⟨rfl, h⟩
    rw [BitVec.toNat_ofNat] at hlt
    omega

/-! ### The branches of R171 -/

section Branches

variable {s : State} {mode : RRMode} {rd re : RegNo}

theorem execExpmod_of_clash (ra rb rc : RegNo) (h : mode = .stored ∧ re = rd) :
    exec (.expmod mode rd re ra rb rc) s = .next (s.faultRecord (encode (.expmod mode rd re ra rb rc)) .badInput) := by
  obtain ⟨rfl, rfl⟩ := h
  exact if_pos ⟨rfl, rfl⟩

variable (hmode : mode ≠ .reserved) (hclash : ¬ (mode = .stored ∧ re = rd))
include hmode hclash

theorem execExpmod_of_not_acceptable (ra : RegNo) {rb rc : RegNo}
    (h : s.val rc ≤ 0 ∨ s.val rc % 2 = 0 ∨ s.val rb < 0) :
    exec (.expmod mode rd re ra rb rc) s =
      .next (s.faultRecord (encode (.expmod mode rd re ra rb rc)) .notAcceptable) := by
  simp only [exec, execExpmod, if_neg hmode, if_neg hclash]
  split
  · rfl
  · next hmod => exact if_pos ((or_assoc.2 h).resolve_left hmod)

/-- With a positive odd modulus and no negative exponent, EXPMOD tests the ceiling and commits (R172, R174). -/
theorem execExpmod_of_acceptable (ra : RegNo) {rb rc : RegNo} {e n : Nat} (he : s.val rb = e) (hn : s.val rc = n)
    (hodd : n % 2 = 1) : exec (.expmod mode rd re ra rb rc) s =
      if s.params.maxLimbs < 2 * (limbCount n + 1) then s.raise (encode (.expmod mode rd re ra rb rc)) .alloc
      else s.expmodCommit mode rd re ra e n := by
  have hmod : ¬ ((n : Int) ≤ 0 ∨ (n : Int) % 2 = 0) := by omega
  have hexp : ¬ (e : Int) < 0 := by omega
  simp only [exec, execExpmod, if_neg hmode, if_neg hclash, he, hn, if_neg hmod, if_neg hexp]
  rfl

theorem execExpmod_of_fits (ra : RegNo) {rb rc : RegNo} {e n : Nat} (he : s.val rb = e) (hn : s.val rc = n) (hodd : n % 2 = 1)
    (hfits : 2 * (limbCount n + 1) ≤ s.params.maxLimbs) :
    exec (.expmod mode rd re ra rb rc) s = s.expmodCommit mode rd re ra e n :=
  (execExpmod_of_acceptable hmode hclash ra he hn hodd).trans (if_neg (not_lt.2 hfits))

end Branches

/-! ### Completion past the checks -/

/-- A completion that leaves `draws` alone is also one that may write it. -/
theorem State.Completes.allow_draws {s t : State} {w : Touch} (h : s.Completes w t) :
    s.Completes { w with draws := true } t :=
  ⟨h.err, h.busy, { h.keeps with draws := nofun }⟩

section Completion

variable {s : State}

/-- With a constant that is not `RR`, EXPMOD commits the free draw and uses it up, whatever it is (R173, U1). -/
theorem expmodCommit_draws {re : RegNo} {n : Nat} (hre : s.val re ≠ rrConst n) (rd ra : RegNo) (e : Nat) :
    ∃ t, s.expmodCommit .supplied rd re ra e n = .next t ∧ s.Committed rd s.drawInt t ∧
      s.Completes { regs := [rd], draws := true } t := by
  have hkeeps : s.Keeps { regs := [rd], draws := true } { s.commit rd s.drawInt with draws := s.draws + 1 } :=
    { keeps_commit s rd s.drawInt { regs := [rd], draws := true } (List.mem_singleton_self rd) with draws := nofun }
  exact ⟨_, if_pos ⟨rfl, hre⟩, committed_of_reg (commit_reg_self s rd _), completes_of_done hkeeps rfl⟩

/-- Otherwise it commits the power, and in mode 2 `RR` beside it (R171). -/
theorem expmodCommit_completes {mode : RRMode} {rd re : RegNo} {n : Nat} (hclash : ¬ (mode = .stored ∧ re = rd))
    (hright : mode = .supplied → s.val re = rrConst n) (ra : RegNo) (e : Nat) :
    ∃ t, s.expmodCommit mode rd re ra e n = .next t ∧ s.Committed rd (expMod (s.val ra) e n) t ∧
      (mode = .stored → s.Committed re (rrConst n) t) ∧
      s.Completes { regs := rd :: (if mode = .stored then [re] else []) } t := by
  refine ⟨_, if_neg fun h => h.2 (hright h.1), ?power, ?constant, completes_of_done
    (keeps_commitIf_commitIf s true (mode = .stored) rd re _ _ _ (by simp) (by simp +contextual)) rfl⟩
  case power =>
    have hkept := commitIf_reg_ne (s.commit rd (expMod (s.val ra) e n)) re rd (rrConst n) (mode = .stored)
      fun hmode heq => hclash ⟨of_decide_eq_true hmode, heq.symm⟩
    exact committed_of_reg (hkept.trans (commit_reg_self s rd _))
  case constant =>
    rintro rfl
    have hkept := commit_reg_ne s rd re (expMod (s.val ra) e n) fun heq => hclash ⟨rfl, heq⟩
    exact committed_of_reg ((commit_reg_self (s.commit rd _) re _).trans (by rw [hkept]))

end Completion

/-- The power is reduced, so it needs no more limbs than the modulus (R171). -/
theorem limbCount_expMod_le (a : Int) (e : Nat) {n : Nat} (hn : 0 < n) : limbCount (expMod a e n).natAbs ≤ limbCount n :=
  limbCount_mono (expMod_natAbs_le a e (n := n) (by omega))

theorem rrConst_eq_two_pow (n : Nat) : rrConst n = (2 ^ 32) ^ (2 * limbCount n) % n := rfl

end Sys2Proof.Machine
end

section
/-! O52 to O54: EXPMOD, from the branches of R171 and the two completions. -/

namespace Sys2Proof

open Sys2Proof.Machine

/-- Settles O53: the branches of R171 in their order; past them the power, or the free draw where mode 1 has a constant that is
not `RR`. -/
theorem expmodChecksItsPreconditions : Obligations.ExpmodChecksItsPreconditions := by
  intro s rd re ra rb rc
  refine ⟨fun fl h3 h16 => decode_commandWord_expmod_illegal h3 h16 rd re ra rb rc, fun p hp => ?_⟩
  obtain ⟨mode, fl⟩ := p
  obtain ⟨hmode, rfl⟩ : mode ≠ .reserved ∧ fl = (rrModeField mode).toNat := by
    exact rrMode_numbers (mode, fl) hp
  simp only [← rrConst_eq_two_pow]
  refine ⟨decode_commandWord_expmod hmode rd re ra rb rc, ?_⟩
  rw [commandWord_expmod]
  refine ⟨execExpmod_of_clash ra rb rc, fun hclash => execExpmod_of_not_acceptable hmode hclash ra,
    fun e n hclash he hn hodd => ?_⟩
  refine ⟨fun hbig => (execExpmod_of_acceptable hmode hclash ra he hn hodd).trans (if_pos hbig), fun hfits => ?_⟩
  rw [execExpmod_of_fits hmode hclash ra he hn hodd hfits]
  by_cases hright : mode = .supplied → s.val re = rrConst n
  · obtain ⟨t, hexec, hpower, hconstant, hcompletes⟩ := expmodCommit_completes hclash hright ra e
    have hlimbs := limbCount_expMod_le (s.val ra) e (n := n) (by omega)
    exact ⟨t, _, hexec, by omega, hpower, fun _ => ⟨expMod_eq _ e n (by omega), hcompletes.keeps.draws rfl⟩, hconstant,
      hcompletes.allow_draws⟩
  · obtain ⟨rfl, hre⟩ := Classical.not_imp.1 hright
    obtain ⟨t, hexec, hdraw, hcompletes⟩ := expmodCommit_draws hre rd ra e
    exact ⟨t, _, hexec, drawInt_fits s, hdraw, fun h => absurd h hright, nofun, hcompletes⟩

/-- Settles O52: the checks pass, and the power committed is the residue in `[0, N)`. -/
theorem expmodComputesThePower : Obligations.ExpmodComputesThePower := by
  intro s mode rd re ra rb rc e n he hn hodd hfits hmode hclash hright
  have hcommit := execExpmod_of_fits hmode hclash ra he hn hodd hfits
  obtain ⟨t, hexec, hpower, hconstant, hcompletes⟩ := expmodCommit_completes hclash hright ra e
  have hpos : (0 : Int) < n := by omega
  have hresidue := expMod_eq (s.val ra) e n (by omega)
  refine ⟨?decode, t, expMod (s.val ra) e n, hcommit.trans hexec, ?nonneg, ?lt, ?congruent, hpower, hconstant, hcompletes⟩
  case decode =>
    cases mode with
    | absent | supplied | stored => exact decode_commandWord_expmod hmode rd re ra rb rc
    | reserved => exact absurd rfl hmode
  case nonneg => exact hresidue ▸ Int.emod_nonneg _ hpos.ne'
  case lt => exact hresidue ▸ Int.emod_lt_of_pos _ hpos
  case congruent => exact hresidue ▸ Int.mod_modEq _ _

/-- Settles O54: the command completes with the free draw, which fits the ceiling. -/
theorem expmodWithAWrongConstantStillCompletes : Obligations.ExpmodWithAWrongConstantStillCompletes := by
  intro s rd re ra rb rc e n he hn hodd hfits hre
  obtain ⟨t, hexec, hdraw, hcompletes⟩ := expmodCommit_draws (n := n) hre rd ra e
  have hcommit := execExpmod_of_fits (mode := .supplied) (rd := rd) (re := re) nofun nofun ra he hn hodd hfits
  exact ⟨t, s.drawInt, hcommit.trans hexec, drawInt_fits s, hdraw, hcompletes⟩

end Sys2Proof
end

section
/-! O3, O8, O9, O21, O22, O24: illegal words, dropping and acknowledge at the window, and the two ways a command ends. -/

namespace Sys2Proof

/-! ### Illegal words -/

/-- The reserved mode is a matter of `fl[1:0]` (R86). -/
theorem rrMode_reserved_iff (w : Word) : rrModeOfField (fieldsOf w).fl = .reserved ↔ w.extractLsb' 0 2 = 3 := by
  have hfield : ∀ fl : BitVec 4, rrModeOfField fl = .reserved ↔ fl.extractLsb' 0 2 = 3 := by decide
  have hbits : (fieldsOf w).fl.extractLsb' 0 2 = w.extractLsb' 0 2 :=
    BitVec.extractLsb'_extractLsb'_of_le (by decide)
  rw [hfield, hbits]

/-- What is left to reject once a word's opcode is known (R87 (b), (c)). -/
def Op.Rejects (o : Op) (w : Word) : Prop :=
  w &&& o.mask ≠ o.pattern ∨ o = .expmod ∧ rrModeOfField (fieldsOf w).fl = .reserved

theorem decode_illegal_iff {w : Word} {o : Op} (hcode : o.code = opField w) :
    (∃ why, decode w = .illegal why) ↔ o.Rejects w := by
  unfold Op.Rejects
  by_cases hmask : w &&& o.mask = o.pattern
  · rw [decode_of_mask hcode hmask]
    split
    · next hmode => exact ⟨fun _ => .inr hmode, fun _ => ⟨_, rfl⟩⟩
    · next hmode => exact ⟨nofun, fun h => (h.elim (absurd hmask) hmode).elim⟩
  · rw [decode, (Op.ofCode_eq_some _ _).2 hcode]
    exact ⟨fun _ => .inl hmask, fun _ => ⟨_, if_pos hmask⟩⟩

theorem row_mem_tableR83 (o : Op) : (o.code, o.mask, o.pattern) ∈ Machine.tableR83 := by
  cases o <;> decide

theorem illegalWord_iff {w : Word} {o : Op} (hcode : o.code = opField w) : Machine.IllegalWord w ↔ o.Rejects w := by
  constructor
  · rintro (hnone | ⟨row, hrow, hop, hmask⟩ | ⟨hop, hmode⟩)
    · exact absurd hcode (hnone _ (row_mem_tableR83 o))
    · obtain ⟨o', rfl⟩ := exists_op_of_row hrow
      obtain rfl : o' = o := Op.code_injective (hop.trans hcode.symm)
      exact .inl hmask
    · exact .inr ⟨Op.code_injective (o' := .expmod) (hcode.trans hop), (rrMode_reserved_iff w).2 hmode⟩
  · rintro (hmask | ⟨rfl, hmode⟩)
    · exact .inr (.inl ⟨_, row_mem_tableR83 o, hcode, hmask⟩)
    · exact .inr (.inr ⟨hcode.symm, (rrMode_reserved_iff w).1 hmode⟩)

/-- The decoder rejects exactly the words that R87 calls illegal. -/
theorem decode_illegal_iff_illegalWord (w : Word) : (∃ why, decode w = .illegal why) ↔ Machine.IllegalWord w := by
  cases hop : Op.ofCode (opField w) with
  | some o =>
    have hcode := (Op.ofCode_eq_some _ _).1 hop
    rw [decode_illegal_iff hcode, illegalWord_iff hcode]
  | none =>
    refine iff_of_true ⟨.undefinedOpcode, by rw [decode, hop]⟩ (.inl fun row hrow hcode => ?_)
    obtain ⟨o, rfl⟩ := exists_op_of_row hrow
    exact nomatch hop.symm.trans ((Op.ofCode_eq_some (opField w) o).2 hcode)

namespace Machine

/-- An illegal word is a command whose whole effect is its BAD_INPUT record (R192). -/
theorem issue_of_illegalWord {s : State} {w : Word} (hw : IllegalWord w) (hf : s.status.fault = false) :
    s.issue w = .next (s.faultRecord w .badInput) := by
  obtain ⟨why, hdecode⟩ := (decode_illegal_iff_illegalWord w).2 hw
  simp only [State.issue, hf, hdecode, Bool.false_eq_true, if_false]
  rfl

/-! ### Byte accesses and the acknowledge as steps -/

section Steps

variable {s : State} {a : Nat} {rest : List Action} (hb : s.status.busy = false)
include hb

theorem step_write8 {v : Byte} (ha : a < s.params.bufBytes) (hp : s.pending = .write8 (bmemBase + a) v :: rest) :
    step s = .next (State.memWrite { s with pending := rest } a [v]) :=
  (step_idle s _ rest hb hp).trans (access_write8 { s with pending := rest } a v ha)

theorem step_read8 (ha : a < s.params.bufBytes) (hp : s.pending = .read8 (bmemBase + a) :: rest) :
    step s = .next { s with pending := rest, replies := .byte (s.byteAt a) :: s.replies } :=
  (step_idle s _ rest hb hp).trans (access_read8 { s with pending := rest } a ha)

end Steps

theorem ack_faultRecord {s : State} (hf : s.status.fault = false) (c : Word) (e : ErrCode) :
    (s.faultRecord c e).ack = { s with status := { s.status with err := e.code, busy := false }, ecmd := c } := by
  simp only [State.ack, State.faultRecord, hf]

/-! ### Commands that end with a code other than OK -/

/-- A command that ends with ERR other than 0 has raised a code (R195). -/
theorem exec_eq_faultRecord {i : Instr} {s t : State} (h : exec i s = .next t) (he : t.status.err ≠ 0) :
    ∃ e : ErrCode, e ≠ .ok ∧ t = s.faultRecord (encode i) e :=
  (exec_next_cases h).resolve_right fun hc => he hc.err

theorem code_toNat_mem {e : ErrCode} (h : e.code ≠ ErrCode.invalidChar.code) :
    e.code.toNat ∈ [0, 1, 2, 4, 5, 6, 7] := by
  revert h
  cases e <;> decide

end Machine

open Sys2Proof.Machine

/-- Settles O3: both the decoder and R87 go by the word's opcode, its row's mask test and EXPMOD's mode. -/
theorem illegalWordsRaiseBadInput : Obligations.IllegalWordsRaiseBadInput := fun w =>
  ⟨decode_illegal_iff_illegalWord w, fun _ => issue_of_illegalWord⟩

/-- Settles O22: a command that does not complete leaves its fault record. -/
theorem faultsLeaveOnlyTheirRecord : Obligations.FaultsLeaveOnlyTheirRecord := fun _ _ _ => exec_eq_faultRecord

/-- Settles O21: a completed command keeps what is outside its write set, a fault record keeps all but the record. -/
theorem commandsChangeOnlyWhatTheirRulesName : Obligations.CommandsChangeOnlyWhatTheirRulesName := by
  refine fun i s t h => ⟨completes_of_err_eq_zero h, fun he => ?_⟩
  obtain ⟨e, -, rfl⟩ := exec_eq_faultRecord h he
  exact { keeps_self s {} with }

/-- Settles O24: a completed command has ERR 0, a fault one of the codes but INVALID_CHAR. -/
theorem errorCodesAreThoseOfR190 : Obligations.ErrorCodesAreThoseOfR190 := by
  refine ⟨⟨rfl, rfl, rfl, rfl, rfl, rfl, rfl, rfl⟩, fun i s t h => ?_⟩
  have hproduced := exec_avoids i s t h
  rcases exec_next_cases h with ⟨e, -, rfl⟩ | hc
  · exact code_toNat_mem hproduced
  · rw [hc.err]
    decide

/-- Settles O8: a write to CMD finds FAULT set; reads, and writes to the operand registers and BMEM, do not ask for it. -/
theorem commandsAreDroppedWhileFaulted : Obligations.CommandsAreDroppedWhileFaulted := by
  intro s rest hb hf
  refine ⟨fun w hp => ?dropped, fun r => step_read32 hb, fun r hr v hp => ?operand, fun a v ha hp => ?byte,
    fun a => step_read8 hb⟩
  case dropped => exact (step_write32 (r := .cmd) hb hp).trans (issue_of_fault w hf)
  case operand =>
    have hstep := step_write32 hb hp
    simp only [List.mem_cons, List.not_mem_nil, or_false] at hr
    rcases hr with rfl | rfl | rfl | rfl <;> exact ⟨_, hstep, rfl, rfl, rfl⟩
  case byte => exact ⟨_, step_write8 hb ha hp, by simp [byteAt_memWrite], rfl, rfl⟩

/-- Settles O9: bit 0 decides what a write to CTRL does, and the acknowledge undoes the FAULT of a fault record alone. -/
theorem acknowledgeClearsOnlyFault : Obligations.AcknowledgeClearsOnlyFault := by
  refine ⟨fun s v rest hb hp => ?_, fun s c e hf => ack_faultRecord hf c e⟩
  rw [step_write32 (r := .ctrl) hb hp, State.writeScalar]
  exact ⟨fun hv => by rw [if_pos hv, State.ack], fun hv => by rw [hv, if_neg Bool.false_ne_true]⟩

end Sys2Proof
end

section
/-! O23: a command's rule makes its checks in an order, each with a code of R191, and raises the first code whose condition
holds; the order is one of rising rank (R199). -/

namespace Sys2Proof.Machine

/-! ### Codes in the order of the checks -/

/-- The codes that R191 lists for a command, in the order in which its rule checks their conditions. -/
def checkedCodes : Instr → List ErrCode
  | .grow _ | .shl _ | .addabs _ _ _ | .add _ _ _ | .sub _ _ _ | .mul _ _ _ | .muls _ _ => [.alloc]
  | .importBuf _ => [.badInput, .alloc]
  | .exportBuf _ => [.badInput, .bufferTooSmall]
  | .subabs _ _ _ => [.negativeValue]
  | .div _ _ _ _ _ _ | .divs _ _ _ _ _ => [.badInput, .divByZero]
  | .mod _ _ _ | .mods _ => [.divByZero, .negativeValue]
  | .expmod _ _ _ _ _ _ => [.badInput, .notAcceptable, .alloc]
  | .init _ | .free _ | .sets _ | .copy _ _ | .bitlen _ | .size _ | .shr _ | .cmpabs _ _ | .cmp _ _ | .cmps _ => []

theorem mem_checkedCodes_of_cause {s : State} {i : Instr} {e : ErrCode} (h : CauseR191 s i e) : e ∈ checkedCodes i := by
  unfold CauseR191 at h
  split at h
  case h_24 => exact h.elim
  all_goals simp [checkedCodes]

theorem ok_notMem_checkedCodes (i : Instr) : ErrCode.ok ∉ checkedCodes i := by
  cases i <;> simp [checkedCodes]

/-- The checks are made in the order of R199. -/
theorem checkedCodes_pairwise_rank (i : Instr) : (checkedCodes i).Pairwise fun e e' => e.rank ≤ e'.rank := by
  cases i <;> simp [checkedCodes, ErrCode.rank]

/-! ### The first code whose condition holds -/

/-- The outcome raises the first of these codes whose condition in R191 holds, and is a completion if none does. -/
def RaisesFirst (s : State) (i : Instr) : List ErrCode → Host.Outcome State Fault Refusal → Prop
  | [], o => ∃ u : State, o = u.done
  | e :: es, o => CauseR191 s i e ∧ o = s.raise (encode i) e ∨ ¬ CauseR191 s i e ∧ RaisesFirst s i es o

/-- Of codes in order of rank, the one raised has a condition that holds and the least rank of those. -/
theorem RaisesFirst.cases {s : State} {i : Instr} {es : List ErrCode} {o : Host.Outcome State Fault Refusal}
    (hrank : es.Pairwise fun e e' => e.rank ≤ e'.rank) (h : RaisesFirst s i es o) :
    (∃ e ∈ es, CauseR191 s i e ∧ o = s.raise (encode i) e ∧ ∀ e' ∈ es, CauseR191 s i e' → e.rank ≤ e'.rank) ∨
      (∀ e ∈ es, ¬ CauseR191 s i e) ∧ ∃ u : State, o = u.done := by
  induction es with
  | nil => exact .inr ⟨nofun, h⟩
  | cons e es ih =>
    obtain ⟨hhead, htail⟩ := List.pairwise_cons.1 hrank
    rcases h with ⟨hcause, hraise⟩ | ⟨hnot, hrest⟩
    · exact .inl ⟨e, List.mem_cons_self, hcause, hraise,
        List.forall_mem_cons.2 ⟨fun _ => le_rfl, fun e' he' _ => hhead e' he'⟩⟩
    · rcases ih htail hrest with ⟨e₀, hmem, hcause, hraise, hleast⟩ | ⟨hnone, hdone⟩
      · exact .inl ⟨e₀, List.mem_cons_of_mem _ hmem, hcause, hraise,
          List.forall_mem_cons.2 ⟨fun hc => absurd hc hnot, hleast⟩⟩
      · exact .inr ⟨List.forall_mem_cons.2 ⟨hnot, hnone⟩, hdone⟩

section Checks

variable {s : State} {i : Instr}

theorem raisesFirst_ite {e : ErrCode} {es : List ErrCode} {c : Prop} [Decidable c] {o : Host.Outcome State Fault Refusal}
    (hcause : CauseR191 s i e ↔ c) (ho : ¬ c → RaisesFirst s i es o) :
    RaisesFirst s i (e :: es) (if c then s.raise (encode i) e else o) := by
  split
  · next hc => exact .inl ⟨hcause.2 hc, rfl⟩
  · next hc => exact .inr ⟨hc ∘ hcause.1, ho hc⟩

theorem raisesFirst_ite_not {e : ErrCode} {es : List ErrCode} {c : Prop} [Decidable c]
    {o : Host.Outcome State Fault Refusal} (hcause : CauseR191 s i e ↔ ¬ c) (ho : c → RaisesFirst s i es o) :
    RaisesFirst s i (e :: es) (if c then o else s.raise (encode i) e) := by
  rw [← ite_not]
  exact raisesFirst_ite hcause fun hc => ho (not_not.1 hc)

theorem raisesFirst_nil (u : State) : RaisesFirst s i [] u.done := ⟨u, rfl⟩

theorem finish_raisesFirst (rd : RegNo) {v : Int} (hcause : CauseR191 s i .alloc ↔ s.params.maxLimbs < limbCount v.natAbs) :
    RaisesFirst s i [.alloc] (s.finish (encode i) rd v) :=
  raisesFirst_ite_not (hcause.trans not_le.symm) fun _ => raisesFirst_nil _

theorem divide_raisesFirst {qen ren : Bool} {rd re : RegNo} (a : Int) {b : Int}
    (hclash : CauseR191 s i .badInput ↔ qen = true ∧ ren = true ∧ rd = re) (hzero : CauseR191 s i .divByZero ↔ b = 0) :
    RaisesFirst s i [.badInput, .divByZero] (s.divide (encode i) qen ren rd re a b) :=
  raisesFirst_ite hclash fun _ => raisesFirst_ite hzero fun _ => raisesFirst_nil _

end Checks

/-! ### Every command -/

theorem execExport_raisesFirst (s : State) (ra : RegNo) :
    RaisesFirst s (.exportBuf ra) [.badInput, .bufferTooSmall] (execExport ra s) := by
  unfold execExport
  split
  · next hlen =>
    have hblen : s.blen = 0 := BitVec.eq_of_toNat_eq hlen
    exact .inr ⟨fun h => h.1 hblen, .inr ⟨fun h => h.1.ne' hlen, raisesFirst_nil _⟩⟩
  · next hlen =>
    have hblen : s.blen ≠ 0 := fun h => hlen (congrArg BitVec.toNat h)
    exact raisesFirst_ite ((and_iff_right hblen).trans not_le.symm) fun _ =>
      raisesFirst_ite (and_iff_right (Nat.pos_of_ne_zero hlen)) fun _ => raisesFirst_nil _

theorem execExpmod_raisesFirst (s : State) {mode : RRMode} (hmode : mode ≠ .reserved) (rd re ra rb rc : RegNo) :
    RaisesFirst s (.expmod mode rd re ra rb rc) [.badInput, .notAcceptable, .alloc]
      (execExpmod mode rd re ra rb rc s) := by
  rw [execExpmod, if_neg hmode, ← ite_or]
  refine raisesFirst_ite Iff.rfl fun _ => raisesFirst_ite or_assoc.symm fun _ => raisesFirst_ite Iff.rfl fun _ => ?_
  rcases expmodCommit_cases s mode rd re ra (s.val rb).toNat (s.val rc).toNat with ⟨-, h⟩ | ⟨-, h⟩ <;> exact ⟨_, h⟩

/-- THE CHECKS OF A COMMAND: a legal command raises the first of its codes whose condition in R191 holds. -/
theorem exec_raisesFirst (i : Instr) (s : State) (hwf : i.WellFormed) : RaisesFirst s i (checkedCodes i) (exec i s) := by
  cases i with
  | init | free | sets | copy | bitlen | size | shr | cmpabs | cmp | cmps => exact raisesFirst_nil _
  | grow => exact raisesFirst_ite_not not_le.symm fun _ => raisesFirst_nil _
  | shl rd =>
    exact raisesFirst_ite_not (not_le.symm.trans (shiftFits_iff s (s.mag rd) s.count).not.symm) fun _ => raisesFirst_nil _
  | addabs | add | sub | mul | muls => exact finish_raisesFirst _ Iff.rfl
  | subabs => exact raisesFirst_ite Iff.rfl fun _ => raisesFirst_nil _
  | importBuf => exact raisesFirst_ite_not not_le.symm fun _ => finish_raisesFirst _ Iff.rfl
  | exportBuf ra => exact execExport_raisesFirst s ra
  | div | divs => exact divide_raisesFirst _ Iff.rfl Iff.rfl
  | mod | mods => exact raisesFirst_ite Iff.rfl fun _ => raisesFirst_ite Iff.rfl fun _ => raisesFirst_nil _
  | expmod mode rd re ra rb rc =>
    exact execExpmod_raisesFirst s (by simpa [Instr.WellFormed, Instr.wellFormed] using hwf) rd re ra rb rc

/-- A legal command raises a code whose condition holds, of least rank among those, or completes where none holds. -/
theorem exec_fault_cases {i : Instr} (s : State) (hwf : i.WellFormed) :
    (∃ e, e ≠ .ok ∧ CauseR191 s i e ∧ exec i s = .next (s.faultRecord (encode i) e) ∧
        ∀ e', CauseR191 s i e' → e.rank ≤ e'.rank) ∨
      (∀ e, ¬ CauseR191 s i e) ∧ ∃ t, exec i s = .next t ∧ t.status.err = 0 := by
  rcases (exec_raisesFirst i s hwf).cases (checkedCodes_pairwise_rank i) with
    ⟨e, hmem, hcause, hraise, hleast⟩ | ⟨hnone, u, hdone⟩
  · exact .inl ⟨e, ne_of_mem_of_not_mem hmem (ok_notMem_checkedCodes i), hcause, hraise,
      fun e' hc => hleast e' (mem_checkedCodes_of_cause hc) hc⟩
  · exact .inr ⟨fun e hc => hnone e (mem_checkedCodes_of_cause hc) hc, _, hdone, rfl⟩

theorem code_inj {e e' : ErrCode} : e.code = e'.code ↔ e = e' := by
  cases e <;> cases e' <;> decide

/-- A command's fault record shows the ERR with which the command ends. -/
theorem code_eq_err {i : Instr} {s t : State} {c : Word} {e : ErrCode} (h : exec i s = .next (s.faultRecord c e))
    (ht : exec i s = .next t) : e.code = t.status.err :=
  congrArg (fun u : State => u.status.err) (Host.Outcome.next.inj (h.symm.trans ht))

end Sys2Proof.Machine

namespace Sys2Proof

open Sys2Proof.Machine

/-- Settles O23: the code raised is the first in the order of the checks whose condition holds, and a completion has none. -/
theorem faultsHaveExactlyTheCausesOfR191 : Obligations.FaultsHaveExactlyTheCausesOfR191 := by
  refine ⟨fun i s hwf => ?_, fun s w => issue_of_illegalWord⟩
  rcases exec_fault_cases s hwf with ⟨e₀, hne, hcause, hexec, hleast⟩ | ⟨hnone, t, hexec, herr⟩
  · refine ⟨fun e _ h => ?_, fun e hc => ⟨e₀, hne, hexec, hcause, hleast e hc⟩⟩
    rwa [code_inj.1 (code_eq_err h hexec)]
  · refine ⟨fun e he h => ?_, fun e hc => absurd hc (hnone e)⟩
    exact absurd ((code_eq_zero e).1 ((code_eq_err h hexec).trans herr)) he

end Sys2Proof
end

section
/-! SUPPORT. That every command ends: both ways in which a command answers leave BUSY at 0 (R225, R230). -/

namespace Sys2Proof.Machine

/-- The next state of a command shows BUSY = 0, whether it faulted (R195) or completed (R194). -/
theorem exec_busy {i : Instr} {s t : State} (h : exec i s = .next t) : t.status.busy = false := by
  rcases exec_next_cases h with ⟨e, -, rfl⟩ | hc
  · exact faulted_busy s.status e
  · exact hc.busy

end Sys2Proof.Machine

namespace Sys2Proof

open Sys2Proof.Machine

/-- Settles O20: no command stops the machine, and its fault record and its completion both clear BUSY. -/
theorem everyCommandEnds : Obligations.EveryCommandEnds := by
  intro i s
  obtain ⟨t, ht⟩ := exec_next i s
  exact ⟨t, ht, exec_busy ht⟩

end Sys2Proof
end
